-- ==== Sys2Proof/Word.lean ====
section
/-! DEFINITION. The words of the JMZip Huffman engine: one name for each width that 00_scope.md rule R5 fixes. Every
register and field is an unsigned integer of a stated width (00_scope.md R7). -/

namespace Sys2Proof

/-- A command word, or response data: CMDW = RSPDW = 64 bits (00_scope.md R5). -/
abbrev Word64 := BitVec 64

/-- A symbol, or a byte of SRC or DST: SYMW = 8 bits (00_scope.md R5). -/
abbrev Byte := BitVec 8

/-- A frequency count: CNTW = 32 bits (00_scope.md R5). -/
abbrev Count := BitVec 32

/-- A length register, a buffer index or a capacity: 32 bits (10_state.md R18 to R20; 00_scope.md R6). -/
abbrev Length := BitVec 32

/-- The weight of a tree: WTW = 40 bits (00_scope.md R5). -/
abbrev Weight := BitVec 40

/-- The index of a record of NODE: IDXW = 9 bits (00_scope.md R5). -/
abbrev NodeIndex := BitVec 9

/-- The length of a code: LENW = 8 bits (00_scope.md R5). -/
abbrev CodeLength := BitVec 8

/-- The value of a code: VALW = 255 bits (00_scope.md R5). -/
abbrev CodeValue := BitVec 255

end Sys2Proof
end

