-- ==== Sys2Proof/Syntax.lean ====
section
/-! DEFINITION. The 20 commands of 30_encoding.md rule R62, one constructor for each row of spec/opcode_table.json, in
the table's order. An operand is the whole field that carries it (30_encoding.md R63). -/

namespace Sys2Proof

inductive Instr where
  /-- `NOP` (R80). -/
  | nop
  /-- `RESET` (R81). -/
  | reset
  /-- `RDREG r` (R82): r is a status register number, in field a. -/
  | rdreg (r : BitVec 8)
  /-- `FCLR` (R91). -/
  | fclr
  /-- `FSET s, c` (R92): symbol s in field a, count c in field d. -/
  | fset (s : Byte) (c : Count)
  /-- `FGET s` (R93): symbol s in field a. -/
  | fget (s : Byte)
  /-- `BUILD` (R100). -/
  | build
  /-- `NRD i` (R110): node index i in field b. -/
  | nrd (i : BitVec 16)
  /-- `DERIVE` (R120). -/
  | derive
  /-- `CLEN s` (R125): symbol s in field a. -/
  | clen (s : Byte)
  /-- `CVAL s, q` (R126): symbol s in field a, slice number q in field b. -/
  | cval (s : Byte) (q : BitVec 16)
  /-- `SCLR` (R140). -/
  | sclr
  /-- `SPUT x` (R141): byte x in field a. -/
  | sput (x : Byte)
  /-- `SGET i` (R142): byte index i in field d. -/
  | sget (i : Length)
  /-- `BCLR` (R145). -/
  | bclr
  /-- `BAPP n, v` (R146): bit count n in field a, bits v in field d. -/
  | bapp (n : BitVec 8) (v : BitVec 32)
  /-- `BRD j` (R148): byte number j in field d. -/
  | brd (j : Length)
  /-- `DRD i` (R150): byte index i in field d. -/
  | drd (i : Length)
  /-- `ENCODE` (R155). -/
  | encode
  /-- `DECODE` (R170). -/
  | decode
  deriving DecidableEq, Repr

end Sys2Proof
end

