-- ==== Sys2Proof/WellFormed.lean ====
section
/-! DEFINITION. The operand limits that the encoding itself imposes (30_encoding.md rule R65). Every other operand is a
whole field and every value of it is legal. -/

namespace Sys2Proof

/-- The limits of 30_encoding.md R65: r ≤ 11, n ≤ 32, q ≤ 3. -/
def Instr.wf : Instr → Bool
  | .rdreg r => decide (r.toNat ≤ 11)
  | .bapp n _ => decide (n.toNat ≤ 32)
  | .cval _ q => decide (q.toNat ≤ 3)
  | .nop | .reset | .fclr | .fset _ _ | .fget _ | .build | .nrd _ | .derive | .clen _ | .sclr | .sput _ | .sget _
  | .bclr | .brd _ | .drd _ | .encode | .decode => true

end Sys2Proof
end

