-- ==== Sys2Proof/Decode.lean ====
section
/-! DEFINITION. Command words: the four fields (30_encoding.md R61), the opcode map (R62), the decoding procedure (R69),
which is total on all 2^64 words and refuses by name, and the encoder. -/

namespace Sys2Proof

/-- Field `op`, bits 63:56 (30_encoding.md R61). -/
def opField (w : Word64) : BitVec 8 := w.extractLsb' 56 8

/-- Field `a`, bits 55:48 (30_encoding.md R61). -/
def aField (w : Word64) : BitVec 8 := w.extractLsb' 48 8

/-- Field `b`, bits 47:32 (30_encoding.md R61). -/
def bField (w : Word64) : BitVec 16 := w.extractLsb' 32 16

/-- Field `d`, bits 31:0 (30_encoding.md R61). -/
def dField (w : Word64) : BitVec 32 := w.extractLsb' 0 32

/-- The word made of four fields, `op` most significant (30_encoding.md R61). -/
def commandWord (op a : BitVec 8) (b : BitVec 16) (d : BitVec 32) : Word64 := op ++ a ++ b ++ d

/-- A row of the opcode map (30_encoding.md R62): the opcode, which fields carry operands, the printed match and mask,
and the command the fields stand for. -/
structure Row where
  op : BitVec 8
  usesA : Bool
  usesB : Bool
  usesD : Bool
  pattern : Word64
  mask : Word64
  command : BitVec 8 → BitVec 16 → BitVec 32 → Instr

/-- The opcode map (30_encoding.md R62), row by row. -/
def opcodeMap : List Row :=
  [ ⟨0x00, false, false, false, 0x0000000000000000, 0xFFFFFFFFFFFFFFFF, fun _ _ _ => .nop⟩,
    ⟨0x01, false, false, false, 0x0100000000000000, 0xFFFFFFFFFFFFFFFF, fun _ _ _ => .reset⟩,
    ⟨0x02, true,  false, false, 0x0200000000000000, 0xFF00FFFFFFFFFFFF, fun a _ _ => .rdreg a⟩,
    ⟨0x10, false, false, false, 0x1000000000000000, 0xFFFFFFFFFFFFFFFF, fun _ _ _ => .fclr⟩,
    ⟨0x11, true,  false, true,  0x1100000000000000, 0xFF00FFFF00000000, fun a _ d => .fset a d⟩,
    ⟨0x12, true,  false, false, 0x1200000000000000, 0xFF00FFFFFFFFFFFF, fun a _ _ => .fget a⟩,
    ⟨0x20, false, false, false, 0x2000000000000000, 0xFFFFFFFFFFFFFFFF, fun _ _ _ => .build⟩,
    ⟨0x21, false, true,  false, 0x2100000000000000, 0xFFFF0000FFFFFFFF, fun _ b _ => .nrd b⟩,
    ⟨0x30, false, false, false, 0x3000000000000000, 0xFFFFFFFFFFFFFFFF, fun _ _ _ => .derive⟩,
    ⟨0x31, true,  false, false, 0x3100000000000000, 0xFF00FFFFFFFFFFFF, fun a _ _ => .clen a⟩ ] ++
  [ ⟨0x32, true,  true,  false, 0x3200000000000000, 0xFF000000FFFFFFFF, fun a b _ => .cval a b⟩,
    ⟨0x40, false, false, false, 0x4000000000000000, 0xFFFFFFFFFFFFFFFF, fun _ _ _ => .sclr⟩,
    ⟨0x41, true,  false, false, 0x4100000000000000, 0xFF00FFFFFFFFFFFF, fun a _ _ => .sput a⟩,
    ⟨0x42, false, false, true,  0x4200000000000000, 0xFFFFFFFF00000000, fun _ _ d => .sget d⟩,
    ⟨0x44, false, false, false, 0x4400000000000000, 0xFFFFFFFFFFFFFFFF, fun _ _ _ => .bclr⟩,
    ⟨0x45, true,  false, true,  0x4500000000000000, 0xFF00FFFF00000000, fun a _ d => .bapp a d⟩,
    ⟨0x46, false, false, true,  0x4600000000000000, 0xFFFFFFFF00000000, fun _ _ d => .brd d⟩,
    ⟨0x48, false, false, true,  0x4800000000000000, 0xFFFFFFFF00000000, fun _ _ d => .drd d⟩,
    ⟨0x50, false, false, false, 0x5000000000000000, 0xFFFFFFFFFFFFFFFF, fun _ _ _ => .encode⟩,
    ⟨0x51, false, false, false, 0x5100000000000000, 0xFFFFFFFFFFFFFFFF, fun _ _ _ => .decode⟩ ]

/-- Why a word is no command: the first failing step of 30_encoding.md R69. -/
inductive DecodeError where
  /-- Step 1: the opcode is not in the map (R67). -/
  | unknownOpcode
  /-- Step 2: a field the command does not use is not 0 (R64). -/
  | reservedField
  /-- Step 3: an operand exceeds its limit (R65). -/
  | operandLimit
  deriving DecidableEq, Repr

/-- The row has a field that is reserved for its command and is not 0 in w (30_encoding.md R64). -/
def Row.reservedSet (r : Row) (w : Word64) : Bool :=
  (!r.usesA && aField w != 0) || (!r.usesB && bField w != 0) || (!r.usesD && dField w != 0)

/-- The row of an opcode, if the opcode is in the map. -/
def rowOf (op : BitVec 8) : Option Row := opcodeMap.find? (fun r => r.op == op)

/-- The decoding procedure of 30_encoding.md R69, its steps in its order. -/
def decode (w : Word64) : Except DecodeError Instr :=
  match rowOf (opField w) with
  | none => .error .unknownOpcode
  | some r =>
    if r.reservedSet w then .error .reservedField
    else
      let i := r.command (aField w) (bField w) (dField w)
      if i.wf then .ok i else .error .operandLimit

/-- The word of a command: its opcode, its operands in their fields, 0 in every reserved field (30_encoding.md R61,
R62, R64). -/
def encode : Instr → Word64
  | .nop => commandWord 0x00 0 0 0
  | .reset => commandWord 0x01 0 0 0
  | .rdreg r => commandWord 0x02 r 0 0
  | .fclr => commandWord 0x10 0 0 0
  | .fset s c => commandWord 0x11 s 0 c
  | .fget s => commandWord 0x12 s 0 0
  | .build => commandWord 0x20 0 0 0
  | .nrd i => commandWord 0x21 0 i 0
  | .derive => commandWord 0x30 0 0 0
  | .clen s => commandWord 0x31 s 0 0
  | .cval s q => commandWord 0x32 s q 0
  | .sclr => commandWord 0x40 0 0 0
  | .sput x => commandWord 0x41 x 0 0
  | .sget i => commandWord 0x42 0 0 i
  | .bclr => commandWord 0x44 0 0 0
  | .bapp n v => commandWord 0x45 n 0 v
  | .brd j => commandWord 0x46 0 0 j
  | .drd i => commandWord 0x48 0 0 i
  | .encode => commandWord 0x50 0 0 0
  | .decode => commandWord 0x51 0 0 0

/-- The word whose bits are the low nbits bits of w, bit 0 the least significant, every bit above 0. -/
def tableWord (nbits w : Nat) : Word64 := BitVec.ofNat 64 (w % 2 ^ nbits)

/-- What the decoder reads from the word a row of spec/opcode_table.json numbers as w: one 64-bit word, so nothing is
laid out in memory (30_encoding.md R68; 20_memory.md R43). -/
def decodeTableWord (nbits w : Nat) : Option Instr :=
  match decode (tableWord nbits w) with
  | .ok i => some i
  | .error _ => none

end Sys2Proof
end

