-- ==== Sys2Proof/Config.lean ====
section
/-! DEFINITION. What one implementation of the block fixes: the fixed parameters of 00_scope.md rule R5 that are not
widths, and the open parameters of rule R6 as one configuration record. -/

namespace Sys2Proof

/-- NSYMMAX, the largest number of distinct symbols, and the number of entries of FREQ and CODE (00_scope.md R5). -/
abbrev nSymMax : Nat := 256

/-- NNODEMAX, the number of records of NODE (00_scope.md R5). -/
abbrev nNodeMax : Nat := 511

/-- The greatest depth of a leaf, and so the greatest length of a code (00_scope.md R5, row LENW). -/
abbrev depthMax : Nat := 255

/-- The open parameters (00_scope.md R6). Each is at most 2^32 - 1, which its width says, and at least 1, which
`Config.wf` says. -/
structure Config where
  /-- Capacity of SRC, in bytes. -/
  srccap : Length
  /-- Capacity of BITS, in bits. -/
  bitcap : Length
  /-- Capacity of DST, in bytes. -/
  dstcap : Length
  deriving DecidableEq, Repr

/-- The default column of 00_scope.md R6. -/
def Config.default : Config := { srccap := 65536, bitcap := 1048576, dstcap := 65536 }

/-- "Each must satisfy 1 ≤ value ≤ 2^32 − 1" (00_scope.md R6). -/
abbrev Config.wf (c : Config) : Prop := 1 ≤ c.srccap.toNat ∧ 1 ≤ c.bitcap.toNat ∧ 1 ≤ c.dstcap.toNat

end Sys2Proof
end

