-- ==== Sys2Proof/Machine/State.lean ====
section
/-! DEFINITION. The state of the block: everything 10_state.md rule R10 lists, the configuration (R21) and the two ports
(30_encoding.md R60), as plain data; the reasons a step can stop; the state after reset (R38). -/

namespace Sys2Proof.Machine

/-- The seven failure statuses, in the order of their codes (60_exceptions.md R210). -/
inductive Failure where
  /-- 0x01: unknown opcode, reserved field not 0, or operand over its encoding limit (R211). -/
  | illegalCmd
  /-- 0x02: an index operand outside the valid range of its memory (R213). -/
  | badIndex
  /-- 0x03: the command needs a tree or a code table that is not valid (R212). -/
  | notReady
  /-- 0x04: the result would not fit SRCCAP, BITCAP or DSTCAP (R214). -/
  | capacity
  /-- 0x05: table empty and bits present, or the reverse (46_decoder.md R172). -/
  | malformedContainer
  /-- 0x06: the bits ran out in the middle of a descent (46_decoder.md R176). -/
  | decodeUnderflow
  /-- 0x07: a source byte has no code (45_encoder.md R158). -/
  | unknownSymbol
  deriving DecidableEq, Repr

/-- The status of a response: `OK` or one failure. -/
inductive Status where
  | ok
  | failed (f : Failure)
  deriving DecidableEq, Repr

/-- One response (30_encoding.md R66). -/
structure Response where
  status : Status
  data : Word64
  deriving DecidableEq, Repr

/-- A record of NODE, one of two variants (10_state.md R32). -/
inductive NodeRec where
  | leaf (weight : Weight) (sym : Byte)
  | internal (weight : Weight) (left right : NodeIndex)
  deriving DecidableEq, Repr, Inhabited

/-- An entry of CODE (10_state.md R33). -/
structure CodeEntry where
  len : CodeLength
  val : CodeValue
  deriving DecidableEq, Repr, Inhabited

/-- One memory: the (index, element) pairs that differ from what an unlisted index reads as (10_state.md R30). SRC and
DST are so lists of `Host.Cell`. `Memory.wf` of Machine/Ops.lean is the canonical form. -/
abbrev Memory (α : Type) := List (Nat × α)

/-- What the host does to the block: it presents a command word (30_encoding.md R60), or it asserts `rst`
(70_reset_and_hazards.md R240). -/
inductive HostInput where
  | command (w : Word64)
  | hardReset
  deriving DecidableEq, Repr

/-- The state of the block and of its two ports. -/
structure State where
  /-- `TV`, tree valid (R13). -/
  tv : Bool
  /-- `CV`, code table valid (R14). -/
  cv : Bool
  /-- `ERRFLAGS` (R15). -/
  errflags : BitVec 8
  /-- `NNODES` (R16). -/
  nnodes : BitVec 10
  /-- `ROOT` (R17). -/
  root : NodeIndex
  /-- `SRCLEN` (R18). -/
  srclen : Length
  /-- `BITLEN` (R19). -/
  bitlen : Length
  /-- `DSTLEN` (R20). -/
  dstlen : Length
  /-- `FREQ` (R31). -/
  freq : Memory Count
  /-- `NODE` (R32). -/
  node : Memory NodeRec
  /-- `CODE` (R33). -/
  code : Memory CodeEntry
  /-- `SRC` (R34). -/
  src : Memory Byte
  /-- `BITS` (R35). -/
  bits : Memory Bool
  /-- `DST` (R36). -/
  dst : Memory Byte
  /-- The configuration record (R21): a parameter, changed by no step. -/
  cfg : Config
  /-- The command port's side of the host: what it will present, oldest first (30_encoding.md R60). -/
  inputs : List HostInput
  /-- The response port: the response of the last accepted command, none after reset (30_encoding.md R60). -/
  rsp : Option Response
  deriving DecidableEq, Repr

/-- The reasons a step stops with a fault. -/
inductive Fault where
  /-- Raised by DERIVE alone, when its walk goes deeper than 255 edges: then NODE is no tree of BUILD's (10_state.md R39),
  which is so in no state the machine reaches. Safe: the model stops where the spec gives no behaviour. -/
  | malformedTree
  deriving DecidableEq, Repr

/-- The reasons a step is refused. -/
inductive Refusal where
  /-- The named instruction has no meaning in this model yet. Answered only by an arm of exec; no arm does. Safe. -/
  | notModelled (mnemonic : String)
  deriving DecidableEq, Repr

/-- What exec and step answer. -/
abbrev Outcome := Host.Outcome State Fault Refusal

/-- The state after hardware reset of a block with configuration c (10_state.md R38). The contents of NODE, CODE, SRC,
BITS and DST are the model's choice there (DESIGN CHOICE, log 5); no input is presented (log 1). -/
def State.resetWith (c : Config) : State :=
  { tv := false, cv := false, errflags := 0, nnodes := 0, root := 0, srclen := 0, bitlen := 0, dstlen := 0,
    freq := [], node := [], code := [], src := [], bits := [], dst := [], cfg := c, inputs := [], rsp := none }

/-- The machine right after reset (10_state.md R38; 70_reset_and_hazards.md R240), with the default configuration
(00_scope.md R6; log 4). -/
def State.reset : State := State.resetWith Config.default

end Sys2Proof.Machine
end

