-- ==== Sys2Proof/Machine/Flags.lean ====
section
/-! DEFINITION. The flags: the validity flags TV and CV (10_state.md rules R13, R14), the sticky ERRFLAGS (R15), the
status codes (60_exceptions.md R210) and the STATUS register (10_state.md R25). -/

namespace Sys2Proof.Machine

/-- The code of a failure (60_exceptions.md R210). -/
def Failure.code : Failure → BitVec 8
  | .illegalCmd => 0x01
  | .badIndex => 0x02
  | .notReady => 0x03
  | .capacity => 0x04
  | .malformedContainer => 0x05
  | .decodeUnderflow => 0x06
  | .unknownSymbol => 0x07

/-- `rsp_status` (60_exceptions.md R210). -/
def Status.code : Status → BitVec 8
  | .ok => 0x00
  | .failed f => f.code

/-- The bit of ERRFLAGS that a failure sets: bit k for status code k (10_state.md R15). -/
def Failure.errBit (f : Failure) : BitVec 8 := 1#8 <<< f.code.toNat

/-- ERRFLAGS after a failure: its bit set, the others kept (10_state.md R15). -/
def setErr (errflags : BitVec 8) (f : Failure) : BitVec 8 := errflags ||| f.errBit

/-- TV and CV cleared: what FSET, FCLR and RESET do to them (10_state.md R13, R14). -/
def State.invalidateTree (s : State) : State := { s with tv := false, cv := false }

/-- The STATUS register: bit 0 TV, bit 1 CV, bits 63:2 zero (10_state.md R25). -/
def statusWord (tv cv : Bool) : Word64 := 0#62 ++ BitVec.ofBool cv ++ BitVec.ofBool tv

end Sys2Proof.Machine
end

