-- ==== Sys2Proof/Machine/Ops.lean ====
section
/-! DEFINITION. The named operations over memories and over the state that the meanings share: MemRead and MemWrite
(00_scope.md rule R8), `return OK` and `raise` (R8; 60_exceptions.md R219), reset (10_state.md R38), taking the next
input (30_encoding.md R60).

Taking an exception: this hardware's counterpart is `raise`. It has no vector, no saved program counter, no saved status
and no mode (60_exceptions.md R219), and no return from it (R220: "There is no return command because nothing was
entered"). -/

namespace Sys2Proof.Machine

/-- What an unlisted index of a memory reads as: zero, the empty leaf, the empty code entry. For FREQ it is the reset
value (10_state.md R31). For the other memories it is the content after reset, which the spec leaves unspecified and no
command can show (R37, R38): DESIGN CHOICE, log 5. -/
def Memory.unlisted {α : Type} [Inhabited α] : α := default

/-- One element of a memory (`M[i]`, 00_scope.md R8). -/
def Memory.read {α : Type} [Inhabited α] : Memory α → Nat → α
  | [], _ => Memory.unlisted
  | (k, v) :: rest, i => if k = i then v else Memory.read rest i

/-- `MemRead(M[i], n)` (00_scope.md R8): elements i .. i + n - 1 in index order. -/
def Memory.readBlock {α : Type} [Inhabited α] (m : Memory α) (i n : Nat) : List α :=
  (List.range n).map (fun k => m.read (i + k))

/-- The pairs that list the elements vs at indices i, i + 1, ..., an element equal to the unlisted one left out. -/
def Memory.cells {α : Type} [Inhabited α] [DecidableEq α] : Nat → List α → Memory α
  | _, [] => []
  | i, v :: vs => if v = Memory.unlisted then Memory.cells (i + 1) vs else (i, v) :: Memory.cells (i + 1) vs

/-- `MemWrite(M[i], n, v)` (00_scope.md R8): the list vs at indices i .. i + |vs| - 1, every other element kept. -/
def Memory.writeBlock {α : Type} [Inhabited α] [DecidableEq α] (m : Memory α) (i : Nat) (vs : List α) : Memory α :=
  m.filter (fun c => c.1 < i) ++ Memory.cells i vs ++ m.filter (fun c => i + vs.length ≤ c.1)

/-- `M[i] <- v` (00_scope.md R8). -/
def Memory.write {α : Type} [Inhabited α] [DecidableEq α] (m : Memory α) (i : Nat) (v : α) : Memory α :=
  m.writeBlock i [v]

/-- The memory with the unlisted element at every index. -/
def Memory.empty {α : Type} : Memory α := []

/-- The canonical form: indices strictly rising, no element equal to the unlisted one. Equal contents are then equal
lists. -/
abbrev Memory.wf {α : Type} [Inhabited α] [DecidableEq α] (m : Memory α) : Prop :=
  m.Pairwise (fun c c' => c.1 < c'.1) ∧ ∀ c ∈ m, c.2 ≠ Memory.unlisted

/-- Every listed index is below n: the memory has n elements (10_state.md R30). -/
abbrev Memory.below {α : Type} (m : Memory α) (n : Nat) : Prop := ∀ c ∈ m, c.1 < n

/-- The state in which a command has completed with status OK and this response data. -/
def State.responded (s : State) (data : Word64) : State := { s with rsp := some ⟨.ok, data⟩ }

/-- `return OK(data)` (00_scope.md R8). -/
def ok (data : Word64) (s : State) : Outcome := .next (s.responded data)

/-- The state after a failure (60_exceptions.md R219): the response, the bit of ERRFLAGS, nothing else. -/
def State.failed (s : State) (f : Failure) (info : Word64) : State :=
  { s with errflags := setErr s.errflags f, rsp := some ⟨.failed f, info⟩ }

/-- `raise f(info)` (00_scope.md R8; 60_exceptions.md R219). A meaning calls it on the state the command found. -/
def raise (f : Failure) (info : Word64) (s : State) : Outcome := .next (s.failed f info)

/-- The registers, the flags and FREQ at their reset values (10_state.md R38; 40_system_commands.md R81). NODE, CODE, SRC,
BITS and DST keep contents that nothing can observe (R37; DESIGN CHOICE, log 6). -/
def State.cleared (s : State) : State :=
  { s.invalidateTree with
    errflags := 0, nnodes := 0, root := 0, srclen := 0, bitlen := 0, dstlen := 0, freq := Memory.empty }

/-- Hardware reset (70_reset_and_hazards.md R240, R241): the reset state, no response pending (log 7). -/
def State.hardReset (s : State) : State := { s.cleared with rsp := none }

/-- Take the next input of the host, if there is one (30_encoding.md R60; log 1). -/
def State.takeInput (s : State) : Option (HostInput × State) :=
  match s.inputs with
  | [] => none
  | x :: rest => some (x, { s with inputs := rest })

/-- The state with one more input, which the next step takes. -/
def State.present (s : State) (x : HostInput) : State := { s with inputs := x :: s.inputs }

end Sys2Proof.Machine
end

