-- ==== Sys2Proof/Machine/Operands.lean ====
section
/-! DEFINITION. The forms in which commands take operands and give results: status registers, node images, bit groups,
codes as bits, the byte view of the bit sequence, slices of a code value, the data of the two failures that carry some. -/

namespace Sys2Proof.Machine

/-- The ID register: "JMZH" and the interface revision 1 (10_state.md R26). -/
def idWord : Word64 := 0x4A4D5A4800000001

/-- NSYM: the number of leaves of a tree of so many records, `(NNODES + 1) >> 1` (10_state.md R24). -/
def leafCount (nnodes : BitVec 10) : Word64 := (nnodes.setWidth 64 + 1) >>> 1

/-- `SR[r]`, the status register file (10_state.md R24); none above 11. -/
def statusRegister (s : State) (r : BitVec 8) : Option Word64 :=
  match r.toNat with
  | 0 => some idWord
  | 1 => some (statusWord s.tv s.cv)
  | 2 => some (s.errflags.setWidth 64)
  | 3 => some (if s.tv then leafCount s.nnodes else 0)
  | 4 => some (if s.tv then s.nnodes.setWidth 64 else 0)
  | 5 => some (if s.tv then s.root.setWidth 64 else 0)
  | 6 => some (s.srclen.setWidth 64)
  | 7 => some (s.bitlen.setWidth 64)
  | 8 => some (s.dstlen.setWidth 64)
  | 9 => some (s.cfg.srccap.setWidth 64)
  | 10 => some (s.cfg.bitcap.setWidth 64)
  | 11 => some (s.cfg.dstcap.setWidth 64)
  | _ => none

/-- The 64-bit image of a node record (10_state.md R32). -/
def NodeRec.image : NodeRec → Word64
  | .leaf weight sym => 1#1 ++ 0#5 ++ weight ++ 0#9 ++ 0#1 ++ sym
  | .internal weight left right => 0#1 ++ 0#5 ++ weight ++ left ++ right

/-- The weight field of either variant (10_state.md R32). -/
def NodeRec.weight : NodeRec → Weight
  | .leaf weight _ => weight
  | .internal weight _ _ => weight

/-- The bits v[n-1], v[n-2], ..., v[0] in that order (20_memory.md R42; 44_buffers.md R146). -/
def bitGroup {w : Nat} (n : Nat) (v : BitVec w) : List Bool := (List.range n).map (fun t => v.getLsbD (n - 1 - t))

/-- The bit string of a code, first bit first (10_state.md R33). -/
def CodeEntry.bits (c : CodeEntry) : List Bool := bitGroup c.len.toNat c.val

/-- Slice q of a code value: bits 64q+63 .. 64q of `zext_256(val)` (43_code_table.md R126). -/
def CodeEntry.slice (c : CodeEntry) (q : Nat) : Word64 := (c.val.setWidth 256).extractLsb' (64 * q) 64

/-- `ceil8(n)`, the number of bytes that hold n bits (00_scope.md R7), without wrap-around (log 11). -/
def ceil8 (n : Nat) : Nat := (n + 7) >>> 3

/-- Bit p of the sequence as the byte view shows it: 0 at and after BITLEN (20_memory.md R41). -/
def State.viewBit (s : State) (p : Nat) : Bool := if p < s.bitlen.toNat then s.bits.read p else false

/-- Byte j of the packed bit sequence, first bit most significant (20_memory.md R41; 44_buffers.md R148). -/
def State.packedByte (s : State) (j : Nat) : Byte :=
  (List.range 8).foldl (fun x t => x ||| ((BitVec.ofBool (s.viewBit (8 * j + t))).setWidth 8 <<< (7 - t))) 0

/-- The data of UNKNOWN_SYMBOL: `(SRC[k] << 32) | k` (45_encoder.md R158). -/
def unknownSymbolInfo (k : Nat) (x : Byte) : Word64 := 0#24 ++ x ++ BitVec.ofNat 32 k

end Sys2Proof.Machine
end

