-- ==== Sys2Proof/Machine/Buffers.lean ====
section
/-! DEFINITION. The buffer commands (44_buffers.md). -/

namespace Sys2Proof.Machine

/-- `SCLR` (44_buffers.md R140). -/
def execSclr (s : State) : Outcome := ok 0 { s with srclen := 0 }

/-- `SPUT x` (44_buffers.md R141). -/
def execSput (x : Byte) (s : State) : Outcome :=
  if s.srclen = s.cfg.srccap then raise .capacity 0 s
  else ok ((s.srclen + 1).setWidth 64) { s with src := s.src.write s.srclen.toNat x, srclen := s.srclen + 1 }

/-- `SGET i` (44_buffers.md R142). -/
def execSget (i : Length) (s : State) : Outcome :=
  if s.srclen.toNat ≤ i.toNat then raise .badIndex 0 s
  else ok ((s.src.read i.toNat).setWidth 64) s

/-- `BCLR` (44_buffers.md R145). -/
def execBclr (s : State) : Outcome := ok 0 { s with bitlen := 0 }

/-- `BAPP n, v` (44_buffers.md R146); the sum is compared without wrap-around. -/
def execBapp (n : BitVec 8) (v : BitVec 32) (s : State) : Outcome :=
  if 32 < n.toNat then raise .illegalCmd 0 s
  else if s.cfg.bitcap.toNat < s.bitlen.toNat + n.toNat then raise .capacity 0 s
  else
    let bitlen := s.bitlen + n.setWidth 32
    ok (bitlen.setWidth 64) { s with bits := s.bits.writeBlock s.bitlen.toNat (bitGroup n.toNat v), bitlen := bitlen }

/-- `BRD j` (44_buffers.md R148). -/
def execBrd (j : Length) (s : State) : Outcome :=
  if ceil8 s.bitlen.toNat ≤ j.toNat then raise .badIndex 0 s
  else ok ((s.packedByte j.toNat).setWidth 64) s

/-- `DRD i` (44_buffers.md R150). -/
def execDrd (i : Length) (s : State) : Outcome :=
  if s.dstlen.toNat ≤ i.toNat then raise .badIndex 0 s
  else ok ((s.dst.read i.toNat).setWidth 64) s

end Sys2Proof.Machine
end

