-- ==== Sys2Proof/Machine/CodeTable.lean ====
section
/-! DEFINITION. The code-table derivator commands (43_code_table.md). -/

namespace Sys2Proof.Machine

/-- The pre-order walk (43_code_table.md R121): i the node, l the path length, v the path bits. `fuel` bounds the records
on one path; a path of the deepest tree has depthMax + 1. None when it runs out (log 8). -/
def walk (node : Memory NodeRec) : Nat → Nat → CodeLength → CodeValue → Memory CodeEntry → Option (Memory CodeEntry)
  | 0, _, _, _, _ => none
  | fuel + 1, i, l, v, code =>
    match node.read i with
    | .leaf _ sym => some (code.write sym.toNat ⟨l, v⟩)
    | .internal _ left right =>
      match walk node fuel left.toNat (l + 1) (v <<< 1) code with
      | none => none
      | some code' => walk node fuel right.toNat (l + 1) ((v <<< 1) ||| 1) code'

/-- The code table of a tree (43_code_table.md R120): every entry first {0, 0}; the empty tree gives no code (R123), a
single leaf the code "0" (R122), any other tree the codes of its walk (R121). -/
def deriveTable (node : Memory NodeRec) (nnodes root : Nat) : Option (Memory CodeEntry) :=
  if nnodes = 0 then some Memory.empty
  else
    match node.read root with
    | .leaf _ sym => some (Memory.write Memory.empty sym.toNat ⟨1, 0⟩)
    | .internal _ _ _ => walk node (depthMax + 1) root 0 0 Memory.empty

/-- The number of codes that DERIVE reports (43_code_table.md R120). -/
def codesWritten (node : Memory NodeRec) (nnodes : BitVec 10) (root : Nat) : Word64 :=
  if nnodes = 0 then 0
  else
    match node.read root with
    | .leaf _ _ => 1
    | .internal _ _ _ => leafCount nnodes

/-- `DERIVE` (43_code_table.md R120). -/
def execDerive (s : State) : Outcome :=
  if !s.tv then raise .notReady 0 s
  else
    match deriveTable s.node s.nnodes.toNat s.root.toNat with
    | none => .fault .malformedTree
    | some code => ok (codesWritten s.node s.nnodes s.root.toNat) { s with code := code, cv := true }

/-- `CLEN s` (43_code_table.md R125). -/
def execClen (sym : Byte) (s : State) : Outcome :=
  if !s.cv then raise .notReady 0 s
  else ok ((s.code.read sym.toNat).len.setWidth 64) s

/-- `CVAL s, q` (43_code_table.md R126). -/
def execCval (sym : Byte) (q : BitVec 16) (s : State) : Outcome :=
  if 3 < q.toNat then raise .illegalCmd 0 s
  else if !s.cv then raise .notReady 0 s
  else ok ((s.code.read sym.toNat).slice q.toNat) s

end Sys2Proof.Machine
end

