-- ==== Sys2Proof/Machine/Decoder.lean ====
section
/-! DEFINITION. The decoder command (46_decoder.md). -/

namespace Sys2Proof.Machine

/-- What the trial pass of DECODE ends with (46_decoder.md R175, R176). -/
inductive Trial where
  /-- The bits ended at a restart: the symbols decoded. -/
  | complete (symbols : List Byte)
  /-- The bits ended in the middle of a descent: the number of whole symbols before it. -/
  | underflow (count : Nat)
  deriving DecidableEq, Repr

/-- One more symbol in front. -/
def Trial.cons (x : Byte) : Trial → Trial
  | .complete xs => .complete (x :: xs)
  | .underflow n => .underflow (n + 1)

/-- The trial pass (46_decoder.md R170, R175) over the bits that remain, for a tree whose root is internal with children
`top`. `cur` holds the children of the record the descent has reached, or none at a restart, where the descent begins at
the root. -/
def trialPass (node : Memory NodeRec) (top : NodeIndex × NodeIndex) :
    List Bool → Option (NodeIndex × NodeIndex) → Trial
  | [], none => .complete []
  | [], some _ => .underflow 0
  | bit :: bits, cur =>
    let children := cur.getD top
    match node.read (if bit then children.2 else children.1).toNat with
    | .leaf _ sym => (trialPass node top bits none).cons sym
    | .internal _ left right => trialPass node top bits (some (left, right))

/-- The commit of DECODE: DST replaced by the symbols, or CAPACITY (46_decoder.md R170, R178). -/
def commitSymbols (symbols : List Byte) (s : State) : Outcome :=
  if s.cfg.dstcap.toNat < symbols.length then raise .capacity 0 s
  else
    let dstlen := BitVec.ofNat 32 symbols.length
    ok (dstlen.setWidth 64) { s with dst := s.dst.writeBlock 0 symbols, dstlen := dstlen }

/-- `DECODE` (46_decoder.md R170): readiness (R171), the container check (R172), the empty sequence (R173), a single-leaf
tree (R174), the general case (R175 to R178). -/
def execDecode (s : State) : Outcome :=
  if !s.tv then raise .notReady 0 s
  else if (s.nnodes == 0) != (s.bitlen == 0) then raise .malformedContainer 0 s
  else if s.bitlen = 0 then ok 0 { s with dstlen := 0 }
  else
    match s.node.read s.root.toNat with
    | .leaf _ sym => commitSymbols (List.replicate s.bitlen.toNat sym) s
    | .internal _ left right =>
      match trialPass s.node (left, right) (s.bits.readBlock 0 s.bitlen.toNat) none with
      | .underflow n => raise .decodeUnderflow (BitVec.ofNat 64 n) s
      | .complete symbols => commitSymbols symbols s

end Sys2Proof.Machine
end

