-- ==== Sys2Proof/Machine/Encoder.lean ====
section
/-! DEFINITION. The encoder command (45_encoder.md). -/

namespace Sys2Proof.Machine

/-- The first byte that has no code, with its index; k is the index of the first byte of the list (45_encoder.md R158). -/
def firstUnknown (code : Memory CodeEntry) : Nat → List Byte → Option (Nat × Byte)
  | _, [] => none
  | k, x :: xs => if (code.read x.toNat).len = 0 then some (k, x) else firstUnknown code (k + 1) xs

/-- The sum of the code lengths of the bytes, an unbounded integer (45_encoder.md R155, R160). -/
def totalLength (code : Memory CodeEntry) : List Byte → Nat
  | [] => 0
  | x :: xs => (code.read x.toNat).len.toNat + totalLength code xs

/-- The codes of the bytes, one after the other (45_encoder.md R157). -/
def encodeBytes (code : Memory CodeEntry) : List Byte → List Bool
  | [] => []
  | x :: xs => (code.read x.toNat).bits ++ encodeBytes code xs

/-- BITS and BITLEN replaced by a sequence of bits (45_encoder.md R155). -/
def State.putBits (s : State) (bits : List Bool) : State :=
  { s with bits := s.bits.writeBlock 0 bits, bitlen := BitVec.ofNat 32 bits.length }

/-- `ENCODE` (45_encoder.md R155): the empty buffer, one byte, then the general case (R156), whose checks come before any
write (R161). -/
def execEncode (s : State) : Outcome :=
  if s.srclen = 0 then ok 0 (s.putBits [])
  else if s.srclen = 1 then ok 1 (s.putBits [false])
  else if !s.cv then raise .notReady 0 s
  else
    let bytes := s.src.readBlock 0 s.srclen.toNat
    match firstUnknown s.code 0 bytes with
    | some (k, x) => raise .unknownSymbol (unknownSymbolInfo k x) s
    | none =>
      if s.cfg.bitcap.toNat < totalLength s.code bytes then raise .capacity 0 s
      else
        let s' := s.putBits (encodeBytes s.code bytes)
        ok (s'.bitlen.setWidth 64) s'

end Sys2Proof.Machine
end

