-- ==== Sys2Proof/Machine/FrequencyTable.lean ====
section
/-! DEFINITION. The frequency table commands (41_frequency_table.md). -/

namespace Sys2Proof.Machine

/-- `FCLR` (41_frequency_table.md R91). -/
def execFclr (s : State) : Outcome := ok 0 { s.invalidateTree with freq := Memory.empty }

/-- `FSET s, c` (41_frequency_table.md R92). -/
def execFset (sym : Byte) (c : Count) (s : State) : Outcome :=
  ok 0 { s.invalidateTree with freq := s.freq.write sym.toNat c }

/-- `FGET s` (41_frequency_table.md R93). -/
def execFget (sym : Byte) (s : State) : Outcome := ok ((s.freq.read sym.toNat).setWidth 64) s

end Sys2Proof.Machine
end

