-- ==== Sys2Proof/Machine/System.lean ====
section
/-! DEFINITION. The system commands (40_system_commands.md). -/

namespace Sys2Proof.Machine

/-- `NOP` (40_system_commands.md R80). -/
def execNop (s : State) : Outcome := ok 0 s

/-- `RESET` (40_system_commands.md R81). -/
def execReset (s : State) : Outcome := ok 0 s.cleared

/-- `RDREG r` (40_system_commands.md R82). -/
def execRdreg (r : BitVec 8) (s : State) : Outcome :=
  match statusRegister s r with
  | none => raise .illegalCmd 0 s
  | some v => ok v s

end Sys2Proof.Machine
end

