-- ==== Sys2Proof/Machine/TreeBuilder.lean ====
section
/-! DEFINITION. The tree builder commands (42_tree_builder.md). -/

namespace Sys2Proof.Machine

/-- A tree of the working collection: its weight and the index of its root in NODE (00_scope.md R9, HuffTree;
42_tree_builder.md R102). -/
structure Tree where
  weight : Weight
  root : Nat
  deriving DecidableEq, Repr

/-- The selection order (42_tree_builder.md R103): lower weight first, on equal weight lower index first. -/
def Tree.before (t u : Tree) : Bool :=
  t.weight.ult u.weight || (t.weight == u.weight && decide (t.root < u.root))

/-- The tree of a non-empty collection t, us with the smallest key, and the collection without it. -/
def selectLeast : Tree → List Tree → Tree × List Tree
  | t, [] => (t, [])
  | t, u :: us =>
    if u.before t then
      let r := selectLeast u us
      (r.1, t :: r.2)
    else
      let r := selectLeast t us
      (r.1, u :: r.2)

/-- All 256 symbols in ascending value. -/
def allSymbols : List Byte := (List.range nSymMax).map (BitVec.ofNat 8)

/-- Seeding (42_tree_builder.md R101): one leaf for each non-zero entry of FREQ, in ascending symbol value. -/
def seedLeaves (freq : Memory Count) : List NodeRec :=
  allSymbols.filterMap fun s =>
    let c := freq.read s.toNat
    if c = 0 then none else some (.leaf (c.setWidth 40) s)

/-- The working collection at the start: the tree of each record, from index i on (42_tree_builder.md R102). -/
def seedTrees : Nat → List NodeRec → List Tree
  | _, [] => []
  | i, r :: rs => ⟨r.weight, i⟩ :: seedTrees (i + 1) rs

/-- The merge loop (42_tree_builder.md R102), at most `fuel` merges. `live` is the working collection, `nodes` the
records made so far, so the next record gets index |nodes|. Answers the records and the collection at the end. -/
def mergeLoop : Nat → List Tree → List NodeRec → List NodeRec × List Tree
  | 0, live, nodes => (nodes, live)
  | _ + 1, [], nodes => (nodes, [])
  | fuel + 1, t :: ts, nodes =>
    let first := selectLeast t ts
    match first.2 with
    | [] => (nodes, [first.1])
    | u :: us =>
      let second := selectLeast u us
      let weight := first.1.weight + second.1.weight
      mergeLoop fuel (⟨weight, nodes.length⟩ :: second.2)
        (nodes ++ [.internal weight (BitVec.ofNat 9 first.1.root) (BitVec.ofNat 9 second.1.root)])

/-- The tree of a frequency table: its records in index order, and the index of its root, 0 for the empty tree
(42_tree_builder.md R100, R105). -/
def buildTree (freq : Memory Count) : List NodeRec × Nat :=
  let leaves := seedLeaves freq
  let built := mergeLoop leaves.length (seedTrees 0 leaves) leaves
  match built.2 with
  | [] => (built.1, 0)
  | t :: _ => (built.1, t.root)

/-- `BUILD` (42_tree_builder.md R100). -/
def execBuild (s : State) : Outcome :=
  let built := buildTree s.freq
  let nnodes := BitVec.ofNat 10 built.1.length
  ok (nnodes.setWidth 64)
    { s with
      node := s.node.writeBlock 0 built.1, nnodes := nnodes, root := BitVec.ofNat 9 built.2, tv := true, cv := false }

/-- `NRD i` (42_tree_builder.md R110). -/
def execNrd (i : BitVec 16) (s : State) : Outcome :=
  if !s.tv then raise .notReady 0 s
  else if s.nnodes.toNat ≤ i.toNat then raise .badIndex 0 s
  else ok (s.node.read i.toNat).image s

end Sys2Proof.Machine
end

