-- ==== Sys2Proof/Machine/Dispatch.lean ====
section
/-! DEFINITION. One arm per command. -/

namespace Sys2Proof.Machine

def exec (i : Instr) (s : State) : Host.Outcome State Fault Refusal :=
  match i with
  | .nop => Sys2Proof.Machine.execNop s
  | .reset => Sys2Proof.Machine.execReset s
  | .rdreg r => Sys2Proof.Machine.execRdreg r s
  | .fclr => Sys2Proof.Machine.execFclr s
  | .fset sym c => Sys2Proof.Machine.execFset sym c s
  | .fget sym => Sys2Proof.Machine.execFget sym s
  | .build => Sys2Proof.Machine.execBuild s
  | .nrd k => Sys2Proof.Machine.execNrd k s
  | .derive => Sys2Proof.Machine.execDerive s
  | .clen sym => Sys2Proof.Machine.execClen sym s
  | .cval sym q => Sys2Proof.Machine.execCval sym q s
  | .sclr => Sys2Proof.Machine.execSclr s
  | .sput x => Sys2Proof.Machine.execSput x s
  | .sget k => Sys2Proof.Machine.execSget k s
  | .bclr => Sys2Proof.Machine.execBclr s
  | .bapp n v => Sys2Proof.Machine.execBapp n v s
  | .brd j => Sys2Proof.Machine.execBrd j s
  | .drd k => Sys2Proof.Machine.execDrd k s
  | .encode => Sys2Proof.Machine.execEncode s
  | .decode => Sys2Proof.Machine.execDecode s

end Sys2Proof.Machine
end

