-- ==== Sys2Proof/Machine/Step.lean ====
section
/-! DEFINITION. One step of the engine: one input of the host (30_encoding.md rule R60). There is no program counter and
no fetch (10_state.md R12). -/

namespace Sys2Proof.Machine

/-- One step: with no input the block is idle and holds its state (60_exceptions.md R227; log 2); `rst` gives the reset
state (70_reset_and_hazards.md R240); a command word is decoded (30_encoding.md R69) and executed, and a word that is no
command raises ILLEGAL_CMD (60_exceptions.md R211). -/
def step (s : State) : Host.Outcome State Fault Refusal :=
  match s.takeInput with
  | none => .next s
  | some (.hardReset, s') => .next s'.hardReset
  | some (.command w, s') =>
    match decode w with
    | .error _ => raise .illegalCmd 0 s'
    | .ok i => exec i s'

/-- The state with the word of a row of spec/opcode_table.json presented on the command port, so that the next step takes
it (log 1). -/
def State.withFetchWord (s : State) (nbits w : Nat) : State := s.present (.command (tableWord nbits w))

end Sys2Proof.Machine
end

