-- ==== Sys2Proof/Safety.lean ====
section
/-! DEFINITION. The terms that claims about the machine use: submitting a command word, a session of command words
(30_encoding.md rule R60), the invariant of the states the machine reaches, what the host can observe (10_state.md R37),
the status table (60_exceptions.md R216), paths in a tree, the selection order as a relation, and the command sequences of
47_properties.md. -/

namespace Sys2Proof.Machine

/-- What the engine answers when the host presents the word w. -/
def submit (w : Word64) (s : State) : Outcome := step (s.present (.command w))

/-- The block as a function from a state and the list of accepted command words to the list of responses and the final
state (30_encoding.md R60 (d)). -/
def session : List Word64 → State → Host.Outcome (State × List Response) Fault Refusal
  | [], s => .next (s, [])
  | w :: ws, s =>
    match submit w s with
    | .fault r => .fault r
    | .refused r => .refused r
    | .next t =>
      match session ws t with
      | .fault r => .fault r
      | .refused r => .refused r
      | .next (u, rs) => .next (u, t.rsp.toList ++ rs)

/-- The words of a list of commands. -/
def wordsOf (is : List Instr) : List Word64 := is.map encode

/-- What every state the machine reaches satisfies: capacities and lengths (00_scope.md R6; 10_state.md R18 to R20),
memories in canonical form and inside their index ranges (R30), ERRFLAGS bit 0 (R15), CV = 1 implies TV = 1 (R14), and the
meaning of TV and of CV (R13, R14). -/
structure State.Inv (s : State) : Prop where
  cfg_wf : s.cfg.wf
  srclen_le : s.srclen.toNat ≤ s.cfg.srccap.toNat
  bitlen_le : s.bitlen.toNat ≤ s.cfg.bitcap.toNat
  dstlen_le : s.dstlen.toNat ≤ s.cfg.dstcap.toNat
  nnodes_le : s.nnodes.toNat ≤ nNodeMax
  root_lt : s.root.toNat < nNodeMax
  freq_wf : s.freq.wf
  freq_below : s.freq.below nSymMax
  node_wf : s.node.wf
  node_below : s.node.below nNodeMax
  code_wf : s.code.wf
  code_below : s.code.below nSymMax
  src_wf : s.src.wf
  src_below : s.src.below s.cfg.srccap.toNat
  bits_wf : s.bits.wf
  bits_below : s.bits.below s.cfg.bitcap.toNat
  dst_wf : s.dst.wf
  dst_below : s.dst.below s.cfg.dstcap.toNat
  errflags_zero : s.errflags.getLsbD 0 = false
  cv_tv : s.cv = true → s.tv = true
  tree : s.tv = true →
    s.nnodes.toNat = (buildTree s.freq).1.length ∧ s.root.toNat = (buildTree s.freq).2 ∧
      s.node.readBlock 0 s.nnodes.toNat = (buildTree s.freq).1
  codes : s.cv = true → deriveTable s.node s.nnodes.toNat s.root.toNat = some s.code

/-- Two states agree on everything outside the elements of 10_state.md R37: NODE records at an index ≥ NNODES or while
TV = 0, CODE entries while CV = 0, and the elements of SRC, BITS, DST at or past their lengths. -/
structure State.SameObservable (s t : State) : Prop where
  tv : s.tv = t.tv
  cv : s.cv = t.cv
  errflags : s.errflags = t.errflags
  nnodes : s.nnodes = t.nnodes
  root : s.root = t.root
  srclen : s.srclen = t.srclen
  bitlen : s.bitlen = t.bitlen
  dstlen : s.dstlen = t.dstlen
  cfg : s.cfg = t.cfg
  inputs : s.inputs = t.inputs
  rsp : s.rsp = t.rsp
  freq : ∀ k, s.freq.read k = t.freq.read k
  node : s.tv = true → ∀ k, k < s.nnodes.toNat → s.node.read k = t.node.read k
  code : s.cv = true → ∀ k, k < nSymMax → s.code.read k = t.code.read k
  src : ∀ k, k < s.srclen.toNat → s.src.read k = t.src.read k
  bits : ∀ k, k < s.bitlen.toNat → s.bits.read k = t.bits.read k
  dst : ∀ k, k < s.dstlen.toNat → s.dst.read k = t.dst.read k

/-- The failures, other than none, that a word with this opcode can end with (60_exceptions.md R216); an opcode that is in
no row of the map has ILLEGAL_CMD alone. -/
def mayEndWith (op : BitVec 8) : List Failure :=
  match op.toNat with
  | 0x21 => [.illegalCmd, .badIndex, .notReady]
  | 0x30 | 0x31 | 0x32 => [.illegalCmd, .notReady]
  | 0x41 | 0x45 => [.illegalCmd, .capacity]
  | 0x42 | 0x46 | 0x48 => [.illegalCmd, .badIndex]
  | 0x50 => [.illegalCmd, .notReady, .capacity, .unknownSymbol]
  | 0x51 => [.illegalCmd, .notReady, .capacity, .malformedContainer, .decodeUnderflow]
  | _ => [.illegalCmd]

/-- The keys of the frequency table in ascending value: the symbols with a non-zero entry (41_frequency_table.md R90). -/
def presentSymbols (freq : Memory Count) : List Byte := allSymbols.filter (fun s => freq.read s.toNat ≠ 0)

/-- Record j of NODE is an Internal record with child i. -/
def IsChildOf (node : Memory NodeRec) (i j : Nat) : Prop :=
  ∃ w l r, node.read j = .internal w l r ∧ (l.toNat = i ∨ r.toNat = i)

/-- Tree i is in the working collection when record k is created: it exists and is merged into no earlier record
(42_tree_builder.md R102). -/
def LiveAt (node : Memory NodeRec) (k i : Nat) : Prop := i < k ∧ ∀ j, j < k → ¬ IsChildOf node i j

/-- The selection order on node indices (42_tree_builder.md R103): by weight, on equal weight by index. -/
def KeyLt (node : Memory NodeRec) (i j : Nat) : Prop :=
  (node.read i).weight.toNat < (node.read j).weight.toNat ∨
    (node.read i).weight = (node.read j).weight ∧ i < j

/-- The record that a bit string leads to from record i: 0 descends left, 1 descends right; none below a leaf
(46_decoder.md R175). -/
def follow (node : Memory NodeRec) : Nat → List Bool → Option NodeRec
  | i, [] => some (node.read i)
  | i, b :: bs =>
    match node.read i with
    | .leaf _ _ => none
    | .internal _ l r => follow node (if b then r else l).toNat bs

/-- A bit string is the path from the root to a leaf of this symbol. -/
def IsPathTo (node : Memory NodeRec) (root : Nat) (sym : Byte) (p : List Bool) : Prop :=
  ∃ w, follow node root p = some (.leaf w sym)

/-- The bit sequence, in order (20_memory.md R40). -/
def State.bitSequence (s : State) : List Bool := s.bits.readBlock 0 s.bitlen.toNat

/-- The source bytes, in order (10_state.md R34). -/
def State.sourceBytes (s : State) : List Byte := s.src.readBlock 0 s.srclen.toNat

/-- The destination bytes, in order (10_state.md R36). -/
def State.destBytes (s : State) : List Byte := s.dst.readBlock 0 s.dstlen.toNat

/-- `frequencyTableOf(B)` (47_properties.md R190) as a content of FREQ. -/
def frequencyTableOf (bytes : List Byte) : Memory Count :=
  Memory.empty.writeBlock 0 (allSymbols.map fun s => BitVec.ofNat 32 (bytes.count s))

/-- The code table that BUILD and DERIVE make from a frequency table. -/
def codeTableOf (freq : Memory Count) : Option (Memory CodeEntry) :=
  deriveTable (Memory.empty.writeBlock 0 (buildTree freq).1) (buildTree freq).1.length (buildTree freq).2

/-- The encoded length of a byte list under its own table, in bits: the sum of its code lengths (45_encoder.md R160). -/
def encodedLength (bytes : List Byte) : Nat :=
  match codeTableOf (frequencyTableOf bytes) with
  | none => 0
  | some code => totalLength code bytes

/-- `FSET s, f(s)` for each key, in the order given (47_properties.md R191). -/
def loadTable (keys bytes : List Byte) : List Instr := keys.map fun s => .fset s (BitVec.ofNat 32 (bytes.count s))

/-- The commands of 47_properties.md R191 up to ENCODE. -/
def compressCommands (keys bytes : List Byte) : List Instr :=
  [.reset] ++ loadTable keys bytes ++ [.build, .derive] ++ bytes.map .sput ++ [.encode]

/-- `RDREG 7` and `BRD j` for j = 0 .. ceil8(L) - 1 (47_properties.md R191). -/
def unloadBits (len : Nat) : List Instr :=
  .rdreg 7 :: (List.range (ceil8 len)).map fun j => .brd (BitVec.ofNat 32 j)

/-- The load of L bits stored as packed bytes (44_buffers.md R152): `BAPP 8, byte(j)` for each full byte, and when
L mod 8 = r is not 0 a final `BAPP r, byte(last) >> (8 - r)`. -/
def loadBits (len : Nat) (bytes : List Byte) : List Instr :=
  (bytes.take (len / 8)).map (fun x => .bapp 8 (x.setWidth 32)) ++
    if len % 8 = 0 then []
    else [.bapp (BitVec.ofNat 8 (len % 8)) ((bytes.getD (len / 8) 0 >>> (8 - len % 8)).setWidth 32)]

/-- The commands of 47_properties.md R192 up to DECODE. -/
def decompressCommands (keys bytes : List Byte) (len : Nat) (packed : List Byte) : List Instr :=
  [.reset] ++ loadTable keys bytes ++ loadBits len packed ++ [.build, .decode]

/-- `RDREG 8` and `DRD i` for i = 0 .. N - 1 (47_properties.md R192). -/
def unloadBytes (n : Nat) : List Instr := .rdreg 8 :: (List.range n).map fun i => .drd (BitVec.ofNat 32 i)

end Sys2Proof.Machine
end

