-- ==== Sys2Proof/Certificates/Slice0/Obligations.lean ====
section
/-! DEFINITION. The statements for the provers. Each docstring names the rule of the spec it formalises. The results of
failures are written `s.failed f info`, which FailureEntryChangesOneErrorFlag pins down, and those of successes as the
state they lead to, every field that is not named being that of s. -/

open Sys2Proof Sys2Proof.Machine

/-! ### Command words and decoding -/

/-- 30_encoding.md R61 to R65: no bit of a command is lost in its word, for every command and every operand. -/
def Obligations.DecodeInvertsEncode : Prop :=
  ∀ i : Instr, i.wf = true → decode (encode i) = .ok i

/-- 30_encoding.md R61, R64: a command has one word. -/
def Obligations.EncodeInvertsDecode : Prop :=
  ∀ (w : Word64) (i : Instr), decode w = .ok i → i.wf = true ∧ encode i = w

/-- 30_encoding.md R62: "a word w selects the command when (w & mask) = match and the operand limits of rule R65 hold". -/
def Obligations.CommandsAreSelectedByMatchAndMask : Prop :=
  (∀ (w : Word64) (r : Row), r ∈ opcodeMap → w &&& r.mask = r.pattern →
    (r.command (aField w) (bField w) (dField w)).wf = true →
      decode w = .ok (r.command (aField w) (bField w) (dField w))) ∧
  (∀ (w : Word64) (i : Instr), decode w = .ok i →
    ∃ r ∈ opcodeMap, w &&& r.mask = r.pattern ∧ i = r.command (aField w) (bField w) (dField w) ∧ i.wf = true)

/-- 30_encoding.md R69: decoding is total, and the first failing step decides: unknown opcode, reserved field, operand
limit, each ILLEGAL_CMD; otherwise the command executes. The opcodes are written out from R62. -/
def Obligations.DecodingStepsComeInOrder : Prop :=
  (∀ (w : Word64) (s : State), (∀ e, decode w = .error e → submit w s = .next (s.failed .illegalCmd 0)) ∧
    ∀ i, decode w = .ok i → submit w s = exec i s) ∧
  ∀ w : Word64,
    (opField w ∉ ([0x00, 0x01, 0x02, 0x10, 0x11, 0x12, 0x20, 0x21, 0x30, 0x31, 0x32, 0x40, 0x41, 0x42, 0x44, 0x45, 0x46,
        0x48, 0x50, 0x51] : List (BitVec 8)) ∧ decode w = .error .unknownOpcode) ∨
    ∃ r ∈ opcodeMap, r.op = opField w ∧
      (((r.usesA = false ∧ aField w ≠ 0 ∨ r.usesB = false ∧ bField w ≠ 0 ∨ r.usesD = false ∧ dField w ≠ 0) ∧
          decode w = .error .reservedField) ∨
        ((r.usesA = false → aField w = 0) ∧ (r.usesB = false → bField w = 0) ∧ (r.usesD = false → dField w = 0) ∧
          ((opField w = 0x02 ∧ 11 < (aField w).toNat ∨ opField w = 0x45 ∧ 32 < (aField w).toNat ∨
              opField w = 0x32 ∧ 3 < (bField w).toNat) ∧ decode w = .error .operandLimit ∨
            ¬(opField w = 0x02 ∧ 11 < (aField w).toNat ∨ opField w = 0x45 ∧ 32 < (aField w).toNat ∨
              opField w = 0x32 ∧ 3 < (bField w).toNat) ∧
            decode w = .ok (r.command (aField w) (bField w) (dField w)))))

/-- 60_exceptions.md R211, 30_encoding.md R64, R67: a word that is no well-formed command raises ILLEGAL_CMD, which changes
no state but bit 1 of ERRFLAGS; a well-formed command never raises it. -/
def Obligations.IllegalWordsRaiseIllegalCmd : Prop :=
  (∀ (s : State) (w : Word64), (∀ i : Instr, i.wf = true → encode i ≠ w) →
    submit w s = .next { s with errflags := s.errflags ||| 0x02, rsp := some ⟨.failed .illegalCmd, 0⟩ }) ∧
  (∀ (s : State) (w : Word64), opField w ∉ ([0x00, 0x01, 0x02, 0x10, 0x11, 0x12, 0x20, 0x21, 0x30, 0x31, 0x32, 0x40, 0x41,
      0x42, 0x44, 0x45, 0x46, 0x48, 0x50, 0x51] : List (BitVec 8)) →
    submit w s = .next { s with errflags := s.errflags ||| 0x02, rsp := some ⟨.failed .illegalCmd, 0⟩ }) ∧
  (∀ (s : State) (w : Word64) (r : Row), r ∈ opcodeMap → r.op = opField w →
    (r.usesA = false ∧ aField w ≠ 0 ∨ r.usesB = false ∧ bField w ≠ 0 ∨ r.usesD = false ∧ dField w ≠ 0) →
    submit w s = .next { s with errflags := s.errflags ||| 0x02, rsp := some ⟨.failed .illegalCmd, 0⟩ }) ∧
  (∀ (s : State) (x : BitVec 8) (y : BitVec 16) (v : BitVec 32),
    (11 < x.toNat → submit (commandWord 0x02 x 0 0) s = .next (s.failed .illegalCmd 0)) ∧
    (32 < x.toNat → submit (commandWord 0x45 x 0 v) s = .next (s.failed .illegalCmd 0)) ∧
    (3 < y.toNat → submit (commandWord 0x32 x y 0) s = .next (s.failed .illegalCmd 0))) ∧
  (∀ (s t : State) (i : Instr) (info : Word64), i.wf = true → submit (encode i) s = .next t →
    t.rsp ≠ some ⟨.failed .illegalCmd, info⟩)

/-- 30_encoding.md R62, R70, 44_buffers.md R146, 42_tree_builder.md R110: words the spec writes out. -/
def Obligations.WordsWrittenOutInTheSpecDecode : Prop :=
  decode 0x1141000000000003 = .ok (.fset 0x41 3) ∧ decode 0x2100000300000000 = .ok (.nrd 3) ∧
  decode 0x450500000000001A = .ok (.bapp 5 0x1A) ∧ decode 0x3201000100000000 = .ok (.cval 0x01 1) ∧
  decode 0x020B000000000000 = .ok (.rdreg 11) ∧ decode 0x5100000000000000 = .ok .decode ∧
  decode 0x2000000000000001 = .error .reservedField ∧ decode 0x020C000000000000 = .error .operandLimit ∧
  decode 0x4300000000000000 = .error .unknownOpcode

/-! ### The step, failures, reset -/

/-- 30_encoding.md R60, R69: the step takes the next word of the host and executes the command it decodes to. -/
def Obligations.StepRunsTheDecodedCommand : Prop :=
  ∀ (s : State) (w : Word64) (rest : List HostInput) (i : Instr), s.inputs = .command w :: rest → decode w = .ok i →
    step s = exec i { s with inputs := rest }

/-- 60_exceptions.md R227 (the model's reading, log 2): with no command presented the block is idle and holds its state. -/
def Obligations.StepIdlesWithoutInput : Prop :=
  ∀ s : State, s.inputs = [] → step s = .next s

/-- 70_reset_and_hazards.md R240: hardware reset, and the RESET command but for its response, put the block in the state of
10_state.md R38; after hardware reset no response is pending. -/
def Obligations.HardwareResetAndResetCommandGiveTheResetState : Prop :=
  (∀ (s : State) (rest : List HostInput), s.inputs = .hardReset :: rest →
    ∃ t, step s = .next t ∧ t.rsp = none ∧
      t.SameObservable { State.resetWith s.cfg with inputs := rest }) ∧
  (∀ s : State, ∃ t, exec .reset s = .next t ∧
    t.SameObservable { State.resetWith s.cfg with inputs := s.inputs, rsp := some ⟨.ok, 0⟩ })

/-- 60_exceptions.md R219: a failure answers (k, info), sets bit k of ERRFLAGS and changes nothing else; info (R210) is 0
but for the two statuses that carry information: the first source byte without a code and its index, and the number of
whole symbols before the unfinished descent. -/
def Obligations.FailureEntryChangesOneErrorFlag : Prop :=
  ∀ (s t : State) (w : Word64) (f : Failure) (info : Word64), submit w s = .next t → t.rsp = some ⟨.failed f, info⟩ →
    t = { s with errflags := s.errflags ||| (1#8 <<< f.code.toNat), rsp := some ⟨.failed f, info⟩ } ∧
    (f ≠ .decodeUnderflow → f ≠ .unknownSymbol → info = 0) ∧
    (f = .unknownSymbol → ∃ k, k < s.srclen.toNat ∧ (s.code.read (s.src.read k).toNat).len = 0 ∧
      (∀ j, j < k → (s.code.read (s.src.read j).toNat).len ≠ 0) ∧
      info.toNat = (s.src.read k).toNat * 2 ^ 32 + k) ∧
    (f = .decodeUnderflow → ∃ (ps : List (Byte × List Bool)) (q : List Bool),
      s.bitSequence = (ps.map (·.2)).flatten ++ q ∧ (∀ p ∈ ps, IsPathTo s.node s.root.toNat p.1 p.2) ∧
      q ≠ [] ∧ (∃ w l r, follow s.node s.root.toNat q = some (.internal w l r)) ∧ info.toNat = ps.length)

/-- 60_exceptions.md R210: the numeric codes; no other code exists. -/
def Obligations.StatusCodesAreThoseOfTheTable : Prop :=
  Status.code .ok = 0x00 ∧ Status.code (.failed .illegalCmd) = 0x01 ∧ Status.code (.failed .badIndex) = 0x02 ∧
  Status.code (.failed .notReady) = 0x03 ∧ Status.code (.failed .capacity) = 0x04 ∧
  Status.code (.failed .malformedContainer) = 0x05 ∧ Status.code (.failed .decodeUnderflow) = 0x06 ∧
  Status.code (.failed .unknownSymbol) = 0x07 ∧ ∀ st : Status, st.code.toNat ≤ 7

/-- 60_exceptions.md R216: which command can end with which status, every cell of the table: no word ends with a failure
that the table does not mark for its opcode, and each marked one occurs in some state that has the invariant. -/
def Obligations.StatusTableIsExact : Prop :=
  (∀ (s t : State) (w : Word64) (f : Failure) (info : Word64), submit w s = .next t → t.rsp = some ⟨.failed f, info⟩ →
    f ∈ mayEndWith (opField w)) ∧
  (∀ (op : BitVec 8) (f : Failure), f ∈ mayEndWith op →
    ∃ (s t : State) (w : Word64) (info : Word64),
      s.Inv ∧ opField w = op ∧ submit w s = .next t ∧ t.rsp = some ⟨.failed f, info⟩)

/-- 10_state.md R15: a failure sets its bit, no word but RESET clears a bit, hardware reset clears all, bit 0 stays 0, and no command's behaviour
depends on ERRFLAGS but RDREG 2, which reads it. -/
def Obligations.ErrorFlagsAreSticky : Prop :=
  (∀ (s t : State) (w : Word64), submit w s = .next t → decode w ≠ .ok .reset →
    t.errflags = s.errflags ||| match t.rsp with
      | some ⟨.failed f, _⟩ => 1#8 <<< f.code.toNat
      | _ => 0) ∧
  (∀ (s t : State), exec .reset s = .next t → t.errflags = 0) ∧
  (∀ (s t : State) (rest : List HostInput), s.inputs = .hardReset :: rest → step s = .next t → t.errflags = 0) ∧
  (∀ (s t : State), step s = .next t → s.errflags.getLsbD 0 = false → t.errflags.getLsbD 0 = false) ∧
  (∀ (s t : State) (i : Instr) (e : BitVec 8), exec i s = .next t → i ≠ .rdreg 2 →
    ∃ u, exec i { s with errflags := e } = .next u ∧ u = { t with errflags := u.errflags }) ∧
  (∀ s : State, exec (.rdreg 2) s = .next { s with rsp := some ⟨.ok, s.errflags.setWidth 64⟩ })

/-- 60_exceptions.md R220: the same command in the state after its failure fails the same way. -/
def Obligations.RetryingAFailedCommandFailsAgain : Prop :=
  ∀ (s t : State) (i : Instr) (f : Failure) (info : Word64), exec i s = .next t → t.rsp = some ⟨.failed f, info⟩ →
    exec i t = .next t

/-- 20_memory.md R47: the read commands change no state when they return OK and are idempotent, also when they raise;
DECODE is repeatable. -/
def Obligations.ReadCommandsAreIdempotent : Prop :=
  (∀ (s t : State) (i : Instr),
    (∃ r, i = .rdreg r) ∨ (∃ x, i = .fget x) ∨ (∃ k, i = .nrd k) ∨ (∃ x, i = .clen x) ∨ (∃ x q, i = .cval x q) ∨
      (∃ k, i = .sget k) ∨ (∃ j, i = .brd j) ∨ (∃ k, i = .drd k) →
    exec i s = .next t →
    (∀ d, t.rsp = some ⟨.ok, d⟩ → t = { s with rsp := some ⟨.ok, d⟩ }) ∧ exec i t = .next t) ∧
  (∀ s t : State, exec .decode s = .next t → exec .decode t = .next t)

/-- 10_state.md R30 (column "written by"), R16 to R20, R21: which commands write which memory and register; the
configuration and the host's inputs are written by none. That RESET keeps the contents of NODE, CODE, SRC, BITS and DST,
which the spec leaves unspecified after it (R38), is the model's choice (DESIGN CHOICE, log 6). -/
def Obligations.StateIsWrittenOnlyByTheStatedCommands : Prop :=
  ∀ (s t : State) (i : Instr), exec i s = .next t →
    ((∀ x c, i ≠ .fset x c) → i ≠ .fclr → i ≠ .reset → t.freq = s.freq) ∧
    (i ≠ .build → t.node = s.node) ∧
    (i ≠ .derive → t.code = s.code) ∧
    ((∀ x, i ≠ .sput x) → t.src = s.src) ∧
    ((∀ n v, i ≠ .bapp n v) → i ≠ .encode → t.bits = s.bits) ∧
    (i ≠ .decode → t.dst = s.dst) ∧
    (i ≠ .build → i ≠ .reset → t.nnodes = s.nnodes ∧ t.root = s.root) ∧
    ((∀ x, i ≠ .sput x) → i ≠ .sclr → i ≠ .reset → t.srclen = s.srclen) ∧
    ((∀ n v, i ≠ .bapp n v) → i ≠ .bclr → i ≠ .encode → i ≠ .reset → t.bitlen = s.bitlen) ∧
    (i ≠ .decode → i ≠ .reset → t.dstlen = s.dstlen) ∧
    t.cfg = s.cfg ∧ t.inputs = s.inputs

/-- 10_state.md R13, R14, 70_reset_and_hazards.md R243, R244: TV is set by BUILD and cleared by FSET, FCLR and RESET; CV is
set by a DERIVE that returns OK and cleared by FSET, FCLR, RESET and BUILD; no other command writes them. -/
def Obligations.ValidityFlagsAreWrittenOnlyAsStated : Prop :=
  ∀ (s t : State) (i : Instr), exec i s = .next t →
    t.tv = (match i with
      | .build => true
      | .fset _ _ | .fclr | .reset => false
      | _ => s.tv) ∧
    t.cv = (match i with
      | .derive => s.cv || s.tv
      | .build | .fset _ _ | .fclr | .reset => false
      | _ => s.cv)

/-- 60_exceptions.md R212: NOT_READY is raised by DERIVE, NRD, DECODE with TV = 0, by CLEN, CVAL with CV = 0 and by ENCODE
with SRCLEN ≥ 2 and CV = 0, and by nothing else. -/
def Obligations.NotReadyExactlyWithoutTreeOrCodes : Prop :=
  ∀ (s : State) (i : Instr), i.wf = true →
    (exec i s = .next (s.failed .notReady 0) ↔
      (s.tv = false ∧ (i = .derive ∨ (∃ k, i = .nrd k) ∨ i = .decode)) ∨
      (s.cv = false ∧ ((∃ x, i = .clen x) ∨ (∃ x q, i = .cval x q) ∨ (i = .encode ∧ 2 ≤ s.srclen.toNat))))

/-- 60_exceptions.md R213 (with the priority of R218, NOT_READY before BAD_INDEX): BAD_INDEX is raised by NRD, SGET, BRD and
DRD with an index out of range, and by nothing else. -/
def Obligations.BadIndexExactlyOutOfRange : Prop :=
  ∀ (s : State) (i : Instr), i.wf = true →
    (exec i s = .next (s.failed .badIndex 0) ↔
      (∃ k : BitVec 16, i = .nrd k ∧ s.tv = true ∧ s.nnodes.toNat ≤ k.toNat) ∨
      (∃ k : Length, i = .sget k ∧ s.srclen.toNat ≤ k.toNat) ∨
      (∃ j : Length, i = .brd j ∧ (s.bitlen.toNat + 7) / 8 ≤ j.toNat) ∨
      (∃ k : Length, i = .drd k ∧ s.dstlen.toNat ≤ k.toNat))

/-! ### System commands -/

/-- 40_system_commands.md R80. -/
def Obligations.NopOnlyResponds : Prop :=
  decode 0x0000000000000000 = .ok .nop ∧
  (∀ s : State, exec .nop s = .next { s with rsp := some ⟨.ok, 0⟩ }) ∧
  (∀ (s : State) (a : BitVec 8) (b : BitVec 16) (d : BitVec 32), a ≠ 0 ∨ b ≠ 0 ∨ d ≠ 0 →
    submit (commandWord 0x00 a b d) s = .next (s.failed .illegalCmd 0))

/-- 40_system_commands.md R81. That the contents of NODE, CODE, SRC, BITS and DST, unspecified after RESET (10_state.md
R38), are as before is the model's choice (DESIGN CHOICE, log 6). -/
def Obligations.ResetCommandClearsRegistersFlagsAndTable : Prop :=
  decode 0x0100000000000000 = .ok .reset ∧
  (∀ s : State, ∃ t, exec .reset s = .next t ∧
    t = { s with
      tv := false, cv := false, errflags := 0, nnodes := 0, root := 0, srclen := 0, bitlen := 0, dstlen := 0,
      freq := t.freq, rsp := some ⟨.ok, 0⟩ } ∧
    ∀ x : Byte, t.freq.read x.toNat = 0) ∧
  (∀ (s : State) (a : BitVec 8) (b : BitVec 16) (d : BitVec 32), a ≠ 0 ∨ b ≠ 0 ∨ d ≠ 0 →
    submit (commandWord 0x01 a b d) s = .next (s.failed .illegalCmd 0))

/-- 40_system_commands.md R82 with the register file of 10_state.md R24, R25, R26. -/
def Obligations.RdregReadsTheStatusRegisters : Prop :=
  (∀ r : BitVec 8, r.toNat ≤ 11 → decode (commandWord 0x02 r 0 0) = .ok (.rdreg r)) ∧
  (∀ s : State,
    exec (.rdreg 0) s = .next { s with rsp := some ⟨.ok, 0x4A4D5A4800000001⟩ } ∧
    (∃ v : Word64, exec (.rdreg 1) s = .next { s with rsp := some ⟨.ok, v⟩ } ∧
      v.getLsbD 0 = s.tv ∧ v.getLsbD 1 = s.cv ∧ ∀ k, 2 ≤ k → v.getLsbD k = false) ∧
    exec (.rdreg 2) s = .next { s with rsp := some ⟨.ok, s.errflags.setWidth 64⟩ } ∧
    (∃ v : Word64, exec (.rdreg 3) s = .next { s with rsp := some ⟨.ok, v⟩ } ∧
      v.toNat = if s.tv then (s.nnodes.toNat + 1) / 2 else 0) ∧
    (∃ v : Word64, exec (.rdreg 4) s = .next { s with rsp := some ⟨.ok, v⟩ } ∧
      v.toNat = if s.tv then s.nnodes.toNat else 0) ∧
    (∃ v : Word64, exec (.rdreg 5) s = .next { s with rsp := some ⟨.ok, v⟩ } ∧
      v.toNat = if s.tv then s.root.toNat else 0) ∧
    exec (.rdreg 6) s = .next { s with rsp := some ⟨.ok, s.srclen.setWidth 64⟩ } ∧
    exec (.rdreg 7) s = .next { s with rsp := some ⟨.ok, s.bitlen.setWidth 64⟩ } ∧
    exec (.rdreg 8) s = .next { s with rsp := some ⟨.ok, s.dstlen.setWidth 64⟩ } ∧
    exec (.rdreg 9) s = .next { s with rsp := some ⟨.ok, s.cfg.srccap.setWidth 64⟩ } ∧
    exec (.rdreg 10) s = .next { s with rsp := some ⟨.ok, s.cfg.bitcap.setWidth 64⟩ } ∧
    exec (.rdreg 11) s = .next { s with rsp := some ⟨.ok, s.cfg.dstcap.setWidth 64⟩ } ∧
    (∀ r : BitVec 8, 11 < r.toNat → exec (.rdreg r) s = .next (s.failed .illegalCmd 0))) ∧
  (∀ (s : State) (a : BitVec 8) (b : BitVec 16) (d : BitVec 32), 11 < a.toNat ∨ b ≠ 0 ∨ d ≠ 0 →
    submit (commandWord 0x02 a b d) s = .next (s.failed .illegalCmd 0))

/-! ### Frequency table commands -/

/-- 41_frequency_table.md R91. -/
def Obligations.FclrEmptiesTheTable : Prop :=
  decode 0x1000000000000000 = .ok .fclr ∧
  (∀ s : State, ∃ t, exec .fclr s = .next t ∧
    t = { s with tv := false, cv := false, freq := t.freq, rsp := some ⟨.ok, 0⟩ } ∧
    ∀ x : Byte, t.freq.read x.toNat = 0) ∧
  (∀ (s : State) (a : BitVec 8) (b : BitVec 16) (d : BitVec 32), a ≠ 0 ∨ b ≠ 0 ∨ d ≠ 0 →
    submit (commandWord 0x10 a b d) s = .next (s.failed .illegalCmd 0))

/-- 41_frequency_table.md R92: one entry set, TV and CV cleared always; the order of two FSETs of distinct symbols does not
matter, and of two of one symbol the last counts (log 5 for the equality of whole states: FREQ is canonical in Inv). -/
def Obligations.FsetSetsOneCount : Prop :=
  (∀ (x : Byte) (c : Count), decode (commandWord 0x11 x 0 c) = .ok (.fset x c)) ∧
  (∀ (s : State) (x : Byte) (c : Count), ∃ t, exec (.fset x c) s = .next t ∧
    t = { s with tv := false, cv := false, freq := t.freq, rsp := some ⟨.ok, 0⟩ } ∧
    ∀ k, t.freq.read k = if k = x.toNat then c else s.freq.read k) ∧
  (∀ (s t u t' u' : State) (x y : Byte) (c c' : Count), s.Inv → x ≠ y →
    exec (.fset x c) s = .next t → exec (.fset y c') t = .next u →
    exec (.fset y c') s = .next t' → exec (.fset x c) t' = .next u' → u = u') ∧
  (∀ (s t u t' : State) (x : Byte) (c c' : Count), s.Inv →
    exec (.fset x c) s = .next t → exec (.fset x c') t = .next u → exec (.fset x c') s = .next t' → u = t') ∧
  (∀ (s : State) (a : BitVec 8) (b : BitVec 16) (d : BitVec 32), b ≠ 0 →
    submit (commandWord 0x11 a b d) s = .next (s.failed .illegalCmd 0))

/-- 41_frequency_table.md R93. -/
def Obligations.FgetReadsOneCount : Prop :=
  (∀ x : Byte, decode (commandWord 0x12 x 0 0) = .ok (.fget x)) ∧
  (∀ (s : State) (x : Byte),
    exec (.fget x) s = .next { s with rsp := some ⟨.ok, (s.freq.read x.toNat).setWidth 64⟩ }) ∧
  (∀ (s : State) (a : BitVec 8) (b : BitVec 16) (d : BitVec 32), b ≠ 0 ∨ d ≠ 0 →
    submit (commandWord 0x12 a b d) s = .next (s.failed .illegalCmd 0))

/-! ### Tree builder commands -/

/-- 42_tree_builder.md R100, R105, 10_state.md R13, R14, R16, R17: BUILD always completes; TV is set, CV cleared, NNODES is
2n - 1 (0 for the empty table) and ROOT the last record; everything else is as before. That the records at and past
NNODES, which R37 leaves unspecified, are as before too is the model's choice (DESIGN CHOICE, log 6). -/
def Obligations.BuildCompletesWithItsCounts : Prop :=
  decode 0x2000000000000000 = .ok .build ∧
  (∀ s : State, ∃ t, exec .build s = .next t ∧
    t = { s with
      node := t.node, nnodes := t.nnodes, root := t.root, tv := true, cv := false,
      rsp := some ⟨.ok, t.nnodes.setWidth 64⟩ } ∧
    t.nnodes.toNat = 2 * (presentSymbols s.freq).length - 1 ∧ t.root.toNat = t.nnodes.toNat - 1 ∧
    ∀ k, t.nnodes.toNat ≤ k → t.node.read k = s.node.read k) ∧
  (∀ (s : State) (a : BitVec 8) (b : BitVec 16) (d : BitVec 32), a ≠ 0 ∨ b ≠ 0 ∨ d ≠ 0 →
    submit (commandWord 0x20 a b d) s = .next (s.failed .illegalCmd 0))

/-- 42_tree_builder.md R101, R104: leaf i is the (i+1)-th smallest symbol present, with its count as weight. -/
def Obligations.BuildSeedsLeavesInAscendingSymbolValue : Prop :=
  ∀ s : State, ∃ t, exec .build s = .next t ∧
    ∀ (i : Nat) (sym : Byte), (presentSymbols s.freq)[i]? = some sym →
      t.node.read i = .leaf ((s.freq.read sym.toNat).setWidth 40) sym

/-- 42_tree_builder.md R102, R103: n leaves give n - 1 merges, the last record is the root, and each Internal record merges the two trees of the working collection with the smallest
keys, first-selected left, and its weight is the exact sum of theirs (00_scope.md R5: no sum overflows). -/
def Obligations.BuildMergesTheTwoLeastTrees : Prop :=
  ∀ s : State, presentSymbols s.freq ≠ [] → ∃ t, exec .build s = .next t ∧
    t.nnodes.toNat = 2 * (presentSymbols s.freq).length - 1 ∧ t.root.toNat = t.nnodes.toNat - 1 ∧
    ∀ k, (presentSymbols s.freq).length ≤ k → k < t.nnodes.toNat →
      ∃ (w : Weight) (l r : NodeIndex), t.node.read k = .internal w l r ∧
        w.toNat = (t.node.read l.toNat).weight.toNat + (t.node.read r.toNat).weight.toNat ∧
        LiveAt t.node k l.toNat ∧ (∀ i, LiveAt t.node k i → i ≠ l.toNat → KeyLt t.node l.toNat i) ∧
        LiveAt t.node k r.toNat ∧ r ≠ l ∧
        (∀ i, LiveAt t.node k i → i ≠ l.toNat → i ≠ r.toNat → KeyLt t.node r.toNat i)

/-- 10_state.md R39, 47_properties.md R195: the invariants of a valid tree, whenever TV = 1. -/
def Obligations.ValidTreesAreStrictlyBinaryAndWeighted : Prop :=
  ∀ s : State, s.Inv → s.tv = true →
    let n := (s.nnodes.toNat + 1) / 2
    ((s.nnodes.toNat = 0 ∧ (∀ x : Byte, s.freq.read x.toNat = 0)) ∨
      (s.nnodes.toNat = 2 * n - 1 ∧ 1 ≤ n ∧ n ≤ 256 ∧ (presentSymbols s.freq).length = n)) ∧
    (∀ i, i < n → ∃ sym, (presentSymbols s.freq)[i]? = some sym ∧
      s.node.read i = .leaf ((s.freq.read sym.toNat).setWidth 40) sym) ∧
    (∀ i, n ≤ i → i < s.nnodes.toNat → ∃ w l r, s.node.read i = .internal w l r ∧ l.toNat < i ∧ r.toNat < i ∧ l ≠ r ∧
      w.toNat = (s.node.read l.toNat).weight.toNat + (s.node.read r.toNat).weight.toNat) ∧
    (∀ i, i + 1 < s.nnodes.toNat → ∃! j, j < s.nnodes.toNat ∧ IsChildOf s.node i j) ∧
    (∀ j, j < s.nnodes.toNat → ¬ IsChildOf s.node (s.nnodes.toNat - 1) j) ∧
    s.root.toNat = s.nnodes.toNat - 1 ∧
    (1 ≤ s.nnodes.toNat → (s.node.read s.root.toNat).weight.toNat =
      (allSymbols.map fun x => (s.freq.read x.toNat).toNat).sum) ∧
    (∀ i, i < s.nnodes.toNat → 1 ≤ (s.node.read i).weight.toNat)

/-- 42_tree_builder.md R106, 47_properties.md R196: the tree is a function of the contents of FREQ alone, the code table a
function of the tree. -/
def Obligations.BuildAndDeriveAreDeterministic : Prop :=
  (∀ s s' : State, (∀ x : Byte, s.freq.read x.toNat = s'.freq.read x.toNat) →
    ∃ t t', exec .build s = .next t ∧ exec .build s' = .next t' ∧ t.nnodes = t'.nnodes ∧ t.root = t'.root ∧
      ∀ k, k < t.nnodes.toNat → t.node.read k = t'.node.read k) ∧
  (∀ s s' t : State, s.Inv → s'.Inv → s.tv = true → s'.tv = true → s.nnodes = s'.nnodes → s.root = s'.root →
    (∀ k, k < s.nnodes.toNat → s.node.read k = s'.node.read k) → exec .derive s = .next t →
    ∃ t', exec .derive s' = .next t' ∧ t.code = t'.code ∧ t.rsp = t'.rsp)

/-- 42_tree_builder.md R110 with the image of 10_state.md R32. -/
def Obligations.NrdReturnsTheImageOfARecord : Prop :=
  (∀ k : BitVec 16, decode (commandWord 0x21 0 k 0) = .ok (.nrd k)) ∧
  (∀ (s : State) (k : BitVec 16),
    (s.tv = false → exec (.nrd k) s = .next (s.failed .notReady 0)) ∧
    (s.tv = true → s.nnodes.toNat ≤ k.toNat → exec (.nrd k) s = .next (s.failed .badIndex 0)) ∧
    (s.tv = true → k.toNat < s.nnodes.toNat →
      ∃ v : Word64, exec (.nrd k) s = .next { s with rsp := some ⟨.ok, v⟩ } ∧
        match s.node.read k.toNat with
        | .leaf w sym => v.toNat = 2 ^ 63 + w.toNat * 2 ^ 18 + sym.toNat
        | .internal w l r => v.toNat = w.toNat * 2 ^ 18 + l.toNat * 2 ^ 9 + r.toNat)) ∧
  (∀ (s : State) (a : BitVec 8) (b : BitVec 16) (d : BitVec 32), a ≠ 0 ∨ d ≠ 0 →
    submit (commandWord 0x21 a b d) s = .next (s.failed .illegalCmd 0))

/-! ### Code-table derivator commands -/

/-- 43_code_table.md R120, R122, R123: DERIVE raises NOT_READY while TV = 0; otherwise, in every state the machine reaches,
it completes, writes CODE and CV alone, answers the number of leaves, gives a single leaf the code "0" and the empty tree
no code. -/
def Obligations.DeriveCompletesAndCountsTheCodes : Prop :=
  decode 0x3000000000000000 = .ok .derive ∧
  (∀ s : State, s.tv = false → exec .derive s = .next (s.failed .notReady 0)) ∧
  (∀ s : State, s.Inv → s.tv = true → ∃ (t : State) (d : Word64), exec .derive s = .next t ∧
    t = { s with code := t.code, cv := true, rsp := some ⟨.ok, d⟩ } ∧
    d.toNat = (presentSymbols s.freq).length ∧
    (s.nnodes = 0 → ∀ x : Byte, t.code.read x.toNat = ⟨0, 0⟩) ∧
    (∀ w sym, s.nnodes ≠ 0 → s.node.read s.root.toNat = .leaf w sym →
      ∀ x : Byte, t.code.read x.toNat = if x = sym then ⟨1, 0⟩ else ⟨0, 0⟩)) ∧
  (∀ (s : State) (a : BitVec 8) (b : BitVec 16) (d : BitVec 32), a ≠ 0 ∨ b ≠ 0 ∨ d ≠ 0 →
    submit (commandWord 0x30 a b d) s = .next (s.failed .illegalCmd 0))

/-- 43_code_table.md R121, R124 (a), (b), (d), with the representation of 10_state.md R33: with two or more leaves the code
of each symbol present is its leaf's path from the root, of a length between 1 and 255; every other symbol has none; bits
at and above the length are 0. -/
def Obligations.DerivedCodesAreRootToLeafPaths : Prop :=
  ∀ s : State, s.Inv → s.tv = true → 2 ≤ (presentSymbols s.freq).length →
    ∃ t, exec .derive s = .next t ∧
      (∀ x ∈ presentSymbols s.freq, ∃ p : List Bool, IsPathTo s.node s.root.toNat x p ∧
        1 ≤ p.length ∧ p.length ≤ 255 ∧ (t.code.read x.toNat).len.toNat = p.length ∧
        ∀ k, (t.code.read x.toNat).val.getLsbD k = if k < p.length then p.getD (p.length - 1 - k) false else false) ∧
      (∀ x : Byte, x ∉ presentSymbols s.freq → t.code.read x.toNat = ⟨0, 0⟩)

/-- 47_properties.md R194: whenever CV = 1, exactly the symbols present have a code, every code is non-empty, no code is a
prefix of another, and the only code of a one-symbol table is "0". -/
def Obligations.CodeTablesArePrefixFree : Prop :=
  ∀ s : State, s.Inv → s.cv = true →
    (∀ x : Byte, s.freq.read x.toNat ≠ 0 → 1 ≤ (s.code.read x.toNat).len.toNat) ∧
    (∀ x : Byte, s.freq.read x.toNat = 0 → (s.code.read x.toNat).len = 0) ∧
    (∀ x y : Byte, x ≠ y → s.freq.read x.toNat ≠ 0 → s.freq.read y.toNat ≠ 0 →
      (s.code.read x.toNat).len.toNat ≤ (s.code.read y.toNat).len.toNat →
      (s.code.read y.toNat).val >>> ((s.code.read y.toNat).len.toNat - (s.code.read x.toNat).len.toNat) ≠
        (s.code.read x.toNat).val) ∧
    (∀ x : Byte, presentSymbols s.freq = [x] → s.code.read x.toNat = ⟨1, 0⟩)

/-- 43_code_table.md R124 (c): with two or more leaves the Kraft sum is exactly 1, written over 2^255. -/
def Obligations.KraftSumOfACodeTableIsOne : Prop :=
  ∀ s : State, s.Inv → s.cv = true → 2 ≤ (presentSymbols s.freq).length →
    ((presentSymbols s.freq).map fun x => 2 ^ (255 - (s.code.read x.toNat).len.toNat)).sum = 2 ^ 255

/-- 43_code_table.md R125, R126: length and slices of a code. -/
def Obligations.ClenAndCvalReadTheCodeTable : Prop :=
  (∀ x : Byte, decode (commandWord 0x31 x 0 0) = .ok (.clen x)) ∧
  (∀ (x : Byte) (q : BitVec 16), q.toNat ≤ 3 → decode (commandWord 0x32 x q 0) = .ok (.cval x q)) ∧
  (∀ (s : State) (x : Byte) (q : BitVec 16),
    (s.cv = false → exec (.clen x) s = .next (s.failed .notReady 0)) ∧
    (s.cv = true → exec (.clen x) s = .next { s with rsp := some ⟨.ok, (s.code.read x.toNat).len.setWidth 64⟩ }) ∧
    (3 < q.toNat → exec (.cval x q) s = .next (s.failed .illegalCmd 0)) ∧
    (q.toNat ≤ 3 → s.cv = false → exec (.cval x q) s = .next (s.failed .notReady 0)) ∧
    (q.toNat ≤ 3 → s.cv = true →
      ∃ v : Word64, exec (.cval x q) s = .next { s with rsp := some ⟨.ok, v⟩ } ∧
        ∀ k, k < 64 → v.getLsbD k = (s.code.read x.toNat).val.getLsbD (64 * q.toNat + k))) ∧
  (∀ (s : State) (a : BitVec 8) (b : BitVec 16) (d : BitVec 32),
    (b ≠ 0 ∨ d ≠ 0 → submit (commandWord 0x31 a b d) s = .next (s.failed .illegalCmd 0)) ∧
    (3 < b.toNat ∨ d ≠ 0 → submit (commandWord 0x32 a b d) s = .next (s.failed .illegalCmd 0)))

/-! ### Buffer commands -/

/-- 44_buffers.md R140, R145. That the bytes of SRC and the bits of BITS, then unobservable, are as before is the model's
choice (DESIGN CHOICE, log 6). -/
def Obligations.SclrAndBclrEmptyTheirBuffers : Prop :=
  decode 0x4000000000000000 = .ok .sclr ∧ decode 0x4400000000000000 = .ok .bclr ∧
  (∀ s : State, exec .sclr s = .next { s with srclen := 0, rsp := some ⟨.ok, 0⟩ } ∧
    exec .bclr s = .next { s with bitlen := 0, rsp := some ⟨.ok, 0⟩ }) ∧
  (∀ (s : State) (a : BitVec 8) (b : BitVec 16) (d : BitVec 32), a ≠ 0 ∨ b ≠ 0 ∨ d ≠ 0 →
    submit (commandWord 0x40 a b d) s = .next (s.failed .illegalCmd 0) ∧
    submit (commandWord 0x44 a b d) s = .next (s.failed .illegalCmd 0))

/-- 44_buffers.md R141. That the bytes of SRC past the new SRCLEN, which 10_state.md R37 leaves unspecified, are as before
is the model's choice (DESIGN CHOICE, log 6). -/
def Obligations.SputAppendsAByte : Prop :=
  (∀ x : Byte, decode (commandWord 0x41 x 0 0) = .ok (.sput x)) ∧
  (∀ (s : State) (x : Byte), s.srclen = s.cfg.srccap → exec (.sput x) s = .next (s.failed .capacity 0)) ∧
  (∀ (s : State) (x : Byte), s.srclen.toNat < s.cfg.srccap.toNat → ∃ t, exec (.sput x) s = .next t ∧
    t = { s with src := t.src, srclen := t.srclen, rsp := some ⟨.ok, t.srclen.setWidth 64⟩ } ∧
    t.srclen.toNat = s.srclen.toNat + 1 ∧
    ∀ k, t.src.read k = if k = s.srclen.toNat then x else s.src.read k) ∧
  (∀ (s : State) (a : BitVec 8) (b : BitVec 16) (d : BitVec 32), b ≠ 0 ∨ d ≠ 0 →
    submit (commandWord 0x41 a b d) s = .next (s.failed .illegalCmd 0))

/-- 44_buffers.md R142 ("if i >= SRCLEN: raise BAD_INDEX", "return OK(zext_64(SRC[i]))") and R150 ("if i >= DSTLEN: raise
BAD_INDEX", "return OK(zext_64(DST[i]))"): the byte reads. -/
def Obligations.SgetAndDrdReadOneByte : Prop :=
  (∀ k : Length, decode (commandWord 0x42 0 0 k) = .ok (.sget k) ∧ decode (commandWord 0x48 0 0 k) = .ok (.drd k)) ∧
  (∀ (s : State) (k : Length),
    (s.srclen.toNat ≤ k.toNat → exec (.sget k) s = .next (s.failed .badIndex 0)) ∧
    (k.toNat < s.srclen.toNat →
      exec (.sget k) s = .next { s with rsp := some ⟨.ok, (s.src.read k.toNat).setWidth 64⟩ }) ∧
    (s.dstlen.toNat ≤ k.toNat → exec (.drd k) s = .next (s.failed .badIndex 0)) ∧
    (k.toNat < s.dstlen.toNat →
      exec (.drd k) s = .next { s with rsp := some ⟨.ok, (s.dst.read k.toNat).setWidth 64⟩ })) ∧
  (∀ (s : State) (a : BitVec 8) (b : BitVec 16) (d : BitVec 32), a ≠ 0 ∨ b ≠ 0 →
    submit (commandWord 0x42 a b d) s = .next (s.failed .illegalCmd 0) ∧
    submit (commandWord 0x48 a b d) s = .next (s.failed .illegalCmd 0))

/-- 44_buffers.md R146: n bits appended, most significant first, or nothing at all. That the bits at and past BITLEN + n,
which 10_state.md R37 leaves unspecified, are as before is the model's choice (DESIGN CHOICE, log 6). -/
def Obligations.BappAppendsBitsMostSignificantFirst : Prop :=
  (∀ (n : BitVec 8) (v : BitVec 32), n.toNat ≤ 32 → decode (commandWord 0x45 n 0 v) = .ok (.bapp n v)) ∧
  (∀ (s : State) (n : BitVec 8) (v : BitVec 32),
    (32 < n.toNat → exec (.bapp n v) s = .next (s.failed .illegalCmd 0)) ∧
    (n.toNat ≤ 32 → s.cfg.bitcap.toNat < s.bitlen.toNat + n.toNat →
      exec (.bapp n v) s = .next (s.failed .capacity 0)) ∧
    (n.toNat ≤ 32 → s.bitlen.toNat + n.toNat ≤ s.cfg.bitcap.toNat → ∃ t, exec (.bapp n v) s = .next t ∧
      t = { s with bits := t.bits, bitlen := t.bitlen, rsp := some ⟨.ok, t.bitlen.setWidth 64⟩ } ∧
      t.bitlen.toNat = s.bitlen.toNat + n.toNat ∧
      (∀ k, k < n.toNat → t.bits.read (s.bitlen.toNat + k) = v.getLsbD (n.toNat - 1 - k)) ∧
      (∀ p, p < s.bitlen.toNat ∨ s.bitlen.toNat + n.toNat ≤ p → t.bits.read p = s.bits.read p))) ∧
  (∀ (s : State) (a : BitVec 8) (b : BitVec 16) (d : BitVec 32), 32 < a.toNat ∨ b ≠ 0 →
    submit (commandWord 0x45 a b d) s = .next (s.failed .illegalCmd 0))

/-- 44_buffers.md R148, 20_memory.md R41: bit 7 - t of byte j is bit 8j + t of the sequence, 0 at and past BITLEN. -/
def Obligations.BrdReturnsThePackedByte : Prop :=
  (∀ j : Length, decode (commandWord 0x46 0 0 j) = .ok (.brd j)) ∧
  (∀ (s : State) (j : Length),
    ((s.bitlen.toNat + 7) / 8 ≤ j.toNat → exec (.brd j) s = .next (s.failed .badIndex 0)) ∧
    (j.toNat < (s.bitlen.toNat + 7) / 8 → ∃ x : Byte,
      exec (.brd j) s = .next { s with rsp := some ⟨.ok, x.setWidth 64⟩ } ∧
      ∀ k, k < 8 → x.getLsbD (7 - k) =
        if 8 * j.toNat + k < s.bitlen.toNat then s.bits.read (8 * j.toNat + k) else false)) ∧
  (∀ (s : State) (a : BitVec 8) (b : BitVec 16) (d : BitVec 32), a ≠ 0 ∨ b ≠ 0 →
    submit (commandWord 0x46 a b d) s = .next (s.failed .illegalCmd 0))

/-- 44_buffers.md R152: a sequence loaded in any split into groups of 0 to 32 bits is the concatenation of the groups, and
the bytes that BRD shows, loaded as R152 says after BCLR, restore the sequence. -/
def Obligations.PackedBytesReloadTheSequence : Prop :=
  (∀ (s : State) (groups : List (BitVec 8 × BitVec 32)), (∀ g ∈ groups, g.1.toNat ≤ 32) →
    s.bitlen.toNat + (groups.map fun g => g.1.toNat).sum ≤ s.cfg.bitcap.toNat →
    ∃ t rs, session (wordsOf (groups.map fun g => .bapp g.1 g.2)) s = .next (t, rs) ∧ (∀ r ∈ rs, r.status = .ok) ∧
      t.bitSequence = s.bitSequence ++ (groups.map fun g => bitGroup g.1.toNat g.2).flatten) ∧
  (∀ s : State, s.Inv →
    ∃ t rs, session (wordsOf (unloadBits s.bitlen.toNat)) s = .next (t, rs) ∧
      t = { s with rsp := t.rsp } ∧ (∀ r ∈ rs, r.status = .ok) ∧
      ∃ u rs', session (wordsOf (.bclr :: loadBits s.bitlen.toNat (rs.tail.map fun r => r.data.setWidth 8))) t =
          .next (u, rs') ∧
        (∀ r ∈ rs', r.status = .ok) ∧ u.bitlen = s.bitlen ∧ u.bitSequence = s.bitSequence)

/-! ### Encoder and decoder -/

/-- 45_encoder.md R155, R156: a buffer of 0 or 1 bytes is encoded without any table. That the bits of BITS past the new
BITLEN (all of them for the empty buffer), which 10_state.md R37 leaves unspecified, are as before is the model's choice
(DESIGN CHOICE, log 6). -/
def Obligations.EncodeOfShortBuffersNeedsNoTable : Prop :=
  decode 0x5000000000000000 = .ok .encode ∧
  (∀ s : State, s.Inv → s.srclen = 0 → exec .encode s = .next { s with bitlen := 0, rsp := some ⟨.ok, 0⟩ }) ∧
  (∀ s : State, s.srclen = 1 → ∃ t, exec .encode s = .next t ∧
    t = { s with bits := t.bits, bitlen := 1, rsp := some ⟨.ok, 1⟩ } ∧
    ∀ k, t.bits.read k = if k = 0 then false else s.bits.read k) ∧
  (∀ (s : State) (a : BitVec 8) (b : BitVec 16) (d : BitVec 32), a ≠ 0 ∨ b ≠ 0 ∨ d ≠ 0 →
    submit (commandWord 0x50 a b d) s = .next (s.failed .illegalCmd 0))

/-- 45_encoder.md R155, R157, R160: in the general case the bit sequence becomes the concatenation of the codes, each first
bit first, and its length the sum of their lengths. The last clause, that the bits at and past the new BITLEN, which
10_state.md R37 leaves unspecified, are as before, is the model's choice (DESIGN CHOICE, log 6). -/
def Obligations.EncodeConcatenatesTheCodes : Prop :=
  ∀ s : State, 2 ≤ s.srclen.toNat → s.cv = true →
    (∀ k, k < s.srclen.toNat → (s.code.read (s.src.read k).toNat).len ≠ 0) →
    (s.sourceBytes.map fun x => (s.code.read x.toNat).len.toNat).sum ≤ s.cfg.bitcap.toNat →
    ∃ t, exec .encode s = .next t ∧
      t = { s with bits := t.bits, bitlen := t.bitlen, rsp := some ⟨.ok, t.bitlen.setWidth 64⟩ } ∧
      t.bitlen.toNat = (s.sourceBytes.map fun x => (s.code.read x.toNat).len.toNat).sum ∧
      (∀ k j, k < s.srclen.toNat → j < (s.code.read (s.src.read k).toNat).len.toNat →
        t.bits.read (((s.sourceBytes.take k).map fun x => (s.code.read x.toNat).len.toNat).sum + j) =
          (s.code.read (s.src.read k).toNat).val.getLsbD
            ((s.code.read (s.src.read k).toNat).len.toNat - 1 - j)) ∧
      (∀ p, t.bitlen.toNat ≤ p → t.bits.read p = s.bits.read p)

/-- 45_encoder.md R158, R159, R161: the failures of ENCODE in the general case, UNKNOWN_SYMBOL (for the first byte without a
code) before CAPACITY, each without any effect but its bit of ERRFLAGS. -/
def Obligations.EncodeFailsWholeAndInOrder : Prop :=
  ∀ s : State, 2 ≤ s.srclen.toNat →
    (s.cv = false → exec .encode s = .next (s.failed .notReady 0)) ∧
    (∀ k, s.cv = true → k < s.srclen.toNat → (s.code.read (s.src.read k).toNat).len = 0 →
      (∀ j, j < k → (s.code.read (s.src.read j).toNat).len ≠ 0) →
      ∃ info : Word64, info.toNat = (s.src.read k).toNat * 2 ^ 32 + k ∧
        exec .encode s = .next (s.failed .unknownSymbol info)) ∧
    (s.cv = true → (∀ k, k < s.srclen.toNat → (s.code.read (s.src.read k).toNat).len ≠ 0) →
      s.cfg.bitcap.toNat < (s.sourceBytes.map fun x => (s.code.read x.toNat).len.toNat).sum →
      exec .encode s = .next (s.failed .capacity 0))

/-- 46_decoder.md R170 to R174, R178: readiness, the container check, the empty sequence, the single-leaf tree. That the
bytes of DST at and past the new DSTLEN (all of them for the empty sequence), which 10_state.md R37 leaves unspecified,
are as before is the model's choice (DESIGN CHOICE, log 6). -/
def Obligations.DecodeChecksTheContainerFirst : Prop :=
  decode 0x5100000000000000 = .ok .decode ∧
  (∀ s : State, s.tv = false → exec .decode s = .next (s.failed .notReady 0)) ∧
  (∀ s : State, s.tv = true → ¬(s.nnodes = 0 ↔ s.bitlen = 0) →
    exec .decode s = .next (s.failed .malformedContainer 0)) ∧
  (∀ s : State, s.tv = true → s.nnodes = 0 → s.bitlen = 0 →
    exec .decode s = .next { s with dstlen := 0, rsp := some ⟨.ok, 0⟩ }) ∧
  (∀ (s : State) (w : Weight) (sym : Byte), s.tv = true → s.nnodes ≠ 0 → s.bitlen ≠ 0 →
    s.node.read s.root.toNat = .leaf w sym →
    (s.cfg.dstcap.toNat < s.bitlen.toNat → exec .decode s = .next (s.failed .capacity 0)) ∧
    (s.bitlen.toNat ≤ s.cfg.dstcap.toNat → ∃ t, exec .decode s = .next t ∧
      t = { s with dst := t.dst, dstlen := s.bitlen, rsp := some ⟨.ok, s.bitlen.setWidth 64⟩ } ∧
      ∀ k, t.dst.read k = if k < s.bitlen.toNat then sym else s.dst.read k)) ∧
  (∀ (s : State) (a : BitVec 8) (b : BitVec 16) (d : BitVec 32), a ≠ 0 ∨ b ≠ 0 ∨ d ≠ 0 →
    submit (commandWord 0x51 a b d) s = .next (s.failed .illegalCmd 0))

/-- 46_decoder.md R175 to R178: with an Internal root, every bit sequence splits in one way: it is the paths of symbols xs,
and then DECODE writes exactly xs, or raises CAPACITY when they do not fit; or it is the paths of symbols xs and then an
unfinished descent, and DECODE raises DECODE_UNDERFLOW with the number of those symbols, whatever DSTCAP is. That the
bytes of DST at and past the number of symbols, which 10_state.md R37 leaves unspecified, are as before is the model's
choice (DESIGN CHOICE, log 6). -/
def Obligations.DecodeFollowsTheTreeBitByBit : Prop :=
  ∀ (s : State) (w : Weight) (l r : NodeIndex), s.tv = true → s.nnodes ≠ 0 → s.bitlen ≠ 0 →
    s.node.read s.root.toNat = .internal w l r →
    (∃ (ps : List (Byte × List Bool)) (q : List Bool), s.bitSequence = (ps.map (·.2)).flatten ++ q ∧
      (∀ p ∈ ps, IsPathTo s.node s.root.toNat p.1 p.2) ∧
      (q = [] ∨ q ≠ [] ∧ ∃ w l r, follow s.node s.root.toNat q = some (.internal w l r))) ∧
    ∀ (ps : List (Byte × List Bool)) (q : List Bool), s.bitSequence = (ps.map (·.2)).flatten ++ q →
      (∀ p ∈ ps, IsPathTo s.node s.root.toNat p.1 p.2) →
      (q = [] → s.cfg.dstcap.toNat < ps.length → exec .decode s = .next (s.failed .capacity 0)) ∧
      (q = [] → ps.length ≤ s.cfg.dstcap.toNat → ∃ t, exec .decode s = .next t ∧
        t = { s with dst := t.dst, dstlen := t.dstlen, rsp := some ⟨.ok, t.dstlen.setWidth 64⟩ } ∧
        t.dstlen.toNat = ps.length ∧ t.destBytes = ps.map (·.1) ∧
        ∀ k, ps.length ≤ k → t.dst.read k = s.dst.read k) ∧
      (q ≠ [] → (∃ w l r, follow s.node s.root.toNat q = some (.internal w l r)) →
        exec .decode s = .next (s.failed .decodeUnderflow (BitVec.ofNat 64 ps.length)))

/-! ### The whole machine -/

/-- 70_reset_and_hazards.md R240, 10_state.md R38: every reset state has the invariant (sanity of the invariant; it rests on
log 5 for the memories the spec leaves open). -/
def Obligations.ResetStatesHaveTheInvariant : Prop :=
  State.reset.Inv ∧ ∀ c : Config, c.wf → (State.resetWith c).Inv

/-- 10_state.md R13 to R20, R30, R31, 20_memory.md R48: every step keeps the invariant: lengths within capacities, memories
canonical and within their index ranges, TV and CV meaning what they say. -/
def Obligations.EveryStepKeepsTheInvariant : Prop :=
  ∀ s t : State, s.Inv → step s = .next t → t.Inv

/-- 70_reset_and_hazards.md R253, 30_encoding.md R60: every command terminates and every accepted word gets exactly one
response: from a state with the invariant no step and no session stops with a fault or a refusal. -/
def Obligations.EveryCommandIsAnswered : Prop :=
  (∀ s : State, s.Inv → ∃ t, step s = .next t) ∧
  (∀ (s : State) (ws : List Word64), s.Inv →
    ∃ t rs, session ws s = .next (t, rs) ∧ rs.length = ws.length ∧ t.Inv ∧ t.cfg = s.cfg ∧ t.inputs = s.inputs)

/-- 10_state.md R37: "Two states that agree on everything outside these elements are indistinguishable by any command
sequence." -/
def Obligations.InvalidMemoryElementsAreUnobservable : Prop :=
  ∀ (s t : State) (ws : List Word64), s.Inv → t.Inv → s.SameObservable t →
    ∃ s' t' rs, session ws s = .next (s', rs) ∧ session ws t = .next (t', rs) ∧ s'.SameObservable t'

/-- 70_reset_and_hazards.md R242: how the data-path commands answer in the reset state, whatever the memories hold that the
reset does not define. -/
def Obligations.DataPathCommandsInTheResetState : Prop :=
  ∀ s : State, s.SameObservable { State.resetWith s.cfg with inputs := s.inputs, rsp := s.rsp } →
    (∃ t, exec .build s = .next t ∧ t.nnodes = 0 ∧ t.rsp = some ⟨.ok, 0⟩) ∧
    exec .derive s = .next (s.failed .notReady 0) ∧ exec .decode s = .next (s.failed .notReady 0) ∧
    (∀ k, exec (.nrd k) s = .next (s.failed .notReady 0)) ∧
    (∀ x, exec (.clen x) s = .next (s.failed .notReady 0)) ∧
    (∀ x q, q.toNat ≤ 3 → exec (.cval x q) s = .next (s.failed .notReady 0)) ∧
    (∃ t, exec .encode s = .next t ∧ t.bitlen = 0 ∧ t.rsp = some ⟨.ok, 0⟩) ∧
    (∀ k, exec (.sget k) s = .next (s.failed .badIndex 0)) ∧
    (∀ j, exec (.brd j) s = .next (s.failed .badIndex 0)) ∧
    (∀ k, exec (.drd k) s = .next (s.failed .badIndex 0)) ∧
    (∀ x, exec (.fget x) s = .next { s with rsp := some ⟨.ok, 0⟩ })

/-- 47_properties.md R193: round trip, for every byte list that fits, from every state the machine reaches, the FSETs in any
order; the root weight is the length of the input. -/
def Obligations.CompressThenDecodeRestoresTheInput : Prop :=
  ∀ (s : State) (bytes keys : List Byte), s.Inv → keys.Nodup → (∀ x, x ∈ keys ↔ x ∈ bytes) →
    bytes.length ≤ s.cfg.srccap.toNat → bytes.length ≤ s.cfg.dstcap.toNat →
    encodedLength bytes ≤ s.cfg.bitcap.toNat →
    ∃ t rs, session (wordsOf (compressCommands keys bytes ++ [.decode])) s = .next (t, rs) ∧
      (∀ r ∈ rs, r.status = .ok) ∧ t.dstlen.toNat = bytes.length ∧ t.destBytes = bytes ∧
      (1 ≤ bytes.length → (t.node.read t.root.toNat).weight.toNat = bytes.length)

/-- 47_properties.md R197 with the sequences of R191 and R192 and the load of 44_buffers.md R152: the container that one
block produces is restored by another block, from the persisted table, bit count and bytes alone, and read back. -/
def Obligations.ContainersDecodeOnAnotherBlock : Prop :=
  ∀ (s s' : State) (bytes keys keys' : List Byte), s.Inv → s'.Inv → keys.Nodup → (∀ x, x ∈ keys ↔ x ∈ bytes) →
    keys'.Nodup → (∀ x, x ∈ keys' ↔ x ∈ bytes) → bytes.length ≤ s.cfg.srccap.toNat →
    encodedLength bytes ≤ s.cfg.bitcap.toNat → encodedLength bytes ≤ s'.cfg.bitcap.toNat →
    bytes.length ≤ s'.cfg.dstcap.toNat →
    ∃ t rs, session (wordsOf (compressCommands keys bytes)) s = .next (t, rs) ∧ (∀ r ∈ rs, r.status = .ok) ∧
      ∃ u us, session (wordsOf (unloadBits t.bitlen.toNat)) t = .next (u, us) ∧ (∀ r ∈ us, r.status = .ok) ∧
        us.length = 1 + ceil8 t.bitlen.toNat ∧
        ∃ v vs, session (wordsOf (decompressCommands keys' bytes t.bitlen.toNat
              (us.tail.map fun r => r.data.setWidth 8))) s' = .next (v, vs) ∧
          (∀ r ∈ vs, r.status = .ok) ∧ v.dstlen.toNat = bytes.length ∧ v.destBytes = bytes ∧
          ∃ x xs, session (wordsOf (unloadBytes bytes.length)) v = .next (x, xs) ∧ (∀ r ∈ xs, r.status = .ok) ∧
            x = { v with rsp := x.rsp } ∧ xs.map (·.data) = (BitVec.ofNat 64 bytes.length) :: bytes.map (·.setWidth 64)

/-- 47_properties.md R198: what holds when FREQ is not the table of SRC, row by row. -/
def Obligations.OutsideTheContractBehaviourIsDefined : Prop :=
  ∀ s : State, s.Inv → s.cv = true →
    (2 ≤ s.srclen.toNat → (∀ k, k < s.srclen.toNat → s.freq.read (s.src.read k).toNat ≠ 0) →
      (s.sourceBytes.map fun x => (s.code.read x.toNat).len.toNat).sum ≤ s.cfg.bitcap.toNat →
      s.srclen.toNat ≤ s.cfg.dstcap.toNat →
      ∃ t u d d', exec .encode s = .next t ∧ t.rsp = some ⟨.ok, d⟩ ∧ exec .decode t = .next u ∧
        u.rsp = some ⟨.ok, d'⟩ ∧ u.destBytes = s.sourceBytes) ∧
    (∀ k, 2 ≤ s.srclen.toNat → k < s.srclen.toNat → s.freq.read (s.src.read k).toNat = 0 →
      ∃ info, exec .encode s = .next (s.failed .unknownSymbol info)) ∧
    (∀ sym, s.srclen = 1 → presentSymbols s.freq = [sym] →
      ∃ t u, exec .encode s = .next t ∧ t.rsp = some ⟨.ok, 1⟩ ∧ t.bitSequence = [false] ∧
        exec .decode t = .next u ∧ u.rsp = some ⟨.ok, 1⟩ ∧ u.destBytes = [sym]) ∧
    (∀ w l r, s.srclen = 1 → 2 ≤ (presentSymbols s.freq).length → s.node.read s.root.toNat = .internal w l r →
      ∃ t, exec .encode s = .next t ∧ t.rsp = some ⟨.ok, 1⟩ ∧ t.bitSequence = [false] ∧
        (∀ w' sym, s.node.read l.toNat = .leaf w' sym →
          ∃ u, exec .decode t = .next u ∧ u.rsp = some ⟨.ok, 1⟩ ∧ u.destBytes = [sym]) ∧
        (∀ w' l' r', s.node.read l.toNat = .internal w' l' r' →
          exec .decode t = .next (t.failed .decodeUnderflow 0))) ∧
    (s.srclen = 0 → 1 ≤ (presentSymbols s.freq).length →
      ∃ t, exec .encode s = .next t ∧ t.rsp = some ⟨.ok, 0⟩ ∧ t.bitSequence = [] ∧
        exec .decode t = .next (t.failed .malformedContainer 0)) ∧
    (presentSymbols s.freq = [] →
      (s.srclen = 1 → ∃ t, exec .encode s = .next t ∧ t.rsp = some ⟨.ok, 1⟩ ∧ t.bitSequence = [false] ∧
        exec .decode t = .next (t.failed .malformedContainer 0)) ∧
      (2 ≤ s.srclen.toNat → ∃ info, exec .encode s = .next (s.failed .unknownSymbol info)))
end

