-- ==== Sys2Proof/Laws/Memory.lean ====
section
/-! SUPPORT. The laws of memories: what a read gives after a write, that every operation keeps the canonical form, and
that canonical memories with equal contents are equal. -/

namespace Sys2Proof.Machine

section
variable {α : Type} [Inhabited α]

@[simp] theorem Memory.read_nil (i : Nat) : Memory.read ([] : Memory α) i = Memory.unlisted := rfl

@[simp] theorem Memory.read_empty (i : Nat) : Memory.read (Memory.empty : Memory α) i = Memory.unlisted := rfl

@[simp] theorem Memory.read_cons (k : Nat) (v : α) (m : Memory α) (i : Nat) :
    Memory.read ((k, v) :: m) i = if k = i then v else Memory.read m i := rfl

/-- An index that is not listed reads as the unlisted element. -/
theorem Memory.read_of_not_listed {m : Memory α} {i : Nat} (h : ∀ c ∈ m, c.1 ≠ i) : m.read i = Memory.unlisted := by
  induction m with
  | nil => rfl
  | cons c m ih =>
    obtain ⟨k, v⟩ := c
    have hk : k ≠ i := h (k, v) (by simp)
    rw [Memory.read_cons, if_neg hk]
    exact ih fun c hc => h c (List.mem_cons_of_mem _ hc)

/-- A memory of n elements reads as the unlisted element at and past n. -/
theorem Memory.read_of_below {m : Memory α} {n i : Nat} (h : m.below n) (hi : n ≤ i) : m.read i = Memory.unlisted :=
  Memory.read_of_not_listed fun c hc => by have := h c hc; omega

/-- Reading skips a part of the list that does not list the index. -/
theorem Memory.read_append_right {m m' : Memory α} {i : Nat} (h : ∀ c ∈ m, c.1 ≠ i) :
    Memory.read (m ++ m' : Memory α) i = m'.read i := by
  induction m with
  | nil => rfl
  | cons c m ih =>
    obtain ⟨k, v⟩ := c
    have hk : k ≠ i := h (k, v) (by simp)
    rw [List.cons_append, Memory.read_cons, if_neg hk]
    exact ih fun c hc => h c (List.mem_cons_of_mem _ hc)

/-- Reading stops in the first part when the second does not list the index. -/
theorem Memory.read_append_left {m m' : Memory α} {i : Nat} (h : ∀ c ∈ m', c.1 ≠ i) :
    Memory.read (m ++ m' : Memory α) i = m.read i := by
  induction m with
  | nil => exact Memory.read_of_not_listed h
  | cons c m ih =>
    obtain ⟨k, v⟩ := c
    rw [List.cons_append, Memory.read_cons, Memory.read_cons, ih]

/-- Reading is not affected by pairs at other indices. -/
theorem Memory.read_filter {m : Memory α} {i : Nat} {p : Nat → Bool} (h : p i = true) :
    Memory.read (m.filter (fun c => p c.1) : Memory α) i = m.read i := by
  induction m with
  | nil => rfl
  | cons c m ih =>
    obtain ⟨k, v⟩ := c
    by_cases hp : p k
    · rw [List.filter_cons_of_pos (by simpa using hp), Memory.read_cons, Memory.read_cons, ih]
    · have hk : k ≠ i := by rintro rfl; exact hp h
      rw [List.filter_cons_of_neg (by simpa using hp), ih, Memory.read_cons, if_neg hk]

@[simp] theorem Memory.length_readBlock (m : Memory α) (i n : Nat) : (m.readBlock i n).length = n := by
  simp [Memory.readBlock]

@[simp] theorem Memory.getElem_readBlock (m : Memory α) (i n k : Nat) (h : k < (m.readBlock i n).length) :
    (m.readBlock i n)[k] = m.read (i + k) := by
  simp [Memory.readBlock]

/-- Two memories that agree on a block read the same block. -/
theorem Memory.readBlock_congr {m m' : Memory α} {i n : Nat} (h : ∀ k, k < n → m.read (i + k) = m'.read (i + k)) :
    m.readBlock i n = m'.readBlock i n := by
  unfold Memory.readBlock
  exact List.map_congr_left fun k hk => h k (List.mem_range.1 hk)

/-- A block read in two parts. -/
theorem Memory.readBlock_add (m : Memory α) (i n k : Nat) :
    m.readBlock i (n + k) = m.readBlock i n ++ m.readBlock (i + n) k := by
  unfold Memory.readBlock
  rw [List.range_add, List.map_append, List.map_map]
  simp [Function.comp_def, Nat.add_assoc]

end

theorem Memory.below_empty {α : Type} (n : Nat) : Memory.below (Memory.empty : Memory α) n := by simp [Memory.empty]

section
variable {α : Type} [Inhabited α] [DecidableEq α]

@[simp] theorem Memory.cells_nil (i : Nat) : Memory.cells i ([] : List α) = [] := rfl

/-- The pairs of `cells` lie in their block, and none is the unlisted element. -/
theorem Memory.mem_cells {i : Nat} {vs : List α} {c : Nat × α} (h : c ∈ Memory.cells i vs) :
    i ≤ c.1 ∧ c.1 < i + vs.length ∧ c.2 ≠ Memory.unlisted := by
  induction vs generalizing i with
  | nil => simp at h
  | cons v vs ih =>
    unfold Memory.cells at h
    split at h
    · obtain ⟨h1, h2, h3⟩ := ih h
      simp only [List.length_cons]
      exact ⟨by omega, by omega, h3⟩
    · rcases List.mem_cons.1 h with rfl | h
      · simp_all
      · obtain ⟨h1, h2, h3⟩ := ih h
        simp only [List.length_cons]
        exact ⟨by omega, by omega, h3⟩

/-- `cells` lists its block. -/
theorem Memory.read_cells (i k : Nat) (vs : List α) :
    Memory.read (Memory.cells i vs) k = if i ≤ k then vs.getD (k - i) Memory.unlisted else Memory.unlisted := by
  induction vs generalizing i with
  | nil => simp
  | cons v vs ih =>
    unfold Memory.cells
    have key : (if i ≤ k then (v :: vs).getD (k - i) Memory.unlisted else Memory.unlisted) =
        if i = k then v else if i + 1 ≤ k then vs.getD (k - (i + 1)) Memory.unlisted else Memory.unlisted := by
      rcases Nat.lt_trichotomy i k with h | rfl | h
      · obtain ⟨d, rfl⟩ : ∃ d, k = i + 1 + d := ⟨k - (i + 1), by omega⟩
        have h1 : i + 1 + d - i = d + 1 := by omega
        rw [if_pos (by omega), if_neg (by omega), if_pos (by omega), h1, Nat.add_sub_cancel_left]
        simp
      · simp
      · rw [if_neg (by omega), if_neg (by omega), if_neg (by omega)]
    rw [key]
    by_cases hv : v = Memory.unlisted
    · rw [if_pos hv, ih]
      by_cases h : i = k
      · subst h; simp [hv]
      · simp [h]
    · rw [if_neg hv, Memory.read_cons, ih]

theorem Memory.cells_wf (i : Nat) (vs : List α) : Memory.wf (Memory.cells i vs) := by
  refine ⟨?_, fun c hc => (Memory.mem_cells hc).2.2⟩
  induction vs generalizing i with
  | nil => simp
  | cons v vs ih =>
    unfold Memory.cells
    split
    · exact ih (i + 1)
    · exact List.pairwise_cons.2 ⟨fun c hc => by have := Memory.mem_cells hc; simp only; omega, ih (i + 1)⟩

/-- MemWrite then a read: the block has the elements written, every other index reads as before (00_scope.md R8). -/
theorem Memory.read_writeBlock (m : Memory α) (i : Nat) (vs : List α) (k : Nat) :
    (m.writeBlock i vs).read k =
      if i ≤ k ∧ k < i + vs.length then vs.getD (k - i) Memory.unlisted else m.read k := by
  unfold Memory.writeBlock
  by_cases h1 : k < i
  · rw [Memory.read_append_left (by intro c hc; have := (List.mem_filter.1 hc).2; simp at this; omega),
      Memory.read_append_left (by intro c hc; have := Memory.mem_cells hc; omega),
      Memory.read_filter (p := fun n => decide (n < i)) (by simpa using h1), if_neg (by omega)]
  · by_cases h2 : k < i + vs.length
    · rw [Memory.read_append_left (by intro c hc; have := (List.mem_filter.1 hc).2; simp at this; omega),
        Memory.read_append_right (by intro c hc; have := (List.mem_filter.1 hc).2; simp at this; omega),
        Memory.read_cells, if_pos (by omega), if_pos ⟨by omega, h2⟩]
    · rw [Memory.read_append_right (by
          intro c hc
          rcases List.mem_append.1 hc with hc | hc
          · have := (List.mem_filter.1 hc).2; simp at this; omega
          · have := Memory.mem_cells hc; omega),
        Memory.read_filter (p := fun n => decide (i + vs.length ≤ n)) (by simp; omega), if_neg (by omega)]

/-- One write then a read. -/
theorem Memory.read_write (m : Memory α) (i : Nat) (v : α) (k : Nat) :
    (m.write i v).read k = if k = i then v else m.read k := by
  unfold Memory.write
  rw [Memory.read_writeBlock]
  by_cases h : k = i
  · subst h; simp
  · rw [if_neg h, if_neg (by simp; omega)]

@[simp] theorem Memory.read_write_same (m : Memory α) (i : Nat) (v : α) : (m.write i v).read i = v := by
  rw [Memory.read_write, if_pos rfl]

theorem Memory.read_write_other (m : Memory α) {i k : Nat} (v : α) (h : k ≠ i) : (m.write i v).read k = m.read k := by
  rw [Memory.read_write, if_neg h]

theorem Memory.wf_empty : Memory.wf (Memory.empty : Memory α) := ⟨List.Pairwise.nil, by simp [Memory.empty]⟩

/-- MemWrite keeps the canonical form. -/
theorem Memory.wf_writeBlock {m : Memory α} (h : m.wf) (i : Nat) (vs : List α) : (m.writeBlock i vs).wf := by
  obtain ⟨hp, hu⟩ := h
  unfold Memory.writeBlock
  constructor
  · rw [List.pairwise_append, List.pairwise_append]
    refine ⟨⟨hp.filter _, (Memory.cells_wf i vs).1, ?_⟩, hp.filter _, ?_⟩
    · intro c hc c' hc'
      have h1 := (List.mem_filter.1 hc).2
      have h2 := Memory.mem_cells hc'
      simp at h1; omega
    · intro c hc c' hc'
      have h2 := (List.mem_filter.1 hc').2
      simp at h2
      rcases List.mem_append.1 hc with hc | hc
      · have h1 := (List.mem_filter.1 hc).2
        simp at h1; omega
      · have h1 := Memory.mem_cells hc
        omega
  · intro c hc
    rcases List.mem_append.1 hc with hc | hc
    · rcases List.mem_append.1 hc with hc | hc
      · exact hu c (List.mem_filter.1 hc).1
      · exact (Memory.mem_cells hc).2.2
    · exact hu c (List.mem_filter.1 hc).1

theorem Memory.wf_write {m : Memory α} (h : m.wf) (i : Nat) (v : α) : (m.write i v).wf := Memory.wf_writeBlock h i [v]

/-- MemWrite inside the first n elements keeps the memory below n. -/
theorem Memory.below_writeBlock {m : Memory α} {n : Nat} (h : m.below n) {i : Nat} {vs : List α}
    (hi : i + vs.length ≤ n) : (m.writeBlock i vs).below n := by
  unfold Memory.writeBlock
  intro c hc
  rcases List.mem_append.1 hc with hc | hc
  · rcases List.mem_append.1 hc with hc | hc
    · exact h c (List.mem_filter.1 hc).1
    · have := Memory.mem_cells hc; omega
  · exact h c (List.mem_filter.1 hc).1

theorem Memory.below_write {m : Memory α} {n : Nat} (h : m.below n) {i : Nat} (v : α) (hi : i < n) :
    (m.write i v).below n := Memory.below_writeBlock h (by simpa using hi)

/-- Canonical memories with equal contents are equal. -/
theorem Memory.ext_of_read {m m' : Memory α} (h : m.wf) (h' : m'.wf) (hr : ∀ k, m.read k = m'.read k) : m = m' := by
  have step : ∀ (k : Nat) (v : α) (r : Memory α), Memory.wf ((k, v) :: r : Memory α) →
      Memory.wf r ∧ v ≠ Memory.unlisted ∧ ∀ j, j ≤ k → r.read j = Memory.unlisted := by
    intro k v r hw
    obtain ⟨hp, hu⟩ := hw
    obtain ⟨hp1, hp2⟩ := List.pairwise_cons.1 hp
    exact ⟨⟨hp2, fun c hc => hu c (List.mem_cons_of_mem _ hc)⟩, hu (k, v) (by simp), fun j hj =>
      Memory.read_of_not_listed fun c hc => by have := hp1 c hc; simp only at this; omega⟩
  induction m generalizing m' with
  | nil =>
    cases m' with
    | nil => rfl
    | cons c' r' =>
      obtain ⟨k', v'⟩ := c'
      have := hr k'
      simp at this
      exact absurd this.symm (step k' v' r' h').2.1
  | cons c r ih =>
    obtain ⟨k, v⟩ := c
    obtain ⟨hw, hv, hlow⟩ := step k v r h
    cases m' with
    | nil =>
      have := hr k
      simp at this
      exact absurd this hv
    | cons c' r' =>
      obtain ⟨k', v'⟩ := c'
      obtain ⟨hw', hv', hlow'⟩ := step k' v' r' h'
      have hk : k = k' := by
        rcases Nat.lt_trichotomy k k' with hlt | heq | hgt
        · have := hr k
          rw [Memory.read_cons, Memory.read_cons, if_pos rfl, if_neg (by omega), hlow' k (by omega)] at this
          exact absurd this hv
        · exact heq
        · have := hr k'
          rw [Memory.read_cons, Memory.read_cons, if_pos rfl, if_neg (by omega), hlow k' (by omega)] at this
          exact absurd this.symm hv'
      subst hk
      have hvv : v = v' := by simpa using hr k
      subst hvv
      rw [ih hw hw' fun j => ?_]
      have := hr j
      rw [Memory.read_cons, Memory.read_cons] at this
      by_cases hj : k = j
      · subst hj; rw [hlow k (by omega), hlow' k (by omega)]
      · simpa [hj] using this

/-- MemRead of a block just written gives the list written. -/
@[simp] theorem Memory.readBlock_writeBlock (m : Memory α) (i : Nat) (vs : List α) :
    (m.writeBlock i vs).readBlock i vs.length = vs := by
  refine List.ext_getElem (by simp) fun k h1 h2 => ?_
  rw [Memory.getElem_readBlock, Memory.read_writeBlock, if_pos (by omega), Nat.add_sub_cancel_left,
    List.getD_eq_getElem _ _ h2]

/-- Writing a block twice leaves the second list. -/
theorem Memory.writeBlock_writeBlock (m : Memory α) (i : Nat) {vs vs' : List α} (h : vs.length = vs'.length) :
    (m.writeBlock i vs).writeBlock i vs' = m.writeBlock i vs' := by
  have hc : ∀ p : Nat × α → Bool, (∀ c ∈ Memory.cells i vs, p c = false) → (Memory.cells i vs).filter p = [] :=
    fun p hp => List.filter_eq_nil_iff.2 fun c hc => by simp [hp c hc]
  have h1 : (Memory.cells i vs).filter (fun c => decide (c.1 < i)) = [] :=
    hc _ fun c hc => by have := Memory.mem_cells hc; simp; omega
  have h2 : (Memory.cells i vs).filter (fun c => decide (i + vs'.length ≤ c.1)) = [] :=
    hc _ fun c hc => by have := Memory.mem_cells hc; simp; omega
  have h3 : (m.filter (fun c => decide (c.1 < i))).filter (fun c => decide (i + vs'.length ≤ c.1)) = [] :=
    List.filter_eq_nil_iff.2 fun c hc => by have := (List.mem_filter.1 hc).2; simp at this ⊢; omega
  have h4 : (m.filter (fun c => decide (i + vs.length ≤ c.1))).filter (fun c => decide (c.1 < i)) = [] :=
    List.filter_eq_nil_iff.2 fun c hc => by have := (List.mem_filter.1 hc).2; simp at this ⊢; omega
  unfold Memory.writeBlock
  rw [List.filter_append, List.filter_append, List.filter_append, List.filter_append, h1, h2, h3, h4]
  simp [h, List.filter_filter]

@[simp] theorem Memory.writeBlock_nil {m : Memory α} (h : m.wf) (i : Nat) : m.writeBlock i [] = m :=
  Memory.ext_of_read (Memory.wf_writeBlock h i []) h fun k => by rw [Memory.read_writeBlock, if_neg (by simp)]

end

end Sys2Proof.Machine
end

