-- ==== Sys2Proof/Laws/Codec.lean ====
section
/-! SUPPORT. The laws of DERIVE, ENCODE and DECODE: bit groups and packed bytes, the walk against the paths of the tree, the
codes of a byte list, the trial pass against paths. -/

namespace Sys2Proof.Machine

/-! ### Bit groups, codes, packed bytes -/

@[simp] theorem length_bitGroup {w : Nat} (n : Nat) (v : BitVec w) : (bitGroup n v).length = n := by simp [bitGroup]

@[simp] theorem getElem_bitGroup {w : Nat} (n : Nat) (v : BitVec w) (k : Nat) (h : k < (bitGroup n v).length) :
    (bitGroup n v)[k] = v.getLsbD (n - 1 - k) := by
  simp [bitGroup]

@[simp] theorem length_codeBits (c : CodeEntry) : c.bits.length = c.len.toNat := length_bitGroup _ _

/-- Bit 7 - k of packed byte j is position 8j + k of the view (20_memory.md R41). -/
theorem getLsbD_packedByte (s : State) (j k : Nat) (hk : k < 8) :
    (s.packedByte j).getLsbD (7 - k) = s.viewBit (8 * j + k) := by
  have h : (List.range 8) = [0, 1, 2, 3, 4, 5, 6, 7] := by decide
  unfold State.packedByte
  rw [h]
  generalize hb : (fun t => s.viewBit (8 * j + t)) = b
  have e : ∀ t, s.viewBit (8 * j + t) = b t := fun t => congrFun hb t
  simp only [e, List.foldl_cons, List.foldl_nil]
  interval_cases k <;> simp

/-! ### The codes of a byte list (45_encoder.md R157 to R160) -/

section
variable (code : Memory CodeEntry)

theorem totalLength_eq_sum (xs : List Byte) :
    totalLength code xs = (xs.map fun x => (code.read x.toNat).len.toNat).sum := by
  induction xs with
  | nil => rfl
  | cons x xs ih => simp [totalLength, ih]

@[simp] theorem length_encodeBytes (xs : List Byte) : (encodeBytes code xs).length = totalLength code xs := by
  induction xs with
  | nil => rfl
  | cons x xs ih => simp [encodeBytes, totalLength, ih]

theorem encodeBytes_append (xs ys : List Byte) :
    encodeBytes code (xs ++ ys) = encodeBytes code xs ++ encodeBytes code ys := by
  induction xs with
  | nil => rfl
  | cons x xs ih => simp [encodeBytes, ih]

theorem firstUnknown_eq_none {k : Nat} {xs : List Byte} :
    firstUnknown code k xs = none ↔ ∀ x ∈ xs, (code.read x.toNat).len ≠ 0 := by
  induction xs generalizing k with
  | nil => simp [firstUnknown]
  | cons x xs ih =>
    unfold firstUnknown
    split
    · simp_all
    · simp_all

/-- The byte that UNKNOWN_SYMBOL reports has no code, and every byte before it has one (45_encoder.md R158). -/
theorem firstUnknown_eq_some {k j : Nat} {x : Byte} {xs : List Byte} (h : firstUnknown code k xs = some (j, x)) :
    ∃ n, j = k + n ∧ xs[n]? = some x ∧ (code.read x.toNat).len = 0 ∧
      ∀ m y, m < n → xs[m]? = some y → (code.read y.toNat).len ≠ 0 := by
  induction xs generalizing k with
  | nil => simp [firstUnknown] at h
  | cons y ys ih =>
    unfold firstUnknown at h
    split at h
    · rename_i hy
      cases h
      exact ⟨0, rfl, rfl, hy, by omega⟩
    · rename_i hy
      obtain ⟨n, hj, hx, hl, hm⟩ := ih h
      refine ⟨n + 1, by omega, by simpa using hx, hl, fun m z hmn hz => ?_⟩
      cases m with
      | zero => simp at hz; exact hz ▸ hy
      | succ m => exact hm m z (by omega) (by simpa using hz)

end

/-! ### Paths and the trial pass (46_decoder.md R175, R176) -/

section
variable {node : Memory NodeRec}

@[simp] theorem follow_nil (i : Nat) : follow node i [] = some (node.read i) := rfl

theorem follow_cons_leaf {i : Nat} {w : Weight} {x : Byte} (h : node.read i = .leaf w x) (b : Bool) (bs : List Bool) :
    follow node i (b :: bs) = none := by simp [follow, h]

theorem follow_cons_internal {i : Nat} {w : Weight} {l r : NodeIndex} (h : node.read i = .internal w l r) (b : Bool)
    (bs : List Bool) : follow node i (b :: bs) = follow node (if b then r else l).toNat bs := by simp [follow, h]

/-- A descent that starts below an Internal record and reaches a leaf emits its symbol and restarts at the root. -/
theorem trialPass_of_leaf {top : NodeIndex × NodeIndex} {i : Nat} {w w' : Weight} {l r : NodeIndex} {x : Byte}
    {cur : Option (NodeIndex × NodeIndex)} {p : List Bool} (hi : node.read i = .internal w l r)
    (hc : cur.getD top = (l, r)) (hf : follow node i p = some (.leaf w' x)) (bs : List Bool) :
    trialPass node top (p ++ bs) cur = (trialPass node top bs none).cons x := by
  induction p generalizing i w l r cur with
  | nil => rw [follow_nil, hi] at hf; cases hf
  | cons b p ih =>
    rw [follow_cons_internal hi] at hf
    rw [List.cons_append, trialPass]
    simp only [hc]
    split
    · rename_i w'' y hr
      cases p with
      | nil =>
        rw [follow_nil, hr] at hf
        cases hf
        rfl
      | cons b' p => rw [follow_cons_leaf hr] at hf; cases hf
    · rename_i w'' l' r' hr
      exact ih hr rfl hf

/-- A descent that ends at an Internal record after at least one bit is an underflow. -/
theorem trialPass_of_internal {top : NodeIndex × NodeIndex} {i : Nat} {w w' : Weight} {l r l' r' : NodeIndex}
    {cur : Option (NodeIndex × NodeIndex)} {p : List Bool} (hi : node.read i = .internal w l r)
    (hc : cur.getD top = (l, r)) (hp : p ≠ []) (hf : follow node i p = some (.internal w' l' r')) :
    trialPass node top p cur = .underflow 0 := by
  induction p generalizing i w l r cur with
  | nil => exact absurd rfl hp
  | cons b p ih =>
    rw [follow_cons_internal hi] at hf
    rw [trialPass]
    simp only [hc]
    split
    · rename_i w'' y hr
      cases p with
      | nil => rw [follow_nil, hr] at hf; cases hf
      | cons b' p => rw [follow_cons_leaf hr] at hf; cases hf
    · rename_i w'' l'' r'' hr
      cases p with
      | nil => rfl
      | cons b' p => exact ih hr rfl (by simp) hf

/-- Bits read below an Internal record reach a leaf after a part of them, or end on the way. -/
theorem follow_or_leaf {i : Nat} {w : Weight} {l r : NodeIndex} (hi : node.read i = .internal w l r) (bs : List Bool) :
    (∃ w' l' r', follow node i bs = some (.internal w' l' r')) ∨
      ∃ p rest w' x, bs = p ++ rest ∧ p ≠ [] ∧ follow node i p = some (.leaf w' x) := by
  induction bs generalizing i w l r with
  | nil => exact .inl ⟨w, l, r, by rw [follow_nil, hi]⟩
  | cons b bs ih =>
    cases hr : node.read (if b then r else l).toNat with
    | leaf w' x =>
      exact .inr ⟨[b], bs, w', x, rfl, by simp, by rw [follow_cons_internal hi, follow_nil, hr]⟩
    | internal w' l' r' =>
      rcases ih hr with ⟨w2, l2, r2, h⟩ | ⟨p, rest, w2, x, rfl, -, h⟩
      · exact .inl ⟨w2, l2, r2, by rw [follow_cons_internal hi]; exact h⟩
      · exact .inr ⟨b :: p, rest, w2, x, rfl, by simp, by rw [follow_cons_internal hi]; exact h⟩

@[simp] theorem Trial.cons_complete (x : Byte) (xs : List Byte) : Trial.cons x (.complete xs) = .complete (x :: xs) := rfl

@[simp] theorem Trial.cons_underflow (x : Byte) (n : Nat) : Trial.cons x (.underflow n) = .underflow (n + 1) := rfl

/-- A list of whole paths in front of the bits puts their symbols in front of the result. -/
theorem trialPass_of_paths {root : Nat} {w : Weight} {l r : NodeIndex} (hi : node.read root = .internal w l r)
    (ps : List (Byte × List Bool)) (hps : ∀ p ∈ ps, IsPathTo node root p.1 p.2) (bs : List Bool) :
    trialPass node (l, r) ((ps.map (·.2)).flatten ++ bs) none =
      ps.foldr (fun p t => Trial.cons p.1 t) (trialPass node (l, r) bs none) := by
  induction ps with
  | nil => rfl
  | cons p ps ih =>
    obtain ⟨w', hp⟩ := hps p (by simp)
    rw [List.map_cons, List.flatten_cons, List.append_assoc, trialPass_of_leaf hi rfl hp,
      ih fun q hq => hps q (List.mem_cons_of_mem _ hq), List.foldr_cons]

end

/-! ### The walk (43_code_table.md R121) -/

/-- The path bits v with the edges p after them, first edge first: the value part of a code (10_state.md R33). -/
def pathValue (v : CodeValue) (p : List Bool) : CodeValue := p.foldl (fun v b => (v <<< 1) ||| if b then 1 else 0) v

@[simp] theorem pathValue_nil (v : CodeValue) : pathValue v [] = v := rfl

@[simp] theorem pathValue_false (v : CodeValue) (p : List Bool) : pathValue v (false :: p) = pathValue (v <<< 1) p := by
  simp [pathValue]

@[simp] theorem pathValue_true (v : CodeValue) (p : List Bool) : pathValue v (true :: p) = pathValue (v <<< 1 ||| 1) p := by
  simp [pathValue]

section
variable {node : Memory NodeRec}

/-- What the walk leaves at a symbol: the length and value of a path to a leaf of it, if there is one, else what was there. -/
theorem walk_read {fuel i : Nat} {l : CodeLength} {v : CodeValue} {code code' : Memory CodeEntry}
    (h : walk node fuel i l v code = some code') (x : Byte) :
    (∃ p, IsPathTo node i x p ∧ p.length < fuel ∧ code'.read x.toNat = ⟨l + BitVec.ofNat 8 p.length, pathValue v p⟩) ∨
      ((∀ p, ¬ IsPathTo node i x p) ∧ code'.read x.toNat = code.read x.toNat) := by
  induction fuel generalizing i l v code code' with
  | zero => simp [walk] at h
  | succ fuel ih =>
    rw [walk] at h
    split at h
    · rename_i w y hr
      cases h
      by_cases hxy : x = y
      · subst hxy
        exact .inl ⟨[], ⟨w, by rw [follow_nil, hr]⟩, by simp, by simp⟩
      · refine .inr ⟨?_, Memory.read_write_other _ _ fun e => hxy (BitVec.eq_of_toNat_eq e)⟩
        rintro p ⟨w', hp⟩
        cases p with
        | nil => rw [follow_nil, hr] at hp; cases hp; exact hxy rfl
        | cons b p => rw [follow_cons_leaf hr] at hp; cases hp
    · rename_i w a b hr
      split at h
      · cases h
      · rename_i mid hmid
        have hlen : ∀ n : Nat, l + 1 + BitVec.ofNat 8 n = l + BitVec.ofNat 8 (n + 1) := fun n => by
          rw [BitVec.add_assoc, BitVec.add_comm 1, BitVec.ofNat_add]; rfl
        rcases ih h with ⟨p, ⟨w', hp⟩, hf, hc⟩ | ⟨hnr, hc⟩
        · refine .inl ⟨true :: p, ⟨w', by rw [follow_cons_internal hr]; exact hp⟩, by simpa using hf, ?_⟩
          rw [hc, hlen]; simp
        · rcases ih hmid with ⟨p, ⟨w', hp⟩, hf, hc'⟩ | ⟨hnl, hc'⟩
          · refine .inl ⟨false :: p, ⟨w', by rw [follow_cons_internal hr]; exact hp⟩, by simpa using hf, ?_⟩
            rw [hc, hc', hlen]; simp
          · refine .inr ⟨?_, by rw [hc, hc']⟩
            rintro p ⟨w', hp⟩
            cases p with
            | nil => rw [follow_nil, hr] at hp; cases hp
            | cons e p =>
              rw [follow_cons_internal hr] at hp
              cases e
              · exact hnl p ⟨w', hp⟩
              · exact hnr p ⟨w', hp⟩

/-- The walk keeps the canonical form and the 256 entries of CODE. -/
theorem walk_wf {fuel i : Nat} {l : CodeLength} {v : CodeValue} {code code' : Memory CodeEntry}
    (h : walk node fuel i l v code = some code') (hw : code.wf) (hb : code.below nSymMax) :
    code'.wf ∧ code'.below nSymMax := by
  induction fuel generalizing i l v code code' with
  | zero => simp [walk] at h
  | succ fuel ih =>
    rw [walk] at h
    split at h
    · rename_i w y hr
      cases h
      exact ⟨Memory.wf_write hw _ _, Memory.below_write hb _ y.isLt⟩
    · split at h
      · cases h
      · rename_i mid hmid
        obtain ⟨hw', hb'⟩ := ih hmid hw hb
        exact ih h hw' hb'

/-- The walk completes on records whose Internal ones have an index of at least n and smaller children: a path from record i
then has at most i - n + 1 edges. -/
theorem walk_completes {n size fuel i : Nat}
    (hchild : ∀ j w a b, j < size → node.read j = .internal w a b → n ≤ j ∧ a.toNat < j ∧ b.toNat < j)
    (hi : i < size) (hfuel : 1 ≤ fuel) (hdepth : i + 2 ≤ fuel + n) (l : CodeLength) (v : CodeValue)
    (code : Memory CodeEntry) : ∃ code', walk node fuel i l v code = some code' := by
  induction fuel generalizing i l v code with
  | zero => omega
  | succ fuel ih =>
    rw [walk]
    split
    · exact ⟨_, rfl⟩
    · rename_i w a b hr
      obtain ⟨hn, ha, hb⟩ := hchild i w a b hi hr
      obtain ⟨c, hc⟩ := ih (i := a.toNat) (by omega) (by omega) (by omega) (l + 1) (v <<< 1) code
      rw [hc]
      exact ih (by omega) (by omega) (by omega) _ _ _

/-- The walk reads only the records it reaches. -/
theorem walk_congr {node' : Memory NodeRec} {size fuel i : Nat}
    (hchild : ∀ j w a b, j < size → node.read j = .internal w a b → a.toNat < size ∧ b.toNat < size)
    (heq : ∀ j, j < size → node.read j = node'.read j) (hi : i < size) (l : CodeLength) (v : CodeValue)
    (code : Memory CodeEntry) : walk node fuel i l v code = walk node' fuel i l v code := by
  induction fuel generalizing i l v code with
  | zero => rfl
  | succ fuel ih =>
    rw [walk, walk, ← heq i hi]
    split
    · rfl
    · rename_i w a b hr
      obtain ⟨ha, hb⟩ := hchild i w a b hi hr
      rw [ih ha]
      split
      · rfl
      · exact ih hb _ _ _

/-- A code table is canonical and has 256 entries. -/
theorem deriveTable_wf {nnodes root : Nat} {code : Memory CodeEntry} (h : deriveTable node nnodes root = some code) :
    code.wf ∧ code.below nSymMax := by
  unfold deriveTable at h
  split at h
  · cases h
    exact ⟨Memory.wf_empty, Memory.below_empty _⟩
  · split at h
    · rename_i w y hr
      cases h
      exact ⟨Memory.wf_write Memory.wf_empty _ _, Memory.below_write (Memory.below_empty _) _ y.isLt⟩
    · exact walk_wf h Memory.wf_empty (Memory.below_empty _)

end

end Sys2Proof.Machine
end

