-- ==== Sys2Proof/Laws/Decode.lean ====
section
/-! SUPPORT. The laws of command words: fields of a word made of fields, the word made of its own fields, the row of each
opcode, and what a decoded word is. -/

namespace Sys2Proof

/-- The bits of a word, field by field (30_encoding.md R61). -/
theorem getLsbD_commandWord (op a : BitVec 8) (b : BitVec 16) (d : BitVec 32) (i : Nat) :
    (commandWord op a b d).getLsbD i =
      if i < 32 then d.getLsbD i else if i < 48 then b.getLsbD (i - 32)
      else if i < 56 then a.getLsbD (i - 48) else op.getLsbD (i - 56) := by
  show @BitVec.getLsbD (8 + 8 + 16 + 32) (op ++ a ++ b ++ d) i = _
  rw [BitVec.getLsbD_append, BitVec.getLsbD_append, BitVec.getLsbD_append]
  by_cases h1 : i < 32
  · simp [h1]
  · by_cases h2 : i < 48
    · simp [h1, h2, show i - 32 < 16 by omega]
    · by_cases h3 : i < 56
      · simp only [h1, h2, h3, show ¬ i - 32 < 16 by omega,
          show i - 32 - 16 = i - 48 by omega, show i - 48 < 8 by omega, ite_true, ite_false]
      · simp [h1, h2, h3, show ¬ i - 32 < 16 by omega, show ¬ i - 32 - 16 < 8 by omega,
          show i - 32 - 16 - 8 = i - 56 by omega]

@[simp] theorem opField_commandWord (op a : BitVec 8) (b : BitVec 16) (d : BitVec 32) :
    opField (commandWord op a b d) = op := by
  apply BitVec.eq_of_getLsbD_eq
  intro i hi
  rw [opField, BitVec.getLsbD_extractLsb', getLsbD_commandWord]
  simp [hi, show ¬ 56 + i < 32 by omega, show ¬ 56 + i < 48 by omega]

@[simp] theorem aField_commandWord (op a : BitVec 8) (b : BitVec 16) (d : BitVec 32) :
    aField (commandWord op a b d) = a := by
  apply BitVec.eq_of_getLsbD_eq
  intro i hi
  rw [aField, BitVec.getLsbD_extractLsb', getLsbD_commandWord]
  simp [hi, show ¬ 48 + i < 32 by omega, show 48 + i < 56 by omega]

@[simp] theorem bField_commandWord (op a : BitVec 8) (b : BitVec 16) (d : BitVec 32) :
    bField (commandWord op a b d) = b := by
  apply BitVec.eq_of_getLsbD_eq
  intro i hi
  rw [bField, BitVec.getLsbD_extractLsb', getLsbD_commandWord]
  simp [hi, show 32 + i < 48 by omega]

@[simp] theorem dField_commandWord (op a : BitVec 8) (b : BitVec 16) (d : BitVec 32) :
    dField (commandWord op a b d) = d := by
  apply BitVec.eq_of_getLsbD_eq
  intro i hi
  rw [dField, BitVec.getLsbD_extractLsb', getLsbD_commandWord]
  simp [hi]

/-- A word is the word of its fields (30_encoding.md R61). -/
theorem commandWord_fields (w : Word64) : commandWord (opField w) (aField w) (bField w) (dField w) = w := by
  apply BitVec.eq_of_getLsbD_eq
  intro i hi
  rw [getLsbD_commandWord]
  simp only [opField, aField, bField, dField, BitVec.getLsbD_extractLsb']
  by_cases h1 : i < 32
  · simp [h1]
  · by_cases h2 : i < 48
    · simp [h1, h2, show i - 32 < 16 by omega, show 32 + (i - 32) = i by omega]
    · by_cases h3 : i < 56
      · simp [h1, h2, h3, show i - 48 < 8 by omega, show 48 + (i - 48) = i by omega]
      · simp [h1, h2, h3, show i - 56 < 8 by omega, show 56 + (i - 56) = i by omega]

/-- Words with equal fields are equal, and the reverse. -/
theorem commandWord_inj {op op' a a' : BitVec 8} {b b' : BitVec 16} {d d' : BitVec 32} :
    commandWord op a b d = commandWord op' a' b' d' ↔ op = op' ∧ a = a' ∧ b = b' ∧ d = d' := by
  constructor
  · intro h
    exact ⟨by simpa using congrArg opField h, by simpa using congrArg aField h, by simpa using congrArg bField h,
      by simpa using congrArg dField h⟩
  · rintro ⟨rfl, rfl, rfl, rfl⟩; rfl

/-- A mask acts on each field by itself. -/
theorem commandWord_and (op op' a a' : BitVec 8) (b b' : BitVec 16) (d d' : BitVec 32) :
    commandWord op a b d &&& commandWord op' a' b' d' =
      commandWord (op &&& op') (a &&& a') (b &&& b') (d &&& d') := by
  apply BitVec.eq_of_getLsbD_eq
  intro i hi
  rw [BitVec.getLsbD_and, getLsbD_commandWord, getLsbD_commandWord, getLsbD_commandWord]
  split
  · rw [BitVec.getLsbD_and]
  · split
    · rw [BitVec.getLsbD_and]
    · split <;> rw [BitVec.getLsbD_and]

/-- The row found for an opcode is a row of the map with that opcode. -/
theorem rowOf_some {op : BitVec 8} {r : Row} (h : rowOf op = some r) : r ∈ opcodeMap ∧ r.op = op := by
  unfold rowOf at h
  exact ⟨List.mem_of_find?_eq_some h, by simpa using List.find?_some h⟩

/-- What a decoded word is: a row of the map, its reserved fields 0, its operands within their limits. -/
theorem decode_ok_cases {w : Word64} {i : Instr} (h : decode w = .ok i) :
    ∃ r, rowOf (opField w) = some r ∧ r.reservedSet w = false ∧ i = r.command (aField w) (bField w) (dField w) ∧
      i.wf = true := by
  unfold decode at h
  split at h
  · cases h
  · rename_i r hr
    split at h
    · cases h
    · rename_i hres
      dsimp only at h
      split at h
      · rename_i hw
        cases h
        exact ⟨r, hr, by simpa using hres, rfl, hw⟩
      · cases h

/-- A word decodes when its row's reserved fields are 0 and its operands are within their limits. -/
theorem decode_of_row {w : Word64} {r : Row} (hr : rowOf (opField w) = some r) (hres : r.reservedSet w = false)
    (hw : (r.command (aField w) (bField w) (dField w)).wf = true) :
    decode w = .ok (r.command (aField w) (bField w) (dField w)) := by
  unfold decode
  simp [hr, hres, hw]

/-- No two rows of the map have one opcode. -/
theorem opcodeMap_nodup : (opcodeMap.map (·.op)).Nodup := by decide

end Sys2Proof
end

