-- ==== Sys2Proof/Laws/Tree.lean ====
section
/-! SUPPORT. The laws of BUILD: the symbols present and their leaves, the selection of the least tree, and the induction
over the merge loop, packaged once in `mergeLoop_invariant`. -/

namespace Sys2Proof.Machine

/-! ### The symbols present and their leaves (42_tree_builder.md R101) -/

theorem mem_allSymbols (x : Byte) : x ∈ allSymbols := by
  refine List.mem_map.2 ⟨x.toNat, List.mem_range.2 x.isLt, ?_⟩
  simp

@[simp] theorem length_allSymbols : allSymbols.length = 256 := by simp [allSymbols]

/-- The scan is in ascending symbol value. -/
theorem allSymbols_sorted : allSymbols.Pairwise (fun x y => x.toNat < y.toNat) := by
  unfold allSymbols
  rw [List.pairwise_map]
  refine List.pairwise_lt_range.imp_of_mem fun ha hb h => ?_
  have ha : _ < 256 := List.mem_range.1 ha
  have hb : _ < 256 := List.mem_range.1 hb
  simp only [BitVec.toNat_ofNat]
  omega

section
variable (freq : Memory Count)

theorem mem_presentSymbols {x : Byte} : x ∈ presentSymbols freq ↔ freq.read x.toNat ≠ 0 := by
  simp [presentSymbols, mem_allSymbols]

theorem presentSymbols_sorted : (presentSymbols freq).Pairwise (fun x y => x.toNat < y.toNat) :=
  allSymbols_sorted.filter _

theorem presentSymbols_nodup : (presentSymbols freq).Nodup :=
  (presentSymbols_sorted freq).imp fun h e => by subst e; omega

theorem length_presentSymbols_le : (presentSymbols freq).length ≤ 256 :=
  length_allSymbols ▸ List.length_filter_le _ _

/-- The table is empty exactly when no symbol is present (41_frequency_table.md R90). -/
theorem presentSymbols_eq_nil : presentSymbols freq = [] ↔ ∀ x : Byte, freq.read x.toNat = 0 := by
  simp [presentSymbols, List.filter_eq_nil_iff, mem_allSymbols]

/-- The symbols present depend on the contents of the table alone. -/
theorem presentSymbols_congr {freq freq' : Memory Count} (h : ∀ x : Byte, freq.read x.toNat = freq'.read x.toNat) :
    presentSymbols freq = presentSymbols freq' := by
  unfold presentSymbols
  exact List.filter_congr fun x _ => by rw [h x]

/-- One leaf per symbol present, in that order, its count as weight. -/
theorem seedLeaves_eq :
    seedLeaves freq = (presentSymbols freq).map fun x => .leaf ((freq.read x.toNat).setWidth 40) x := by
  unfold seedLeaves presentSymbols
  induction allSymbols with
  | nil => rfl
  | cons x xs ih =>
    rw [List.filterMap_cons, List.filter_cons, ih]
    by_cases hx : freq.read x.toNat = 0#32 <;> simp [hx]

@[simp] theorem length_seedLeaves : (seedLeaves freq).length = (presentSymbols freq).length := by
  rw [seedLeaves_eq, List.length_map]

/-- The tree of a table depends on the contents of the table alone (42_tree_builder.md R106). -/
theorem buildTree_congr {freq freq' : Memory Count} (h : ∀ x : Byte, freq.read x.toNat = freq'.read x.toNat) :
    buildTree freq = buildTree freq' := by
  have hs : seedLeaves freq = seedLeaves freq' := by
    rw [seedLeaves_eq, seedLeaves_eq, presentSymbols_congr h]
    exact List.map_congr_left fun x _ => by rw [h x]
  unfold buildTree
  rw [hs]

end

@[simp] theorem length_seedTrees (i : Nat) (rs : List NodeRec) : (seedTrees i rs).length = rs.length := by
  induction rs generalizing i with
  | nil => rfl
  | cons r rs ih => simp [seedTrees, ih]

/-- Tree k of the first collection is record k. -/
theorem getElem_seedTrees (i : Nat) (rs : List NodeRec) (k : Nat) (h : k < (seedTrees i rs).length) :
    (seedTrees i rs)[k] = ⟨(rs[k]'(by simpa using h)).weight, i + k⟩ := by
  induction rs generalizing i k with
  | nil => simp at h
  | cons r rs ih =>
    cases k with
    | zero => rfl
    | succ k =>
      simp only [seedTrees, List.getElem_cons_succ]
      rw [ih (i + 1) k, Nat.add_assoc, Nat.add_comm 1 k]

/-! ### Selection (42_tree_builder.md R103) -/

/-- The order as a proposition. -/
theorem Tree.before_iff {t u : Tree} :
    t.before u = true ↔ t.weight.toNat < u.weight.toNat ∨ t.weight = u.weight ∧ t.root < u.root := by
  simp [Tree.before, BitVec.ult_eq_decide]

/-- Trees with different roots are ordered one way or the other. -/
theorem Tree.before_of_not_before {t u : Tree} (hr : t.root ≠ u.root) (h : u.before t = false) : t.before u = true := by
  rw [Tree.before_iff]
  have h' : ¬ (u.weight.toNat < t.weight.toNat ∨ u.weight = t.weight ∧ u.root < t.root) := by
    rw [← Tree.before_iff]; simp [h]
  rcases Nat.lt_trichotomy t.weight.toNat u.weight.toNat with hlt | heq | hgt
  · exact .inl hlt
  · have hw : t.weight = u.weight := BitVec.eq_of_toNat_eq heq
    refine .inr ⟨hw, ?_⟩
    have : ¬ u.root < t.root := fun hlt => h' (.inr ⟨hw.symm, hlt⟩)
    omega
  · exact absurd (.inl hgt) h'

theorem Tree.not_before_of_before {t u : Tree} (h : t.before u = true) : u.before t = false := by
  rw [Bool.eq_false_iff]
  intro h2
  rw [Tree.before_iff] at h h2
  rcases h with h | ⟨hw, hr⟩ <;> rcases h2 with h2 | ⟨hw2, hr2⟩
  · omega
  · rw [hw2] at h; omega
  · rw [hw] at h2; omega
  · omega

theorem Tree.before_trans {t u v : Tree} (h : u.before t = true) (h' : v.before t = false) : v.before u = false := by
  rw [Bool.eq_false_iff] at h' ⊢
  intro h2
  apply h'
  rw [Tree.before_iff] at *
  rcases h with h | ⟨hw, hr⟩ <;> rcases h2 with h2 | ⟨hw2, hr2⟩
  · exact .inl (by omega)
  · exact .inl (by rw [hw2]; omega)
  · exact .inl (by rw [← hw]; omega)
  · exact .inr ⟨hw2.trans hw, by omega⟩

/-- Selection takes one tree out of the collection and leaves the others. -/
theorem selectLeast_perm (t : Tree) (ts : List Tree) : ((selectLeast t ts).1 :: (selectLeast t ts).2).Perm (t :: ts) := by
  induction ts generalizing t with
  | nil => simp [selectLeast]
  | cons u us ih =>
    unfold selectLeast
    split
    · exact (List.Perm.swap _ _ _).trans ((ih u).cons t)
    · exact (List.Perm.swap _ _ _).trans (((ih t).cons u).trans (List.Perm.swap _ _ _))

/-- No tree of the collection is before the selected one. -/
theorem selectLeast_least (t : Tree) (ts : List Tree) : ∀ u ∈ t :: ts, u.before (selectLeast t ts).1 = false := by
  induction ts generalizing t with
  | nil =>
    intro u hu
    rw [List.mem_singleton.1 hu, Bool.eq_false_iff]
    intro h
    rw [selectLeast, Tree.before_iff] at h
    dsimp only at h
    omega
  | cons v vs ih =>
    intro u hu
    unfold selectLeast
    have key : ∀ a b : Tree, a.before b = false → ∀ us, (∀ x ∈ b :: us, x.before (selectLeast b us).1 = false) →
        a.before (selectLeast b us).1 = false := by
      intro a b hab us hx
      have hb := hx b (by simp)
      by_cases e : b.root = (selectLeast b us).1.root
      · have hle : ¬ b.weight.toNat < (selectLeast b us).1.weight.toNat := fun hlt => by
          rw [Bool.eq_false_iff] at hb
          exact hb (Tree.before_iff.2 (.inl hlt))
        rw [Bool.eq_false_iff] at hab ⊢
        intro h
        apply hab
        rw [Tree.before_iff] at h ⊢
        rcases h with h | ⟨hw, hr⟩
        · exact .inl (by omega)
        · rcases Nat.lt_or_ge a.weight.toNat b.weight.toNat with hlt | hge
          · exact .inl hlt
          · exact .inr ⟨BitVec.eq_of_toNat_eq (by rw [hw] at hge ⊢; omega), by omega⟩
      · exact Tree.before_trans (Tree.before_of_not_before (fun h => e h.symm) hb) hab
    split
    · rename_i hvt
      dsimp only
      rcases List.mem_cons.1 hu with rfl | hu
      · exact key u v (Tree.not_before_of_before hvt) vs (ih v)
      · exact ih v u hu
    · rename_i hvt
      dsimp only
      rcases List.mem_cons.1 hu with rfl | hu
      · exact ih u u (by simp)
      · rcases List.mem_cons.1 hu with rfl | hu
        · exact key u t (by simpa using hvt) vs (ih t)
        · exact ih t u (List.mem_cons_of_mem _ hu)

@[simp] theorem length_selectLeast (t : Tree) (ts : List Tree) : (selectLeast t ts).2.length = ts.length := by
  have := (selectLeast_perm t ts).length_eq
  simpa using this

/-! ### The merge loop (42_tree_builder.md R102) -/

/-- One merge: a and b are the two least trees of the collection, rest the others; the new record has the sum of their
weights, a on the left, b on the right. -/
structure Merge (live : List Tree) (nodes : List NodeRec) (live' : List Tree) (nodes' : List NodeRec)
    (a b : Tree) (rest : List Tree) : Prop where
  perm : (a :: b :: rest).Perm live
  least : ∀ u ∈ live, u.before a = false
  second : ∀ u ∈ b :: rest, u.before b = false
  live_eq : live' = ⟨a.weight + b.weight, nodes.length⟩ :: rest
  nodes_eq : nodes' = nodes ++ [.internal (a.weight + b.weight) (BitVec.ofNat 9 a.root) (BitVec.ofNat 9 b.root)]

/-- The induction over the merge loop: a property of the collection and the records that every merge keeps holds at the
end, where one tree is left and there is one record more for each merge. -/
theorem mergeLoop_invariant (P : List Tree → List NodeRec → Prop)
    (step : ∀ live nodes live' nodes' a b rest, Merge live nodes live' nodes' a b rest → P live nodes → P live' nodes')
    (fuel : Nat) (live : List Tree) (nodes : List NodeRec) (hne : live ≠ []) (hfuel : live.length ≤ fuel)
    (h : P live nodes) :
    ∃ t made, mergeLoop fuel live nodes = (nodes ++ made, [t]) ∧ made.length + 1 = live.length ∧
      P [t] (nodes ++ made) := by
  induction fuel generalizing live nodes with
  | zero => exact absurd (List.length_eq_zero_iff.1 (Nat.le_zero.1 hfuel)) hne
  | succ fuel ih =>
    cases live with
    | nil => exact absurd rfl hne
    | cons t ts =>
      unfold mergeLoop
      have hp := selectLeast_perm t ts
      have hl := selectLeast_least t ts
      generalize selectLeast t ts = first at hp hl
      dsimp only
      split
      · rename_i h2
        rw [h2] at hp
        have e := List.perm_singleton.1 hp.symm
        rw [e] at h
        refine ⟨first.1, [], by simp, by rw [e]; rfl, by simpa using h⟩
      · rename_i u us h2
        rw [h2] at hp
        have hp2 := selectLeast_perm u us
        have hl2 := selectLeast_least u us
        generalize selectLeast u us = second at hp2 hl2
        have hm : Merge (t :: ts) nodes (⟨first.1.weight + second.1.weight, nodes.length⟩ :: second.2)
            (nodes ++ [.internal (first.1.weight + second.1.weight) (BitVec.ofNat 9 first.1.root)
              (BitVec.ofNat 9 second.1.root)]) first.1 second.1 second.2 :=
          ⟨(hp2.cons _).trans hp, hl, fun v hv => hl2 v (hp2.subset hv), rfl, rfl⟩
        have hlen := hm.perm.length_eq
        simp only [List.length_cons] at hlen hfuel
        obtain ⟨r, made, h1, h3, h4⟩ := ih _ _ (by simp) (by simp only [List.length_cons]; omega)
          (step _ _ _ _ _ _ _ hm h)
        refine ⟨r, .internal (first.1.weight + second.1.weight) (BitVec.ofNat 9 first.1.root)
          (BitVec.ofNat 9 second.1.root) :: made, ?_, ?_, ?_⟩
        · rw [h1]; simp
        · simp only [List.length_cons] at h3 ⊢; omega
        · simpa using h4

/-- The tree of the empty table (42_tree_builder.md R105). -/
theorem buildTree_of_empty {freq : Memory Count} (h : presentSymbols freq = []) : buildTree freq = ([], 0) := by
  have hs : seedLeaves freq = [] := by rw [seedLeaves_eq, h]; rfl
  unfold buildTree
  rw [hs]
  rfl

/-- The tree of a non-empty table: the leaves, then one record for each merge, and a property that the merges keep. -/
theorem buildTree_invariant (freq : Memory Count) (h : presentSymbols freq ≠ []) (P : List Tree → List NodeRec → Prop)
    (step : ∀ live nodes live' nodes' a b rest, Merge live nodes live' nodes' a b rest → P live nodes → P live' nodes')
    (init : P (seedTrees 0 (seedLeaves freq)) (seedLeaves freq)) :
    ∃ t made, buildTree freq = (seedLeaves freq ++ made, t.root) ∧ made.length + 1 = (presentSymbols freq).length ∧
      P [t] (seedLeaves freq ++ made) := by
  have hne : seedTrees 0 (seedLeaves freq) ≠ [] := by
    intro e
    have := congrArg List.length e
    simp at this
    exact h this
  obtain ⟨t, made, h1, h2, h3⟩ := mergeLoop_invariant P step (seedLeaves freq).length _ _ hne (by simp) init
  refine ⟨t, made, ?_, by simpa using h2, h3⟩
  unfold buildTree
  dsimp only
  rw [h1]

/-- While merging, the last record is the root of a tree of the collection: at the end it is the root (10_state.md R17). -/
theorem buildTree_root (freq : Memory Count) (h : presentSymbols freq ≠ []) :
    (buildTree freq).1.length = 2 * (presentSymbols freq).length - 1 ∧
      (buildTree freq).2 = (buildTree freq).1.length - 1 := by
  obtain ⟨t, made, h1, h2, h3⟩ := buildTree_invariant freq h
    (fun live nodes => (∃ t ∈ live, t.root + 1 = nodes.length) ∧ ∀ t ∈ live, t.root + 1 ≤ nodes.length)
    (by
      rintro live nodes live' nodes' a b rest hm ⟨-, hle⟩
      rw [hm.live_eq, hm.nodes_eq]
      refine ⟨⟨_, List.mem_cons_self, by simp⟩, fun t ht => ?_⟩
      rcases List.mem_cons.1 ht with rfl | ht
      · simp
      · have := hle t (hm.perm.subset (by simp [ht]))
        simp; omega)
    (by
      have hpos : 0 < (presentSymbols freq).length := List.length_pos_iff.2 h
      refine ⟨⟨_, List.getElem_mem (n := (presentSymbols freq).length - 1) (by simp; omega), ?_⟩, fun t ht => ?_⟩
      · rw [getElem_seedTrees]; simp; omega
      · obtain ⟨k, hk, rfl⟩ := List.getElem_of_mem ht
        rw [getElem_seedTrees]
        simp at hk ⊢; omega)
  obtain ⟨⟨u, hu, hr⟩, -⟩ := h3
  obtain rfl := List.mem_singleton.1 hu
  rw [h1]
  simp at hr ⊢
  omega

/-- A tree has at most 511 records (00_scope.md R5). -/
theorem length_buildTree_le (freq : Memory Count) : (buildTree freq).1.length ≤ 511 := by
  by_cases h : presentSymbols freq = []
  · simp [buildTree_of_empty h]
  · have := (buildTree_root freq h).1
    have := length_presentSymbols_le freq
    omega

theorem buildTree_root_lt (freq : Memory Count) : (buildTree freq).2 < 511 := by
  by_cases h : presentSymbols freq = []
  · simp [buildTree_of_empty h]
  · have := (buildTree_root freq h).2
    have := length_buildTree_le freq
    have := (buildTree_root freq h).1
    have : 0 < (presentSymbols freq).length := List.length_pos_iff.2 h
    omega

end Sys2Proof.Machine
end

