-- ==== Sys2Proof/Laws/Forest.lean ====
section
/-! SUPPORT. What the merge loop of BUILD keeps: the records form a forest whose roots are the working collection, each
Internal record has the sum of its children's weights, and its children were the least trees when it was made. At the
end the forest is one tree (`buildTree_forest`). -/

namespace Sys2Proof.Machine

/-! ### A list of records as a memory -/

/-- The memory that holds the records of a list from index 0 on and nothing else. -/
def recordsOf (nodes : List NodeRec) : Memory NodeRec := Memory.cells 0 nodes

theorem read_recordsOf (nodes : List NodeRec) (k : Nat) : (recordsOf nodes).read k = nodes.getD k Memory.unlisted := by
  simp [recordsOf, Memory.read_cells]

theorem read_recordsOf_append {nodes more : List NodeRec} {k : Nat} (h : k < nodes.length) :
    (recordsOf (nodes ++ more)).read k = (recordsOf nodes).read k := by
  rw [read_recordsOf, read_recordsOf, List.getD_append _ _ _ _ h]

theorem read_recordsOf_new (nodes : List NodeRec) (r : NodeRec) : (recordsOf (nodes ++ [r])).read nodes.length = r := by
  simp [read_recordsOf]

theorem read_recordsOf_past {nodes : List NodeRec} {k : Nat} (h : nodes.length ≤ k) :
    (recordsOf nodes).read k = .leaf 0 0 := by
  rw [read_recordsOf, List.getD_eq_default _ _ h]
  rfl

/-- Internal records are listed ones. -/
theorem lt_of_internal {nodes : List NodeRec} {k : Nat} {w : Weight} {l r : NodeIndex}
    (h : (recordsOf nodes).read k = .internal w l r) : k < nodes.length := by
  by_contra hk
  rw [read_recordsOf_past (by omega)] at h
  cases h

/-- Memories that agree below k have the same children there. -/
theorem isChildOf_congr {m m' : Memory NodeRec} {i j : Nat} (h : m.read j = m'.read j) :
    IsChildOf m i j ↔ IsChildOf m' i j := by
  unfold IsChildOf
  rw [h]

/-- Memories that agree below k have the same working collection there. -/
theorem liveAt_congr {m m' : Memory NodeRec} {k i : Nat} (h : ∀ j, j < k → m.read j = m'.read j) :
    LiveAt m k i ↔ LiveAt m' k i := by
  unfold LiveAt
  exact and_congr_right fun _ => forall_congr' fun j => imp_congr_right fun hj => not_congr (isChildOf_congr (h j hj))

theorem keyLt_congr {m m' : Memory NodeRec} {i j : Nat} (hi : m.read i = m'.read i) (hj : m.read j = m'.read j) :
    KeyLt m i j ↔ KeyLt m' i j := by
  unfold KeyLt
  rw [hi, hj]

/-! ### The forest -/

/-- What holds of the working collection and the records at every moment of the merge loop. -/
structure Forest (total : Nat) (live : List Tree) (nodes : List NodeRec) : Prop where
  /-- A tree of the collection is a record, with that record's weight. -/
  root : ∀ t ∈ live, t.root < nodes.length ∧ ((recordsOf nodes).read t.root).weight = t.weight
  /-- No record is the root of two trees. -/
  nodup : (live.map (·.root)).Nodup
  /-- The roots are the records that are merged into no other. -/
  live_iff : ∀ i, (∃ t ∈ live, t.root = i) ↔ LiveAt (recordsOf nodes) nodes.length i
  /-- Children come before their parent, are two, and have the weight that the parent has. -/
  child : ∀ j w l r, (recordsOf nodes).read j = .internal w l r → l.toNat < j ∧ r.toNat < j ∧ l ≠ r ∧
    w.toNat = ((recordsOf nodes).read l.toNat).weight.toNat + ((recordsOf nodes).read r.toNat).weight.toNat
  /-- No record has two parents. -/
  parent : ∀ i j j', IsChildOf (recordsOf nodes) i j → IsChildOf (recordsOf nodes) i j' → j = j'
  /-- Children were the two least trees of the collection when their parent was made. -/
  least : ∀ k w l r, (recordsOf nodes).read k = .internal w l r →
    LiveAt (recordsOf nodes) k l.toNat ∧ LiveAt (recordsOf nodes) k r.toNat ∧
    (∀ i, LiveAt (recordsOf nodes) k i → i ≠ l.toNat → KeyLt (recordsOf nodes) l.toNat i) ∧
    (∀ i, LiveAt (recordsOf nodes) k i → i ≠ l.toNat → i ≠ r.toNat → KeyLt (recordsOf nodes) r.toNat i)
  /-- Every weight is positive. -/
  pos : ∀ j, j < nodes.length → 1 ≤ ((recordsOf nodes).read j).weight.toNat
  /-- The weights of the collection sum up to that of the table. -/
  sum : (live.map (·.weight.toNat)).sum = total
  /-- Indices fit 9 bits. -/
  size : nodes.length + live.length ≤ 512

/-- A merge keeps the forest. -/
theorem Forest.merge {total : Nat} (htotal : total < 2 ^ 40) {live live' : List Tree} {nodes nodes' : List NodeRec}
    {a b : Tree} {rest : List Tree} (hm : Merge live nodes live' nodes' a b rest) (h : Forest total live nodes) :
    Forest total live' nodes' := by
  obtain ⟨hperm, hleast, hsecond, rfl, rfl⟩ := hm
  have ha : a ∈ live := hperm.subset (by simp)
  have hb : b ∈ live := hperm.subset (by simp)
  have hrest : ∀ t ∈ rest, t ∈ live := fun t ht => hperm.subset (by simp [ht])
  have hnd : ((a :: b :: rest).map (·.root)).Nodup := (hperm.map _).nodup_iff.2 h.nodup
  simp only [List.map_cons, List.nodup_cons, List.mem_cons, List.mem_map, not_or, not_exists, not_and] at hnd
  obtain ⟨⟨hab, har⟩, hbr, hrn⟩ := hnd
  obtain ⟨hal, haw⟩ := h.root a ha
  obtain ⟨hbl, hbw⟩ := h.root b hb
  have hlen : rest.length + 2 = live.length := by simpa using hperm.length_eq
  have hsize := h.size
  have hsum : a.weight.toNat + (b.weight.toNat + (rest.map (·.weight.toNat)).sum) = total := by
    rw [← h.sum, ← (hperm.map _).sum_eq]; simp
  have hA : (BitVec.ofNat 9 a.root).toNat = a.root := by rw [BitVec.toNat_ofNat]; omega
  have hB : (BitVec.ofNat 9 b.root).toNat = b.root := by rw [BitVec.toNat_ofNat]; omega
  have hW : (a.weight + b.weight).toNat = a.weight.toNat + b.weight.toNat := by
    rw [BitVec.toNat_add]; omega
  generalize hnew : NodeRec.internal (a.weight + b.weight) (BitVec.ofNat 9 a.root) (BitVec.ofNat 9 b.root) = new
  have hold : ∀ k, k < nodes.length → (recordsOf (nodes ++ [new])).read k = (recordsOf nodes).read k :=
    fun k hk => read_recordsOf_append hk
  have hN : (recordsOf (nodes ++ [new])).read nodes.length = new := read_recordsOf_new _ _
  have hchild_old : ∀ i j, j < nodes.length →
      (IsChildOf (recordsOf (nodes ++ [new])) i j ↔ IsChildOf (recordsOf nodes) i j) :=
    fun i j hj => isChildOf_congr (hold j hj)
  have hchild_new : ∀ i, IsChildOf (recordsOf (nodes ++ [new])) i nodes.length ↔ i = a.root ∨ i = b.root := by
    intro i
    unfold IsChildOf
    rw [hN, ← hnew]
    constructor
    · rintro ⟨w, l, r, e, he⟩
      cases e
      rw [hA, hB] at he
      omega
    · intro he
      exact ⟨_, _, _, rfl, by rw [hA, hB]; omega⟩
  have hchild_lt : ∀ i j, IsChildOf (recordsOf (nodes ++ [new])) i j → j < nodes.length ∨ j = nodes.length := by
    rintro i j ⟨w, l, r, e, -⟩
    have := lt_of_internal e
    simp at this
    omega
  have hlive_old : ∀ k i, k ≤ nodes.length →
      (LiveAt (recordsOf (nodes ++ [new])) k i ↔ LiveAt (recordsOf nodes) k i) :=
    fun k i hk => liveAt_congr fun j hj => hold j (by omega)
  have hlive_iff : ∀ i, LiveAt (recordsOf nodes) nodes.length i ↔ i = a.root ∨ i = b.root ∨ ∃ t ∈ rest, t.root = i := by
    intro i
    rw [← h.live_iff i]
    constructor
    · rintro ⟨t, ht, rfl⟩
      rcases List.mem_cons.1 (hperm.symm.subset ht) with rfl | ht
      · exact .inl rfl
      · rcases List.mem_cons.1 ht with rfl | ht
        · exact .inr (.inl rfl)
        · exact .inr (.inr ⟨t, ht, rfl⟩)
    · rintro (rfl | rfl | ⟨t, ht, rfl⟩)
      · exact ⟨a, ha, rfl⟩
      · exact ⟨b, hb, rfl⟩
      · exact ⟨t, hrest t ht, rfl⟩
  have hkey : ∀ t u : Tree, t ∈ live → u ∈ live → t.root ≠ u.root → u.before t = false →
      KeyLt (recordsOf nodes) t.root u.root := by
    intro t u ht hu hne hbf
    have hw := Tree.before_iff.1 (Tree.before_of_not_before hne hbf)
    unfold KeyLt
    rw [(h.root t ht).2, (h.root u hu).2]
    exact hw
  constructor
  · intro t ht
    rcases List.mem_cons.1 ht with rfl | ht
    · exact ⟨by simp, by rw [hN, ← hnew]; rfl⟩
    · obtain ⟨h1, h2⟩ := h.root t (hrest t ht)
      exact ⟨by simp; omega, by rw [hold _ h1, h2]⟩
  · refine List.nodup_cons.2 ⟨?_, hrn⟩
    intro hmem
    obtain ⟨t, ht, e⟩ := List.mem_map.1 hmem
    have := (h.root t (hrest t ht)).1
    dsimp only at e
    omega
  · intro i
    constructor
    · rintro ⟨t, ht, rfl⟩
      rcases List.mem_cons.1 ht with rfl | ht
      · refine ⟨by simp, fun j _ hc => ?_⟩
        rcases hchild_lt _ j hc with hj | rfl
        · obtain ⟨w, l, r, e, he⟩ := (hchild_old _ j hj).1 hc
          obtain ⟨h1, h2, -⟩ := h.child j w l r e
          dsimp only at he
          omega
        · have := (hchild_new _).1 hc
          dsimp only at this
          omega
      · have hlv := (h.live_iff t.root).1 ⟨t, hrest t ht, rfl⟩
        refine ⟨by have := hlv.1; simp; omega, fun j _ hc => ?_⟩
        rcases hchild_lt _ j hc with hj | rfl
        · exact hlv.2 j hj ((hchild_old _ j hj).1 hc)
        · rcases (hchild_new _).1 hc with e | e
          · exact har t ht e
          · exact hbr t ht e
    · rintro ⟨hi, hnc⟩
      simp only [List.length_append, List.length_cons, List.length_nil] at hi hnc
      by_cases e : i = nodes.length
      · exact ⟨_, List.mem_cons_self, e.symm⟩
      · have hlv : LiveAt (recordsOf nodes) nodes.length i :=
          ⟨by omega, fun j hj hc => hnc j (by omega) ((hchild_old i j hj).2 hc)⟩
        have hnn := mt (hchild_new i).2 (hnc nodes.length (by omega))
        rcases (hlive_iff i).1 hlv with e | e | ⟨t, ht, rfl⟩
        · exact absurd (.inl e) hnn
        · exact absurd (.inr e) hnn
        · exact ⟨t, List.mem_cons_of_mem _ ht, rfl⟩
  · intro j w l r e
    have hj := lt_of_internal e
    simp only [List.length_append, List.length_cons, List.length_nil] at hj
    by_cases hjn : j = nodes.length
    · subst hjn
      rw [hN, ← hnew] at e
      cases e
      rw [hA, hB]
      refine ⟨hal, hbl, fun e => hab ?_, ?_⟩
      · rw [← hA, ← hB, e]
      · rw [hold _ hal, hold _ hbl, haw, hbw, hW]
    · rw [hold j (by omega)] at e
      obtain ⟨h1, h2, h3, h4⟩ := h.child j w l r e
      exact ⟨h1, h2, h3, by rw [hold _ (by omega), hold _ (by omega), h4]⟩
  · intro i j j' hj hj'
    have hroot : ∀ k, k < nodes.length → IsChildOf (recordsOf nodes) i k → ¬ (i = a.root ∨ i = b.root) := by
      intro k hk hc hi
      have hlv : LiveAt (recordsOf nodes) nodes.length i := (hlive_iff i).2 (by tauto)
      exact hlv.2 k hk hc
    rcases hchild_lt i j hj with h1 | rfl <;> rcases hchild_lt i j' hj' with h2 | rfl
    · exact h.parent i j j' ((hchild_old i j h1).1 hj) ((hchild_old i j' h2).1 hj')
    · exact absurd ((hchild_new i).1 hj') (hroot j h1 ((hchild_old i j h1).1 hj))
    · exact absurd ((hchild_new i).1 hj) (hroot j' h2 ((hchild_old i j' h2).1 hj'))
    · rfl
  · intro k w l r e
    have hk := lt_of_internal e
    simp only [List.length_append, List.length_cons, List.length_nil] at hk
    by_cases hkn : k = nodes.length
    · subst hkn
      rw [hN, ← hnew] at e
      cases e
      rw [hA, hB]
      have hla : LiveAt (recordsOf nodes) nodes.length a.root := (hlive_iff _).2 (.inl rfl)
      have hlb : LiveAt (recordsOf nodes) nodes.length b.root := (hlive_iff _).2 (.inr (.inl rfl))
      refine ⟨(hlive_old _ _ le_rfl).2 hla, (hlive_old _ _ le_rfl).2 hlb, fun i hi hia => ?_, fun i hi hia hib => ?_⟩
      · have hi := (hlive_old _ _ le_rfl).1 hi
        rw [keyLt_congr (hold _ hal) (hold _ hi.1)]
        obtain ⟨t, ht, rfl⟩ := (h.live_iff i).2 hi
        exact hkey a t ha ht (Ne.symm hia) (hleast t ht)
      · have hi := (hlive_old _ _ le_rfl).1 hi
        rw [keyLt_congr (hold _ hbl) (hold _ hi.1)]
        rcases (hlive_iff i).1 hi with e | e | ⟨t, ht, rfl⟩
        · exact absurd e hia
        · exact absurd e hib
        · exact hkey b t hb (hrest t ht) (Ne.symm hib) (hsecond t (List.mem_cons_of_mem _ ht))
    · have hk' : k < nodes.length := by omega
      rw [hold k hk'] at e
      obtain ⟨h1, h2, h3, h4⟩ := h.least k w l r e
      refine ⟨(hlive_old _ _ (by omega)).2 h1, (hlive_old _ _ (by omega)).2 h2, fun i hi hil => ?_,
        fun i hi hil hir => ?_⟩
      · have hi := (hlive_old _ _ (by omega)).1 hi
        rw [keyLt_congr (hold _ (by have := h1.1; omega)) (hold _ (by have := hi.1; omega))]
        exact h3 i hi hil
      · have hi := (hlive_old _ _ (by omega)).1 hi
        rw [keyLt_congr (hold _ (by have := h2.1; omega)) (hold _ (by have := hi.1; omega))]
        exact h4 i hi hil hir
  · intro j hj
    simp only [List.length_append, List.length_cons, List.length_nil] at hj
    by_cases hjn : j = nodes.length
    · subst hjn
      rw [hN, ← hnew]
      have h1 := h.pos a.root hal
      have h2 := h.pos b.root hbl
      rw [haw] at h1
      show 1 ≤ (a.weight + b.weight).toNat
      omega
    · rw [hold j (by omega)]
      exact h.pos j (by omega)
  · rw [List.map_cons, List.sum_cons, hW]
    omega
  · simp only [List.length_append, List.length_cons, List.length_nil]
    omega

/-- The leaves are a forest. -/
theorem forest_seed (freq : Memory Count) :
    Forest ((presentSymbols freq).map fun x => (freq.read x.toNat).toNat).sum (seedTrees 0 (seedLeaves freq))
      (seedLeaves freq) := by
  have hleaf : ∀ j, ∃ w x, (recordsOf (seedLeaves freq)).read j = .leaf w x := by
    intro j
    by_cases hj : j < (seedLeaves freq).length
    · rw [read_recordsOf, List.getD_eq_getElem _ _ hj]
      simp only [seedLeaves_eq, List.getElem_map]
      exact ⟨_, _, rfl⟩
    · exact ⟨0, 0, read_recordsOf_past (by omega)⟩
  have hno : ∀ i j, ¬ IsChildOf (recordsOf (seedLeaves freq)) i j := by
    rintro i j ⟨w, l, r, e, -⟩
    obtain ⟨w', x, e'⟩ := hleaf j
    rw [e'] at e
    cases e
  have hroots : ∀ i (rs : List NodeRec), (seedTrees i rs).map (·.root) = List.range' i rs.length := by
    intro i rs
    induction rs generalizing i with
    | nil => rfl
    | cons r rs ih => simp [seedTrees, ih, List.range'_succ]
  have hweights : ∀ i (rs : List NodeRec), (seedTrees i rs).map (·.weight.toNat) = rs.map (·.weight.toNat) := by
    intro i rs
    induction rs generalizing i with
    | nil => rfl
    | cons r rs ih => simp [seedTrees, ih]
  have hlen := length_presentSymbols_le freq
  constructor
  · intro t ht
    obtain ⟨k, hk, rfl⟩ := List.getElem_of_mem ht
    rw [getElem_seedTrees]
    have hk' : k < (seedLeaves freq).length := by simpa using hk
    refine ⟨by simpa using hk', ?_⟩
    rw [read_recordsOf, Nat.zero_add, List.getD_eq_getElem _ _ hk']
  · rw [hroots]
    exact List.nodup_range'
  · intro i
    constructor
    · rintro ⟨t, ht, rfl⟩
      obtain ⟨k, hk, rfl⟩ := List.getElem_of_mem ht
      rw [getElem_seedTrees]
      exact ⟨by simpa using hk, fun j _ => hno _ _⟩
    · rintro ⟨hi, -⟩
      have hi' : i < (seedTrees 0 (seedLeaves freq)).length := by simpa using hi
      exact ⟨_, List.getElem_mem hi', by rw [getElem_seedTrees]; simp⟩
  · intro j w l r e
    obtain ⟨w', x, e'⟩ := hleaf j
    rw [e'] at e
    cases e
  · intro i j j' h
    exact absurd h (hno _ _)
  · intro j w l r e
    obtain ⟨w', x, e'⟩ := hleaf j
    rw [e'] at e
    cases e
  · intro j hj
    rw [read_recordsOf, List.getD_eq_getElem _ _ hj]
    simp only [seedLeaves_eq, List.getElem_map, NodeRec.weight, BitVec.toNat_setWidth]
    have hj' : j < (presentSymbols freq).length := by simpa using hj
    have hne := (mem_presentSymbols freq).1 (List.getElem_mem hj')
    have hlt := (freq.read (presentSymbols freq)[j].toNat).isLt
    have : (freq.read (presentSymbols freq)[j].toNat).toNat ≠ 0 := fun e => hne (BitVec.eq_of_toNat_eq (by simpa using e))
    omega
  · rw [hweights, seedLeaves_eq, List.map_map]
    congr 1
  · simp only [length_seedTrees, length_seedLeaves]
    omega

/-- The weights of a table sum up to less than 2^40 (00_scope.md R5). -/
theorem tableTotal_lt (freq : Memory Count) :
    ((presentSymbols freq).map fun x => (freq.read x.toNat).toNat).sum < 2 ^ 40 := by
  have h : ∀ xs : List Byte, (xs.map fun x => (freq.read x.toNat).toNat).sum ≤ xs.length * (2 ^ 32 - 1) := by
    intro xs
    induction xs with
    | nil => simp
    | cons x xs ih =>
      have hlt := (freq.read x.toNat).isLt
      simp only [List.map_cons, List.sum_cons, List.length_cons]
      omega
  have h1 := h (presentSymbols freq)
  have h2 := length_presentSymbols_le freq
  omega

/-- The tree of a non-empty table: the leaves, then the merges, a forest of the one tree with that root. -/
theorem buildTree_forest (freq : Memory Count) (h : presentSymbols freq ≠ []) :
    ∃ t made, buildTree freq = (seedLeaves freq ++ made, t.root) ∧ made.length + 1 = (presentSymbols freq).length ∧
      Forest ((presentSymbols freq).map fun x => (freq.read x.toNat).toNat).sum [t] (seedLeaves freq ++ made) :=
  buildTree_invariant freq h _ (fun _ _ _ _ _ _ _ hm hf => hf.merge (tableTotal_lt freq) hm) (forest_seed freq)

end Sys2Proof.Machine
end

