-- ==== Sys2Proof/Laws/State.lean ====
section
/-! SUPPORT. What each named update of the state does to each field, so that no proof unfolds a record update. -/

namespace Sys2Proof.Machine

variable (s : State)

/-! `return OK` writes the response alone. -/

@[simp] theorem State.responded_tv (d : Word64) :
    (s.responded d).tv = s.tv := rfl
@[simp] theorem State.responded_cv (d : Word64) :
    (s.responded d).cv = s.cv := rfl
@[simp] theorem State.responded_errflags (d : Word64) :
    (s.responded d).errflags = s.errflags := rfl
@[simp] theorem State.responded_nnodes (d : Word64) :
    (s.responded d).nnodes = s.nnodes := rfl
@[simp] theorem State.responded_root (d : Word64) :
    (s.responded d).root = s.root := rfl
@[simp] theorem State.responded_srclen (d : Word64) :
    (s.responded d).srclen = s.srclen := rfl
@[simp] theorem State.responded_bitlen (d : Word64) :
    (s.responded d).bitlen = s.bitlen := rfl
@[simp] theorem State.responded_dstlen (d : Word64) :
    (s.responded d).dstlen = s.dstlen := rfl
@[simp] theorem State.responded_freq (d : Word64) :
    (s.responded d).freq = s.freq := rfl
@[simp] theorem State.responded_node (d : Word64) :
    (s.responded d).node = s.node := rfl
@[simp] theorem State.responded_code (d : Word64) :
    (s.responded d).code = s.code := rfl
@[simp] theorem State.responded_src (d : Word64) :
    (s.responded d).src = s.src := rfl
@[simp] theorem State.responded_bits (d : Word64) :
    (s.responded d).bits = s.bits := rfl
@[simp] theorem State.responded_dst (d : Word64) :
    (s.responded d).dst = s.dst := rfl
@[simp] theorem State.responded_cfg (d : Word64) :
    (s.responded d).cfg = s.cfg := rfl
@[simp] theorem State.responded_inputs (d : Word64) :
    (s.responded d).inputs = s.inputs := rfl
@[simp] theorem State.responded_rsp (d : Word64) :
    (s.responded d).rsp = some ⟨.ok, d⟩ := rfl

/-! `raise` writes the response and ERRFLAGS alone. -/

@[simp] theorem State.failed_tv (f : Failure) (d : Word64) :
    (s.failed f d).tv = s.tv := rfl
@[simp] theorem State.failed_cv (f : Failure) (d : Word64) :
    (s.failed f d).cv = s.cv := rfl
@[simp] theorem State.failed_errflags (f : Failure) (d : Word64) :
    (s.failed f d).errflags = setErr s.errflags f := rfl
@[simp] theorem State.failed_nnodes (f : Failure) (d : Word64) :
    (s.failed f d).nnodes = s.nnodes := rfl
@[simp] theorem State.failed_root (f : Failure) (d : Word64) :
    (s.failed f d).root = s.root := rfl
@[simp] theorem State.failed_srclen (f : Failure) (d : Word64) :
    (s.failed f d).srclen = s.srclen := rfl
@[simp] theorem State.failed_bitlen (f : Failure) (d : Word64) :
    (s.failed f d).bitlen = s.bitlen := rfl
@[simp] theorem State.failed_dstlen (f : Failure) (d : Word64) :
    (s.failed f d).dstlen = s.dstlen := rfl
@[simp] theorem State.failed_freq (f : Failure) (d : Word64) :
    (s.failed f d).freq = s.freq := rfl
@[simp] theorem State.failed_node (f : Failure) (d : Word64) :
    (s.failed f d).node = s.node := rfl
@[simp] theorem State.failed_code (f : Failure) (d : Word64) :
    (s.failed f d).code = s.code := rfl
@[simp] theorem State.failed_src (f : Failure) (d : Word64) :
    (s.failed f d).src = s.src := rfl
@[simp] theorem State.failed_bits (f : Failure) (d : Word64) :
    (s.failed f d).bits = s.bits := rfl
@[simp] theorem State.failed_dst (f : Failure) (d : Word64) :
    (s.failed f d).dst = s.dst := rfl
@[simp] theorem State.failed_cfg (f : Failure) (d : Word64) :
    (s.failed f d).cfg = s.cfg := rfl
@[simp] theorem State.failed_inputs (f : Failure) (d : Word64) :
    (s.failed f d).inputs = s.inputs := rfl
@[simp] theorem State.failed_rsp (f : Failure) (d : Word64) :
    (s.failed f d).rsp = some ⟨.failed f, d⟩ := rfl

/-! Invalidation clears TV and CV alone. -/

@[simp] theorem State.invalidateTree_tv :
    (s.invalidateTree).tv = false := rfl
@[simp] theorem State.invalidateTree_cv :
    (s.invalidateTree).cv = false := rfl
@[simp] theorem State.invalidateTree_errflags :
    (s.invalidateTree).errflags = s.errflags := rfl
@[simp] theorem State.invalidateTree_nnodes :
    (s.invalidateTree).nnodes = s.nnodes := rfl
@[simp] theorem State.invalidateTree_root :
    (s.invalidateTree).root = s.root := rfl
@[simp] theorem State.invalidateTree_srclen :
    (s.invalidateTree).srclen = s.srclen := rfl
@[simp] theorem State.invalidateTree_bitlen :
    (s.invalidateTree).bitlen = s.bitlen := rfl
@[simp] theorem State.invalidateTree_dstlen :
    (s.invalidateTree).dstlen = s.dstlen := rfl
@[simp] theorem State.invalidateTree_freq :
    (s.invalidateTree).freq = s.freq := rfl
@[simp] theorem State.invalidateTree_node :
    (s.invalidateTree).node = s.node := rfl
@[simp] theorem State.invalidateTree_code :
    (s.invalidateTree).code = s.code := rfl
@[simp] theorem State.invalidateTree_src :
    (s.invalidateTree).src = s.src := rfl
@[simp] theorem State.invalidateTree_bits :
    (s.invalidateTree).bits = s.bits := rfl
@[simp] theorem State.invalidateTree_dst :
    (s.invalidateTree).dst = s.dst := rfl
@[simp] theorem State.invalidateTree_cfg :
    (s.invalidateTree).cfg = s.cfg := rfl
@[simp] theorem State.invalidateTree_inputs :
    (s.invalidateTree).inputs = s.inputs := rfl
@[simp] theorem State.invalidateTree_rsp :
    (s.invalidateTree).rsp = s.rsp := rfl

/-! Reset of the registers, the flags and FREQ. -/

@[simp] theorem State.cleared_tv :
    (s.cleared).tv = false := rfl
@[simp] theorem State.cleared_cv :
    (s.cleared).cv = false := rfl
@[simp] theorem State.cleared_errflags :
    (s.cleared).errflags = 0 := rfl
@[simp] theorem State.cleared_nnodes :
    (s.cleared).nnodes = 0 := rfl
@[simp] theorem State.cleared_root :
    (s.cleared).root = 0 := rfl
@[simp] theorem State.cleared_srclen :
    (s.cleared).srclen = 0 := rfl
@[simp] theorem State.cleared_bitlen :
    (s.cleared).bitlen = 0 := rfl
@[simp] theorem State.cleared_dstlen :
    (s.cleared).dstlen = 0 := rfl
@[simp] theorem State.cleared_freq :
    (s.cleared).freq = Memory.empty := rfl
@[simp] theorem State.cleared_node :
    (s.cleared).node = s.node := rfl
@[simp] theorem State.cleared_code :
    (s.cleared).code = s.code := rfl
@[simp] theorem State.cleared_src :
    (s.cleared).src = s.src := rfl
@[simp] theorem State.cleared_bits :
    (s.cleared).bits = s.bits := rfl
@[simp] theorem State.cleared_dst :
    (s.cleared).dst = s.dst := rfl
@[simp] theorem State.cleared_cfg :
    (s.cleared).cfg = s.cfg := rfl
@[simp] theorem State.cleared_inputs :
    (s.cleared).inputs = s.inputs := rfl
@[simp] theorem State.cleared_rsp :
    (s.cleared).rsp = s.rsp := rfl

/-! Hardware reset. -/

@[simp] theorem State.hardReset_tv :
    (s.hardReset).tv = false := rfl
@[simp] theorem State.hardReset_cv :
    (s.hardReset).cv = false := rfl
@[simp] theorem State.hardReset_errflags :
    (s.hardReset).errflags = 0 := rfl
@[simp] theorem State.hardReset_nnodes :
    (s.hardReset).nnodes = 0 := rfl
@[simp] theorem State.hardReset_root :
    (s.hardReset).root = 0 := rfl
@[simp] theorem State.hardReset_srclen :
    (s.hardReset).srclen = 0 := rfl
@[simp] theorem State.hardReset_bitlen :
    (s.hardReset).bitlen = 0 := rfl
@[simp] theorem State.hardReset_dstlen :
    (s.hardReset).dstlen = 0 := rfl
@[simp] theorem State.hardReset_freq :
    (s.hardReset).freq = Memory.empty := rfl
@[simp] theorem State.hardReset_node :
    (s.hardReset).node = s.node := rfl
@[simp] theorem State.hardReset_code :
    (s.hardReset).code = s.code := rfl
@[simp] theorem State.hardReset_src :
    (s.hardReset).src = s.src := rfl
@[simp] theorem State.hardReset_bits :
    (s.hardReset).bits = s.bits := rfl
@[simp] theorem State.hardReset_dst :
    (s.hardReset).dst = s.dst := rfl
@[simp] theorem State.hardReset_cfg :
    (s.hardReset).cfg = s.cfg := rfl
@[simp] theorem State.hardReset_inputs :
    (s.hardReset).inputs = s.inputs := rfl
@[simp] theorem State.hardReset_rsp :
    (s.hardReset).rsp = none := rfl

/-! Presenting an input changes the inputs alone. -/

@[simp] theorem State.present_tv (x : HostInput) :
    (s.present x).tv = s.tv := rfl
@[simp] theorem State.present_cv (x : HostInput) :
    (s.present x).cv = s.cv := rfl
@[simp] theorem State.present_errflags (x : HostInput) :
    (s.present x).errflags = s.errflags := rfl
@[simp] theorem State.present_nnodes (x : HostInput) :
    (s.present x).nnodes = s.nnodes := rfl
@[simp] theorem State.present_root (x : HostInput) :
    (s.present x).root = s.root := rfl
@[simp] theorem State.present_srclen (x : HostInput) :
    (s.present x).srclen = s.srclen := rfl
@[simp] theorem State.present_bitlen (x : HostInput) :
    (s.present x).bitlen = s.bitlen := rfl
@[simp] theorem State.present_dstlen (x : HostInput) :
    (s.present x).dstlen = s.dstlen := rfl
@[simp] theorem State.present_freq (x : HostInput) :
    (s.present x).freq = s.freq := rfl
@[simp] theorem State.present_node (x : HostInput) :
    (s.present x).node = s.node := rfl
@[simp] theorem State.present_code (x : HostInput) :
    (s.present x).code = s.code := rfl
@[simp] theorem State.present_src (x : HostInput) :
    (s.present x).src = s.src := rfl
@[simp] theorem State.present_bits (x : HostInput) :
    (s.present x).bits = s.bits := rfl
@[simp] theorem State.present_dst (x : HostInput) :
    (s.present x).dst = s.dst := rfl
@[simp] theorem State.present_cfg (x : HostInput) :
    (s.present x).cfg = s.cfg := rfl
@[simp] theorem State.present_inputs (x : HostInput) :
    (s.present x).inputs = x :: s.inputs := rfl
@[simp] theorem State.present_rsp (x : HostInput) :
    (s.present x).rsp = s.rsp := rfl

/-! ENCODE writes BITS and BITLEN alone. -/

@[simp] theorem State.putBits_tv (bs : List Bool) :
    (s.putBits bs).tv = s.tv := rfl
@[simp] theorem State.putBits_cv (bs : List Bool) :
    (s.putBits bs).cv = s.cv := rfl
@[simp] theorem State.putBits_errflags (bs : List Bool) :
    (s.putBits bs).errflags = s.errflags := rfl
@[simp] theorem State.putBits_nnodes (bs : List Bool) :
    (s.putBits bs).nnodes = s.nnodes := rfl
@[simp] theorem State.putBits_root (bs : List Bool) :
    (s.putBits bs).root = s.root := rfl
@[simp] theorem State.putBits_srclen (bs : List Bool) :
    (s.putBits bs).srclen = s.srclen := rfl
@[simp] theorem State.putBits_bitlen (bs : List Bool) :
    (s.putBits bs).bitlen = BitVec.ofNat 32 bs.length := rfl
@[simp] theorem State.putBits_dstlen (bs : List Bool) :
    (s.putBits bs).dstlen = s.dstlen := rfl
@[simp] theorem State.putBits_freq (bs : List Bool) :
    (s.putBits bs).freq = s.freq := rfl
@[simp] theorem State.putBits_node (bs : List Bool) :
    (s.putBits bs).node = s.node := rfl
@[simp] theorem State.putBits_code (bs : List Bool) :
    (s.putBits bs).code = s.code := rfl
@[simp] theorem State.putBits_src (bs : List Bool) :
    (s.putBits bs).src = s.src := rfl
@[simp] theorem State.putBits_bits (bs : List Bool) :
    (s.putBits bs).bits = s.bits.writeBlock 0 bs := rfl
@[simp] theorem State.putBits_dst (bs : List Bool) :
    (s.putBits bs).dst = s.dst := rfl
@[simp] theorem State.putBits_cfg (bs : List Bool) :
    (s.putBits bs).cfg = s.cfg := rfl
@[simp] theorem State.putBits_inputs (bs : List Bool) :
    (s.putBits bs).inputs = s.inputs := rfl
@[simp] theorem State.putBits_rsp (bs : List Bool) :
    (s.putBits bs).rsp = s.rsp := rfl

/-! The state after reset. -/

@[simp] theorem State.resetWith_tv (c : Config) : (State.resetWith c).tv = false := rfl
@[simp] theorem State.resetWith_cv (c : Config) : (State.resetWith c).cv = false := rfl
@[simp] theorem State.resetWith_errflags (c : Config) : (State.resetWith c).errflags = 0 := rfl
@[simp] theorem State.resetWith_nnodes (c : Config) : (State.resetWith c).nnodes = 0 := rfl
@[simp] theorem State.resetWith_root (c : Config) : (State.resetWith c).root = 0 := rfl
@[simp] theorem State.resetWith_srclen (c : Config) : (State.resetWith c).srclen = 0 := rfl
@[simp] theorem State.resetWith_bitlen (c : Config) : (State.resetWith c).bitlen = 0 := rfl
@[simp] theorem State.resetWith_dstlen (c : Config) : (State.resetWith c).dstlen = 0 := rfl
@[simp] theorem State.resetWith_freq (c : Config) : (State.resetWith c).freq = Memory.empty := rfl
@[simp] theorem State.resetWith_node (c : Config) : (State.resetWith c).node = Memory.empty := rfl
@[simp] theorem State.resetWith_code (c : Config) : (State.resetWith c).code = Memory.empty := rfl
@[simp] theorem State.resetWith_src (c : Config) : (State.resetWith c).src = Memory.empty := rfl
@[simp] theorem State.resetWith_bits (c : Config) : (State.resetWith c).bits = Memory.empty := rfl
@[simp] theorem State.resetWith_dst (c : Config) : (State.resetWith c).dst = Memory.empty := rfl
@[simp] theorem State.resetWith_cfg (c : Config) : (State.resetWith c).cfg = c := rfl
@[simp] theorem State.resetWith_inputs (c : Config) : (State.resetWith c).inputs = [] := rfl
@[simp] theorem State.resetWith_rsp (c : Config) : (State.resetWith c).rsp = none := rfl

/-! Taking an input. -/

@[simp] theorem State.takeInput_present (x : HostInput) : (s.present x).takeInput = some (x, s) := rfl

theorem State.takeInput_nil (h : s.inputs = []) : s.takeInput = none := by simp [State.takeInput, h]

theorem State.takeInput_cons {x : HostInput} {rest : List HostInput} (h : s.inputs = x :: rest) :
    s.takeInput = some (x, { s with inputs := rest }) := by simp [State.takeInput, h]

end Sys2Proof.Machine
end

