-- ==== Sys2Proof/Laws/Ops.lean ====
section
/-! SUPPORT. What each meaning and each shared operation can answer, said once: a proof cites the lemma of the command
instead of unfolding its meaning. `exec_failed_or_ok` says it for all commands, `submit_of_decode` and `submit_of_error` for a presented word,
`session_cons` and `session_append` for sessions. -/

namespace Sys2Proof.Machine

/-! ### The two ends of a command -/

@[simp] theorem ok_eq_next {d : Word64} {s t : State} : ok d s = .next t ↔ t = s.responded d := by
  simp [ok, eq_comm]

@[simp] theorem raise_eq_next {f : Failure} {info : Word64} {s t : State} :
    raise f info s = .next t ↔ t = s.failed f info := by
  simp [raise, eq_comm]

@[simp] theorem State.responded_responded (s : State) (d d' : Word64) :
    (s.responded d).responded d' = s.responded d' := rfl

@[simp] theorem State.failed_responded (s : State) (f : Failure) (d info : Word64) :
    (s.responded d).failed f info = s.failed f info := rfl

/-- The bit of ERRFLAGS is sticky, so the same failure twice is the failure once (10_state.md R15). -/
@[simp] theorem setErr_setErr (e : BitVec 8) (f : Failure) : setErr (setErr e f) f = setErr e f := by
  simp [setErr, BitVec.or_assoc]

@[simp] theorem State.failed_failed_same (s : State) (f : Failure) (info info' : Word64) :
    (s.failed f info).failed f info' = s.failed f info' := by
  simp [State.failed]

/-- The bit of a failure is bit k for its code k, and so never bit 0 (10_state.md R15). -/
theorem setErr_bit_zero (e : BitVec 8) (f : Failure) : (setErr e f).getLsbD 0 = e.getLsbD 0 := by
  cases f <;> simp [setErr, Failure.errBit, Failure.code]

theorem State.failed_ne_responded {s u : State} {f : Failure} {info d : Word64} : s.failed f info ≠ u.responded d := by
  intro h
  have := congrArg State.rsp h
  simp at this

/-! ### What each command can answer -/

section
variable {s t : State}

theorem execRdreg_cases {r : BitVec 8} (h : execRdreg r s = .next t) :
    (statusRegister s r = none ∧ t = s.failed .illegalCmd 0) ∨ ∃ v, statusRegister s r = some v ∧ t = s.responded v := by
  unfold execRdreg at h
  split at h <;> rename_i hr <;> simp_all

/-- A status register exists exactly up to number 11 (10_state.md R24). -/
theorem statusRegister_eq_none {s : State} {r : BitVec 8} : statusRegister s r = none ↔ 11 < r.toNat := by
  unfold statusRegister
  constructor
  · intro h
    by_contra hr
    have hr : r.toNat ≤ 11 := by omega
    generalize r.toNat = n at h hr
    interval_cases n <;> simp at h
  · intro hr
    split <;> first | omega | rfl

theorem execNrd_cases {k : BitVec 16} (h : execNrd k s = .next t) :
    (s.tv = false ∧ t = s.failed .notReady 0) ∨
    (s.tv = true ∧ s.nnodes.toNat ≤ k.toNat ∧ t = s.failed .badIndex 0) ∨
    (s.tv = true ∧ k.toNat < s.nnodes.toNat ∧ t = s.responded (s.node.read k.toNat).image) := by
  unfold execNrd at h
  split at h
  · simp_all
  · split at h <;> simp_all

theorem execDerive_cases (h : execDerive s = .next t) :
    (s.tv = false ∧ t = s.failed .notReady 0) ∨
    (s.tv = true ∧ ∃ code, deriveTable s.node s.nnodes.toNat s.root.toNat = some code ∧
      t = State.responded { s with code := code, cv := true } (codesWritten s.node s.nnodes s.root.toNat)) := by
  unfold execDerive at h
  split at h
  · simp_all
  · split at h
    · cases h
    · simp_all

theorem execClen_cases {x : Byte} (h : execClen x s = .next t) :
    (s.cv = false ∧ t = s.failed .notReady 0) ∨
    (s.cv = true ∧ t = s.responded ((s.code.read x.toNat).len.setWidth 64)) := by
  unfold execClen at h
  split at h <;> simp_all

theorem execCval_cases {x : Byte} {q : BitVec 16} (h : execCval x q s = .next t) :
    (3 < q.toNat ∧ t = s.failed .illegalCmd 0) ∨
    (q.toNat ≤ 3 ∧ s.cv = false ∧ t = s.failed .notReady 0) ∨
    (q.toNat ≤ 3 ∧ s.cv = true ∧ t = s.responded ((s.code.read x.toNat).slice q.toNat)) := by
  unfold execCval at h
  split at h
  · simp_all
  · split at h <;> simp_all

theorem execSput_cases {x : Byte} (h : execSput x s = .next t) :
    (s.srclen = s.cfg.srccap ∧ t = s.failed .capacity 0) ∨
    (s.srclen ≠ s.cfg.srccap ∧
      t = State.responded { s with src := s.src.write s.srclen.toNat x, srclen := s.srclen + 1 }
        ((s.srclen + 1).setWidth 64)) := by
  unfold execSput at h
  split at h <;> simp_all

theorem execSget_cases {k : Length} (h : execSget k s = .next t) :
    (s.srclen.toNat ≤ k.toNat ∧ t = s.failed .badIndex 0) ∨
    (k.toNat < s.srclen.toNat ∧ t = s.responded ((s.src.read k.toNat).setWidth 64)) := by
  unfold execSget at h
  split at h <;> simp_all

theorem execBapp_cases {n : BitVec 8} {v : BitVec 32} (h : execBapp n v s = .next t) :
    (32 < n.toNat ∧ t = s.failed .illegalCmd 0) ∨
    (n.toNat ≤ 32 ∧ s.cfg.bitcap.toNat < s.bitlen.toNat + n.toNat ∧ t = s.failed .capacity 0) ∨
    (n.toNat ≤ 32 ∧ s.bitlen.toNat + n.toNat ≤ s.cfg.bitcap.toNat ∧
      t = State.responded
        { s with bits := s.bits.writeBlock s.bitlen.toNat (bitGroup n.toNat v), bitlen := s.bitlen + n.setWidth 32 }
        ((s.bitlen + n.setWidth 32).setWidth 64)) := by
  unfold execBapp at h
  split at h
  · simp_all
  · split at h <;> simp_all

theorem execBrd_cases {j : Length} (h : execBrd j s = .next t) :
    (ceil8 s.bitlen.toNat ≤ j.toNat ∧ t = s.failed .badIndex 0) ∨
    (j.toNat < ceil8 s.bitlen.toNat ∧ t = s.responded ((s.packedByte j.toNat).setWidth 64)) := by
  unfold execBrd at h
  split at h <;> simp_all

theorem execDrd_cases {k : Length} (h : execDrd k s = .next t) :
    (s.dstlen.toNat ≤ k.toNat ∧ t = s.failed .badIndex 0) ∨
    (k.toNat < s.dstlen.toNat ∧ t = s.responded ((s.dst.read k.toNat).setWidth 64)) := by
  unfold execDrd at h
  split at h <;> simp_all

theorem execEncode_cases (h : execEncode s = .next t) :
    (s.srclen = 0 ∧ t = (s.putBits []).responded 0) ∨
    (s.srclen = 1 ∧ t = (s.putBits [false]).responded 1) ∨
    (2 ≤ s.srclen.toNat ∧ s.cv = false ∧ t = s.failed .notReady 0) ∨
    (2 ≤ s.srclen.toNat ∧ s.cv = true ∧ ∃ k x, firstUnknown s.code 0 s.sourceBytes = some (k, x) ∧
      t = s.failed .unknownSymbol (unknownSymbolInfo k x)) ∨
    (2 ≤ s.srclen.toNat ∧ s.cv = true ∧ firstUnknown s.code 0 s.sourceBytes = none ∧
      s.cfg.bitcap.toNat < totalLength s.code s.sourceBytes ∧ t = s.failed .capacity 0) ∨
    (2 ≤ s.srclen.toNat ∧ s.cv = true ∧ firstUnknown s.code 0 s.sourceBytes = none ∧
      totalLength s.code s.sourceBytes ≤ s.cfg.bitcap.toNat ∧
      t = (s.putBits (encodeBytes s.code s.sourceBytes)).responded
        ((s.putBits (encodeBytes s.code s.sourceBytes)).bitlen.setWidth 64)) := by
  unfold execEncode at h
  split at h
  · exact .inl ⟨‹_›, ok_eq_next.1 h⟩
  · split at h
    · exact .inr (.inl ⟨‹_›, ok_eq_next.1 h⟩)
    · rename_i h0 h1
      have h2 : 2 ≤ s.srclen.toNat := by
        have a0 : s.srclen.toNat ≠ 0 := fun e => h0 (BitVec.eq_of_toNat_eq (by simpa using e))
        have a1 : s.srclen.toNat ≠ 1 := fun e => h1 (BitVec.eq_of_toNat_eq (by simpa using e))
        omega
      split at h
      · rename_i hcv
        exact .inr (.inr (.inl ⟨h2, by simpa using hcv, raise_eq_next.1 h⟩))
      · rename_i hcv
        have hcv : s.cv = true := by simpa using hcv
        dsimp only at h
        change (match firstUnknown s.code 0 s.sourceBytes with | some (k, x) => _ | none => _) = _ at h
        split at h
        · rename_i k x hf
          exact .inr (.inr (.inr (.inl ⟨h2, hcv, k, x, hf, raise_eq_next.1 h⟩)))
        · rename_i hf
          split at h
          · exact .inr (.inr (.inr (.inr (.inl ⟨h2, hcv, hf, ‹_›, raise_eq_next.1 h⟩))))
          · rename_i hl
            exact .inr (.inr (.inr (.inr (.inr ⟨h2, hcv, hf, Nat.le_of_not_lt hl, ok_eq_next.1 h⟩))))

theorem commitSymbols_cases {xs : List Byte} (h : commitSymbols xs s = .next t) :
    (s.cfg.dstcap.toNat < xs.length ∧ t = s.failed .capacity 0) ∨
    (xs.length ≤ s.cfg.dstcap.toNat ∧
      t = State.responded { s with dst := s.dst.writeBlock 0 xs, dstlen := BitVec.ofNat 32 xs.length }
        ((BitVec.ofNat 32 xs.length).setWidth 64)) := by
  unfold commitSymbols at h
  split at h <;> simp_all

theorem execDecode_cases (h : execDecode s = .next t) :
    (s.tv = false ∧ t = s.failed .notReady 0) ∨
    (s.tv = true ∧ ¬(s.nnodes = 0 ↔ s.bitlen = 0) ∧ t = s.failed .malformedContainer 0) ∨
    (s.tv = true ∧ s.nnodes = 0 ∧ s.bitlen = 0 ∧ t = State.responded { s with dstlen := 0 } 0) ∨
    (s.tv = true ∧ s.nnodes ≠ 0 ∧ s.bitlen ≠ 0 ∧ ∃ w x, s.node.read s.root.toNat = .leaf w x ∧
      commitSymbols (List.replicate s.bitlen.toNat x) s = .next t) ∨
    (s.tv = true ∧ s.nnodes ≠ 0 ∧ s.bitlen ≠ 0 ∧ ∃ w l r, s.node.read s.root.toNat = .internal w l r ∧
      ((∃ n, trialPass s.node (l, r) s.bitSequence none = .underflow n ∧
          t = s.failed .decodeUnderflow (BitVec.ofNat 64 n)) ∨
        ∃ xs, trialPass s.node (l, r) s.bitSequence none = .complete xs ∧ commitSymbols xs s = .next t)) := by
  unfold execDecode at h
  split at h
  · simp_all
  · rename_i htv
    have htv : s.tv = true := by simpa using htv
    split at h
    · rename_i hm
      refine .inr (.inl ⟨htv, ?_, raise_eq_next.1 h⟩)
      by_cases hn : s.nnodes = 0 <;> by_cases hb : s.bitlen = 0 <;> simp_all
    · rename_i hm
      split at h
      · rename_i hb
        refine .inr (.inr (.inl ⟨htv, ?_, hb, ok_eq_next.1 h⟩))
        simpa [hb] using hm
      · rename_i hb
        have hn : s.nnodes ≠ 0 := by intro hn; exact hb (by simpa [hn] using hm)
        split at h
        · rename_i w x hr
          exact .inr (.inr (.inr (.inl ⟨htv, hn, hb, w, x, hr, h⟩)))
        · rename_i w l r hr
          refine .inr (.inr (.inr (.inr ⟨htv, hn, hb, w, l, r, hr, ?_⟩)))
          change (match trialPass s.node (l, r) s.bitSequence none with | .underflow n => _ | .complete xs => _) = _ at h
          split at h
          · exact .inl ⟨_, ‹_›, raise_eq_next.1 h⟩
          · exact .inr ⟨_, ‹_›, h⟩

end

/-! ### All commands at once -/

/-- Every command that answers a next state either failed, leaving the state it found but for the response and one bit of
ERRFLAGS, or completed with OK, keeping ERRFLAGS unless it is RESET; no command touches the configuration or the inputs. -/
theorem exec_failed_or_ok {i : Instr} {s t : State} (h : exec i s = .next t) :
    (∃ f info, t = s.failed f info) ∨
    ∃ (u : State) (d : Word64), t = u.responded d ∧ u.errflags = (if i = .reset then 0 else s.errflags) ∧ u.cfg = s.cfg ∧
      u.inputs = s.inputs := by
  cases i <;> simp only [exec] at h
  case nop => exact .inr ⟨s, 0, ok_eq_next.1 h, by simp, rfl, rfl⟩
  case reset => exact .inr ⟨_, 0, ok_eq_next.1 h, by simp, rfl, rfl⟩
  case rdreg =>
    obtain ⟨-, rfl⟩ | ⟨v, -, rfl⟩ := execRdreg_cases h
    · exact .inl ⟨_, _, rfl⟩
    · exact .inr ⟨_, _, rfl, by simp, rfl, rfl⟩
  case fclr => exact .inr ⟨_, _, ok_eq_next.1 h, by simp, rfl, rfl⟩
  case fset => exact .inr ⟨_, _, ok_eq_next.1 h, by simp, rfl, rfl⟩
  case fget => exact .inr ⟨_, _, ok_eq_next.1 h, by simp, rfl, rfl⟩
  case build => exact .inr ⟨_, _, ok_eq_next.1 h, by simp, rfl, rfl⟩
  case nrd =>
    obtain ⟨-, rfl⟩ | ⟨-, -, rfl⟩ | ⟨-, -, rfl⟩ := execNrd_cases h
    · exact .inl ⟨_, _, rfl⟩
    · exact .inl ⟨_, _, rfl⟩
    · exact .inr ⟨_, _, rfl, by simp, rfl, rfl⟩
  case derive =>
    obtain ⟨-, rfl⟩ | ⟨-, c, -, rfl⟩ := execDerive_cases h
    · exact .inl ⟨_, _, rfl⟩
    · exact .inr ⟨_, _, rfl, by simp, rfl, rfl⟩
  case clen =>
    obtain ⟨-, rfl⟩ | ⟨-, rfl⟩ := execClen_cases h
    · exact .inl ⟨_, _, rfl⟩
    · exact .inr ⟨_, _, rfl, by simp, rfl, rfl⟩
  case cval =>
    obtain ⟨-, rfl⟩ | ⟨-, -, rfl⟩ | ⟨-, -, rfl⟩ := execCval_cases h
    · exact .inl ⟨_, _, rfl⟩
    · exact .inl ⟨_, _, rfl⟩
    · exact .inr ⟨_, _, rfl, by simp, rfl, rfl⟩
  case sclr => exact .inr ⟨_, _, ok_eq_next.1 h, by simp, rfl, rfl⟩
  case sput =>
    obtain ⟨-, rfl⟩ | ⟨-, rfl⟩ := execSput_cases h
    · exact .inl ⟨_, _, rfl⟩
    · exact .inr ⟨_, _, rfl, by simp, rfl, rfl⟩
  case sget =>
    obtain ⟨-, rfl⟩ | ⟨-, rfl⟩ := execSget_cases h
    · exact .inl ⟨_, _, rfl⟩
    · exact .inr ⟨_, _, rfl, by simp, rfl, rfl⟩
  case bclr => exact .inr ⟨_, _, ok_eq_next.1 h, by simp, rfl, rfl⟩
  case bapp =>
    obtain ⟨-, rfl⟩ | ⟨-, -, rfl⟩ | ⟨-, -, rfl⟩ := execBapp_cases h
    · exact .inl ⟨_, _, rfl⟩
    · exact .inl ⟨_, _, rfl⟩
    · exact .inr ⟨_, _, rfl, by simp, rfl, rfl⟩
  case brd =>
    obtain ⟨-, rfl⟩ | ⟨-, rfl⟩ := execBrd_cases h
    · exact .inl ⟨_, _, rfl⟩
    · exact .inr ⟨_, _, rfl, by simp, rfl, rfl⟩
  case drd =>
    obtain ⟨-, rfl⟩ | ⟨-, rfl⟩ := execDrd_cases h
    · exact .inl ⟨_, _, rfl⟩
    · exact .inr ⟨_, _, rfl, by simp, rfl, rfl⟩
  case encode =>
    obtain ⟨-, rfl⟩ | ⟨-, rfl⟩ | ⟨-, -, rfl⟩ | ⟨-, -, _, _, -, rfl⟩ | ⟨-, -, -, -, rfl⟩ | ⟨-, -, -, -, rfl⟩ :=
      execEncode_cases h
    · exact .inr ⟨_, _, rfl, by simp, rfl, rfl⟩
    · exact .inr ⟨_, _, rfl, by simp, rfl, rfl⟩
    · exact .inl ⟨_, _, rfl⟩
    · exact .inl ⟨_, _, rfl⟩
    · exact .inl ⟨_, _, rfl⟩
    · exact .inr ⟨_, _, rfl, by simp, rfl, rfl⟩
  case decode =>
    have hc : ∀ xs, commitSymbols xs s = .next t →
        (∃ f info, t = s.failed f info) ∨ ∃ (u : State) (d : Word64), t = u.responded d ∧ u.errflags = s.errflags ∧ u.cfg = s.cfg ∧
          u.inputs = s.inputs := by
      intro xs hx
      obtain ⟨-, rfl⟩ | ⟨-, rfl⟩ := commitSymbols_cases hx
      · exact .inl ⟨_, _, rfl⟩
      · exact .inr ⟨_, _, rfl, rfl, rfl, rfl⟩
    obtain ⟨-, rfl⟩ | ⟨-, -, rfl⟩ | ⟨-, -, -, rfl⟩ | ⟨-, -, -, _, _, -, hx⟩ |
      ⟨-, -, -, _, _, _, -, ⟨_, -, rfl⟩ | ⟨_, -, hx⟩⟩ := execDecode_cases h
    · exact .inl ⟨_, _, rfl⟩
    · exact .inl ⟨_, _, rfl⟩
    · exact .inr ⟨_, _, rfl, by simp, rfl, rfl⟩
    · simpa using hc _ hx
    · exact .inl ⟨_, _, rfl⟩
    · simpa using hc _ hx

/-- Every command that answers a next state leaves a response (30_encoding.md R60). -/
theorem exec_responds {i : Instr} {s t : State} (h : exec i s = .next t) : ∃ r, t.rsp = some r := by
  obtain ⟨f, info, rfl⟩ | ⟨u, d, rfl, -⟩ := exec_failed_or_ok h
  · exact ⟨_, rfl⟩
  · exact ⟨_, rfl⟩

/-- Only DERIVE can stop, and only on a record structure too deep to be a tree of BUILD's (log 8). -/
theorem exec_next_or_malformed (i : Instr) (s : State) :
    (∃ t, exec i s = .next t) ∨
      (i = .derive ∧ s.tv = true ∧ deriveTable s.node s.nnodes.toNat s.root.toNat = none) := by
  cases i
  case derive =>
    by_cases htv : s.tv = true
    · cases hd : deriveTable s.node s.nnodes.toNat s.root.toNat with
      | none => exact .inr ⟨rfl, htv, rfl⟩
      | some c => exact .inl ⟨_, by simp [exec, execDerive, htv, hd]; rfl⟩
    · exact .inl ⟨_, by simp [exec, execDerive, htv]; rfl⟩
  all_goals
    left
    simp only [exec, execNop, execReset, execRdreg, execFclr, execFset, execFget, execBuild, execNrd, execClen, execCval,
      execSclr, execSput, execSget, execBclr, execBapp, execBrd, execDrd, execEncode, execDecode, commitSymbols, ok, raise]
    repeat' (first | exact ⟨_, rfl⟩ | split)

/-! ### Presented words and sessions -/

/-- A presented word that decodes is executed (30_encoding.md R69). -/
theorem submit_of_decode {w : Word64} {i : Instr} (h : decode w = .ok i) (s : State) : submit w s = exec i s := by
  simp [submit, step, h]

/-- A presented word that does not decode raises ILLEGAL_CMD (60_exceptions.md R211). -/
theorem submit_of_error {w : Word64} {e : DecodeError} (h : decode w = .error e) (s : State) :
    submit w s = raise .illegalCmd 0 s := by
  simp [submit, step, h]

@[simp] theorem session_nil (s : State) : session [] s = .next (s, []) := rfl

/-- A session of one more word: the word first, then the rest on the state it leaves. -/
theorem session_cons {w : Word64} {ws : List Word64} {s t u : State} {rs : List Response}
    (h : submit w s = .next t) (h' : session ws t = .next (u, rs)) :
    session (w :: ws) s = .next (u, t.rsp.toList ++ rs) := by
  simp only [session, h, h']

/-- What a session that ends well was: its first word and the session of the others. -/
theorem session_cons_cases {w : Word64} {ws : List Word64} {s u : State} {qs : List Response}
    (h : session (w :: ws) s = .next (u, qs)) :
    ∃ t rs, submit w s = .next t ∧ session ws t = .next (u, rs) ∧ qs = t.rsp.toList ++ rs := by
  simp only [session] at h
  split at h
  · cases h
  · cases h
  · rename_i t ht
    split at h
    · cases h
    · cases h
    · rename_i v rs hv
      cases h
      exact ⟨t, rs, ht, hv, rfl⟩

/-- A session in two parts. -/
theorem session_append {ws ws' : List Word64} {s t u : State} {rs rs' : List Response}
    (h : session ws s = .next (t, rs)) (h' : session ws' t = .next (u, rs')) :
    session (ws ++ ws') s = .next (u, rs ++ rs') := by
  induction ws generalizing s rs with
  | nil => cases h; simpa using h'
  | cons w ws ih =>
    obtain ⟨t', rs'', h1, h2, rfl⟩ := session_cons_cases h
    rw [List.cons_append, session_cons h1 (ih h2), List.append_assoc]

end Sys2Proof.Machine
end

