-- ==== Sys2Proof/Laws/PerInstr.lean ====
section
/-! SUPPORT. One statement for every instruction, by constructor: its word carries its row of the opcode map, so the printed
match and mask of 30_encoding.md R62 agree with the encoder. -/

namespace Sys2Proof.Laws.RowPattern

/-- Some row of the map has this command's opcode, and the masked word is the row's printed match. -/
def Statement (i : Instr) : Prop :=
  ∃ r ∈ opcodeMap, r.op = opField (encode i) ∧ encode i &&& r.mask = r.pattern

/-- A row whose mask compares the opcode and the given parts of the fields. -/
theorem of_row {i : Instr} {r : Row} {op a a' : BitVec 8} {b b' : BitVec 16} {d d' : BitVec 32} (hr : r ∈ opcodeMap)
    (hop : r.op = op) (he : encode i = commandWord op a b d) (hm : r.mask = commandWord 0xFF a' b' d')
    (hp : r.pattern = commandWord op (a &&& a') (b &&& b') (d &&& d')) : Statement i := by
  refine ⟨r, hr, by rw [he, opField_commandWord, hop], ?_⟩
  rw [he, hm, hp, commandWord_and]
  congr 1
  exact BitVec.and_allOnes

/-- The k-th row is in the map. -/
theorem row_mem {k : Nat} (h : k < opcodeMap.length) : opcodeMap[k] ∈ opcodeMap := List.getElem_mem h

theorem nop : Statement .nop := ⟨opcodeMap[0], row_mem _, by decide, by decide⟩
theorem reset : Statement .reset := ⟨opcodeMap[1], row_mem _, by decide, by decide⟩
theorem rdreg (r : BitVec 8) : Statement (.rdreg r) :=
  of_row (r := opcodeMap[2]) (a' := 0) (b' := 0xFFFF) (d' := 0xFFFFFFFF) (row_mem _) rfl rfl (by decide)
    (by simp; decide)
theorem fclr : Statement .fclr := ⟨opcodeMap[3], row_mem _, by decide, by decide⟩
theorem fset (s : Byte) (c : Count) : Statement (.fset s c) :=
  of_row (r := opcodeMap[4]) (a' := 0) (b' := 0xFFFF) (d' := 0) (row_mem _) rfl rfl (by decide) (by simp; decide)
theorem fget (s : Byte) : Statement (.fget s) :=
  of_row (r := opcodeMap[5]) (a' := 0) (b' := 0xFFFF) (d' := 0xFFFFFFFF) (row_mem _) rfl rfl (by decide)
    (by simp; decide)
theorem build : Statement .build := ⟨opcodeMap[6], row_mem _, by decide, by decide⟩
theorem nrd (i : BitVec 16) : Statement (.nrd i) :=
  of_row (r := opcodeMap[7]) (a' := 0xFF) (b' := 0) (d' := 0xFFFFFFFF) (row_mem _) rfl rfl (by decide)
    (by simp; decide)
theorem derive : Statement .derive := ⟨opcodeMap[8], row_mem _, by decide, by decide⟩
theorem clen (s : Byte) : Statement (.clen s) :=
  of_row (r := opcodeMap[9]) (a' := 0) (b' := 0xFFFF) (d' := 0xFFFFFFFF) (row_mem _) rfl rfl (by decide)
    (by simp; decide)
theorem cval (s : Byte) (q : BitVec 16) : Statement (.cval s q) :=
  of_row (r := opcodeMap[10]) (a' := 0) (b' := 0) (d' := 0xFFFFFFFF) (row_mem _) rfl rfl (by decide) (by simp; decide)
theorem sclr : Statement .sclr := ⟨opcodeMap[11], row_mem _, by decide, by decide⟩
theorem sput (x : Byte) : Statement (.sput x) :=
  of_row (r := opcodeMap[12]) (a' := 0) (b' := 0xFFFF) (d' := 0xFFFFFFFF) (row_mem _) rfl rfl (by decide)
    (by simp; decide)
theorem sget (i : Length) : Statement (.sget i) :=
  of_row (r := opcodeMap[13]) (a' := 0xFF) (b' := 0xFFFF) (d' := 0) (row_mem _) rfl rfl (by decide) (by simp; decide)
theorem bclr : Statement .bclr := ⟨opcodeMap[14], row_mem _, by decide, by decide⟩
theorem bapp (n : BitVec 8) (v : BitVec 32) : Statement (.bapp n v) :=
  of_row (r := opcodeMap[15]) (a' := 0) (b' := 0xFFFF) (d' := 0) (row_mem _) rfl rfl (by decide) (by simp; decide)
theorem brd (j : Length) : Statement (.brd j) :=
  of_row (r := opcodeMap[16]) (a' := 0xFF) (b' := 0xFFFF) (d' := 0) (row_mem _) rfl rfl (by decide) (by simp; decide)
theorem drd (i : Length) : Statement (.drd i) :=
  of_row (r := opcodeMap[17]) (a' := 0xFF) (b' := 0xFFFF) (d' := 0) (row_mem _) rfl rfl (by decide) (by simp; decide)
theorem encode : Statement .encode := ⟨opcodeMap[18], row_mem _, by decide, by decide⟩
theorem decode : Statement .decode := ⟨opcodeMap[19], row_mem _, by decide, by decide⟩

end Sys2Proof.Laws.RowPattern
end

