-- ==== Sys2Proof/Tests/Slice0.lean ====
section
/-! SUPPORT. Tests: ill-formed terms that WellFormed refuses, a word of every command written out from 30_encoding.md, one
step of each command with the answer 95_test_vectors.md gives, and for every obligation with hypotheses a state and
operands that meet them. -/

namespace Sys2Proof.Tests

open Sys2Proof Sys2Proof.Machine

/-! ### WellFormed refuses (30_encoding.md R65) -/

theorem test_wf_refuses_rdreg_12 : (Instr.rdreg 12).wf = false := by decide
theorem test_wf_refuses_bapp_33 : (Instr.bapp 33 0).wf = false := by decide
theorem test_wf_refuses_cval_slice_4 : (Instr.cval 0 4).wf = false := by decide
theorem test_wf_admits_the_limits :
    (Instr.rdreg 11).wf = true ∧ (Instr.bapp 32 0).wf = true ∧ (Instr.cval 0 3).wf = true := by decide

/-! ### Decoding: one word for each command, from the words of 95_test_vectors.md and the rules cited there -/

theorem test_decode_nop : decode 0x0000000000000000 = .ok .nop := by decide
theorem test_decode_reset : decode 0x0100000000000000 = .ok .reset := by decide
theorem test_decode_rdreg : decode 0x0207000000000000 = .ok (.rdreg 7) := by decide
theorem test_decode_fclr : decode 0x1000000000000000 = .ok .fclr := by decide
theorem test_decode_fset : decode 0x11FF0000FFFFFFFF = .ok (.fset 0xFF 0xFFFFFFFF) := by decide
theorem test_decode_fget : decode 0x1241000000000000 = .ok (.fget 0x41) := by decide
theorem test_decode_build : decode 0x2000000000000000 = .ok .build := by decide
theorem test_decode_nrd : decode 0x2100025800000000 = .ok (.nrd 600) := by decide
theorem test_decode_derive : decode 0x3000000000000000 = .ok .derive := by decide
theorem test_decode_clen : decode 0x31A5000000000000 = .ok (.clen 0xA5) := by decide
theorem test_decode_cval : decode 0x3200000300000000 = .ok (.cval 0 3) := by decide
theorem test_decode_sclr : decode 0x4000000000000000 = .ok .sclr := by decide
theorem test_decode_sput : decode 0x4141000000000000 = .ok (.sput 0x41) := by decide
theorem test_decode_sget : decode 0x4200000000000002 = .ok (.sget 2) := by decide
theorem test_decode_bclr : decode 0x4400000000000000 = .ok .bclr := by decide
theorem test_decode_bapp : decode 0x45200000DEADBEEF = .ok (.bapp 32 0xDEADBEEF) := by decide
theorem test_decode_brd : decode 0x4600000000000100 = .ok (.brd 256) := by decide
theorem test_decode_drd : decode 0x4800000000000004 = .ok (.drd 4) := by decide
theorem test_decode_encode : decode 0x5000000000000000 = .ok .encode := by decide
theorem test_decode_decode : decode 0x5100000000000000 = .ok .decode := by decide

/-! One word of each family, bit by bit: op, a, b, d (30_encoding.md R61, R62). -/

theorem test_bits_system : decode (0b00000010#8 ++ 0b00001011#8 ++ 0b0000000000000000#16 ++ 0b0#32) = .ok (.rdreg 11) := by
  decide
theorem test_bits_frequency_table :
    decode (0b00010001#8 ++ 0b01000001#8 ++ 0b0000000000000000#16 ++ 0b00000000000000000000000000000011#32) =
      .ok (.fset 0x41 3) := by decide
theorem test_bits_tree_builder :
    decode (0b00100001#8 ++ 0b00000000#8 ++ 0b0000000111111110#16 ++ 0b0#32) = .ok (.nrd 510) := by decide
theorem test_bits_code_table :
    decode (0b00110010#8 ++ 0b10100101#8 ++ 0b0000000000000010#16 ++ 0b0#32) = .ok (.cval 0xA5 2) := by decide
theorem test_bits_buffers :
    decode (0b01000101#8 ++ 0b00000101#8 ++ 0b0000000000000000#16 ++ 0b00000000000000000000000000011010#32) =
      .ok (.bapp 5 0x1A) := by decide
theorem test_bits_encoder : decode (0b01010000#8 ++ 0b0#8 ++ 0b0#16 ++ 0b0#32) = .ok .encode := by decide
theorem test_bits_decoder : decode (0b01010001#8 ++ 0b0#8 ++ 0b0#16 ++ 0b0#32) = .ok .decode := by decide

/-! Words that are no command (95_test_vectors.md L2.1, L2.7, L2.8). -/

theorem test_decode_unassigned_opcode : decode 0x4700000000000000 = .error .unknownOpcode := by decide
theorem test_decode_reserved_field : decode 0x0201000100000000 = .error .reservedField := by decide
theorem test_decode_reserved_before_limit : decode 0x02FF000000000001 = .error .reservedField := by decide
theorem test_decode_over_limit : decode 0x4521000000000000 = .error .operandLimit := by decide
theorem test_table_word : decodeTableWord 64 0x4503000000000006 = some (.bapp 3 6) := by decide

/-! ### Helpers -/

/-- The response of an outcome. -/
def answerOf : Outcome → Option Response
  | .next t => t.rsp
  | _ => none

/-- A view of the next state. -/
def nextView {α : Type} (f : State → α) : Outcome → Option α
  | .next t => some (f t)
  | _ => none

/-- The response (OK, d). -/
def okWith (d : Word64) : Option Response := some ⟨.ok, d⟩

/-- The response (failure, d). -/
def failWith (f : Failure) (d : Word64) : Option Response := some ⟨.failed f, d⟩

/-- The table {0x00 ↦ 2, 0x01 ↦ 2, 0x02 ↦ 1} of 42_tree_builder.md R108, nothing built. -/
def tableState : State := { State.reset with freq := [(0, 2), (1, 2), (2, 1)] }

/-- The five records of 42_tree_builder.md R108. -/
def tableNodes : Memory NodeRec :=
  [(0, .leaf 2 0), (1, .leaf 2 1), (2, .leaf 1 2), (3, .internal 3 2 0), (4, .internal 5 1 3)]

/-- The codes of 43_code_table.md R127. -/
def tableCodes : Memory CodeEntry := [(0, ⟨2, 3⟩), (1, ⟨1, 0⟩), (2, ⟨2, 2⟩)]

/-- That table after BUILD (42_tree_builder.md R108). -/
def builtState : State := { tableState with tv := true, nnodes := 5, root := 4, node := tableNodes }

/-- The end state of program P1 (95_test_vectors.md), without its last response. -/
def packedState : State :=
  { builtState with
    cv := true, code := tableCodes, srclen := 5, src := [(1, 1), (3, 1), (4, 2)],
    bitlen := 8, bits := [(0, true), (1, true), (3, true), (4, true), (6, true)] }

/-- One symbol three times, built and derived (95_test_vectors.md P3). -/
def singleState : State :=
  { State.reset with
    freq := [(0x41, 3)], tv := true, cv := true, nnodes := 1, node := [(0, .leaf 3 0x41)], code := [(0x41, ⟨1, 0⟩)] }

/-- The empty tree, derived (42_tree_builder.md R105, 43_code_table.md R123). -/
def emptyTreeState : State := { State.reset with tv := true, cv := true }

/-! ### One step of each command (95_test_vectors.md) -/

theorem test_nop : answerOf (exec .nop packedState) = okWith 0 := by decide
theorem test_reset_clears :
    nextView (fun t => (t.tv, t.cv, t.errflags, t.freq)) (exec .reset { packedState with errflags := 0xA }) =
      some (false, false, 0, []) := by decide
theorem test_rdreg_id : answerOf (exec (.rdreg 0) State.reset) = okWith 0x4A4D5A4800000001 := by decide
theorem test_rdreg_status : answerOf (exec (.rdreg 1) packedState) = okWith 3 := by decide
theorem test_rdreg_nsym : answerOf (exec (.rdreg 3) packedState) = okWith 3 := by decide
theorem test_rdreg_bitcap : answerOf (exec (.rdreg 10) State.reset) = okWith 0x100000 := by decide
theorem test_fclr_invalidates : nextView (fun t => (t.tv, t.cv, t.freq)) (exec .fclr packedState) = some (false, false, []) := by
  decide
theorem test_fset_same_count_invalidates :
    nextView (fun t => (t.tv, t.cv, t.freq)) (exec (.fset 1 2) packedState) =
      some (false, false, [(0, 2), (1, 2), (2, 1)]) := by decide
theorem test_fset_zero_deletes : nextView (fun t => t.freq) (exec (.fset 1 0) tableState) = some [(0, 2), (2, 1)] := by decide
theorem test_fget : answerOf (exec (.fget 2) tableState) = okWith 1 := by decide
theorem test_build_records :
    nextView (fun t => (t.node, t.nnodes, t.root, t.tv)) (exec .build tableState) = some (tableNodes, 5, 4, true) := by decide
theorem test_build_leaf_before_internal :
    nextView (fun t => t.node.read 4)
      (exec .build { State.reset with freq := [(0x61, 1), (0x62, 1), (0x63, 2)] }) = some (.internal 4 2 3) := by decide
theorem test_nrd_internal : answerOf (exec (.nrd 3) builtState) = okWith 0x00000000000C0400 := by decide
theorem test_nrd_leaf : answerOf (exec (.nrd 2) builtState) = okWith 0x8000000000040002 := by decide
theorem test_derive_codes : nextView (fun t => (t.code, t.cv)) (exec .derive builtState) = some (tableCodes, true) := by decide
theorem test_derive_single : nextView (fun t => t.code) (exec .derive { singleState with code := [] }) =
    some [(0x41, ⟨1, 0⟩)] := by decide
theorem test_clen : answerOf (exec (.clen 1) packedState) = okWith 1 := by decide
theorem test_cval : answerOf (exec (.cval 0 0) packedState) = okWith 3 := by decide
theorem test_cval_limit_before_not_ready : answerOf (exec (.cval 0 4) State.reset) = failWith .illegalCmd 0 := by decide
theorem test_sclr : nextView (fun t => t.srclen) (exec .sclr packedState) = some 0 := by decide
theorem test_sput : nextView (fun t => (t.src, t.srclen)) (exec (.sput 0x41) State.reset) = some ([(0, 0x41)], 1) := by decide
theorem test_sput_full :
    answerOf (exec (.sput 0) { packedState with cfg := ⟨5, 10, 5⟩ }) = failWith .capacity 0 := by decide
theorem test_sget : answerOf (exec (.sget 4) packedState) = okWith 2 := by decide
theorem test_sget_bad : answerOf (exec (.sget 5) packedState) = failWith .badIndex 0 := by decide
theorem test_bclr : nextView (fun t => t.bitlen) (exec .bclr packedState) = some 0 := by decide
theorem test_bapp_low_bits :
    nextView (fun t => (t.bits, t.bitlen)) (exec (.bapp 3 0xFFFFFFFE) State.reset) =
      some ([(0, true), (1, true)], 3) := by decide
theorem test_bapp_partial_fit :
    answerOf (exec (.bapp 3 0) { packedState with cfg := ⟨5, 10, 5⟩ }) = failWith .capacity 0 := by decide
theorem test_brd : answerOf (exec (.brd 0) packedState) = okWith 0xDA := by decide
theorem test_brd_pads : answerOf (exec (.brd 0) { packedState with bitlen := 3 }) = okWith 0xC0 := by decide
theorem test_drd : answerOf (exec (.drd 4) { packedState with dstlen := 5, dst := packedState.src }) = okWith 2 := by decide
theorem test_drd_bad : answerOf (exec (.drd 0) State.reset) = failWith .badIndex 0 := by decide
theorem test_encode :
    nextView (fun t => (t.bits, t.bitlen)) (exec .encode { packedState with bits := [(9, true)], bitlen := 12 }) =
      some ([(0, true), (1, true), (3, true), (4, true), (6, true), (9, true)], 8) := by decide
theorem test_encode_unknown :
    answerOf (exec .encode { packedState with srclen := 2, src := [(1, 3)] }) =
      failWith .unknownSymbol 0x0000000300000001 := by decide
theorem test_decode_general :
    nextView (fun t => (t.dst, t.dstlen)) (exec .decode packedState) = some ([(1, 1), (3, 1), (4, 2)], 5) := by decide
theorem test_decode_underflow :
    answerOf (exec .decode { packedState with bitlen := 7 }) = failWith .decodeUnderflow 4 := by decide

/-- The word that no command has, presented to the step (95_test_vectors.md L2.1). -/
theorem test_step_illegal :
    nextView (fun t => (t.rsp, t.errflags)) (step (State.reset.withFetchWord 64 0x0300000000000000)) =
      some (failWith .illegalCmd 0, 2) := by decide

/-! ### States with the invariant -/

theorem reset_inv : State.reset.Inv := by constructor <;> decide
theorem tableState_inv : tableState.Inv := by constructor <;> decide
theorem builtState_inv : builtState.Inv := by constructor <;> decide
theorem packedState_inv : packedState.Inv := by constructor <;> decide
theorem singleState_inv : singleState.Inv := by constructor <;> decide
theorem emptyTreeState_inv : emptyTreeState.Inv := by constructor <;> decide

/-! ### Hypotheses of the obligations that some state and operands meet -/

/-- States with one changed field that the witnesses share. -/
def errorState : State := { packedState with errflags := 0x02, rsp := some ⟨.failed .illegalCmd, 0⟩ }
def stateWith (x : HostInput) : State := { packedState with inputs := [x] }
def shortState : State := { packedState with srclen := 1, bitlen := 0 }

theorem witness_wf_at_the_limits :
    (Instr.rdreg 11).wf = true ∧ (Instr.bapp 32 0xFFFFFFFF).wf = true ∧ (Instr.cval 0xFF 3).wf = true ∧
      (Instr.nrd 0xFFFF).wf = true := by decide
theorem witness_EncodeInvertsDecode : decode 0x020B000000000000 = .ok (.rdreg 11) := by decide
theorem witness_CommandsAreSelectedByMatchAndMask :
    ∃ r ∈ opcodeMap, 0x45200000FFFFFFFF#64 &&& r.mask = r.pattern ∧
      (r.command (aField 0x45200000FFFFFFFF) (bField 0x45200000FFFFFFFF) (dField 0x45200000FFFFFFFF)).wf = true := by decide
theorem witness_IllegalWords_no_command : ∀ i : Instr, i.wf = true → encode i ≠ 0x0300000000000000 := by
  intro i _ h
  have h3 : opField (encode i) = 0x03 := by rw [h]; decide
  cases i <;> simp [encode] at h3
theorem witness_IllegalWords_opcode :
    opField 0xFF00000000000000 ∉ ([0x00, 0x01, 0x02, 0x10, 0x11, 0x12, 0x20, 0x21, 0x30, 0x31, 0x32, 0x40, 0x41,
      0x42, 0x44, 0x45, 0x46, 0x48, 0x50, 0x51] : List (BitVec 8)) := by decide
theorem witness_IllegalWords_reserved :
    ∃ r ∈ opcodeMap, r.op = opField 0x2000000000000001 ∧
      (r.usesA = false ∧ aField 0x2000000000000001 ≠ 0 ∨ r.usesB = false ∧ bField 0x2000000000000001 ≠ 0 ∨
        r.usesD = false ∧ dField 0x2000000000000001 ≠ 0) := by decide
theorem witness_IllegalWords_limits : 11 < (12 : BitVec 8).toNat ∧ 32 < (33 : BitVec 8).toNat ∧ 3 < (4 : BitVec 16).toNat := by
  decide
theorem witness_IllegalWords_legal :
    (Instr.cval 0 3).wf = true ∧ ∃ t, submit (encode (.cval 0 3)) State.reset = .next t := ⟨by decide, _, rfl⟩
theorem witness_StepRunsTheDecodedCommand :
    (stateWith (.command 0x4503000000000006)).inputs = .command 0x4503000000000006 :: [] ∧
      decode 0x4503000000000006 = .ok (.bapp 3 6) := by decide
theorem witness_StepIdlesWithoutInput : State.reset.inputs = [] := rfl
theorem witness_HardwareReset : (stateWith .hardReset).inputs = .hardReset :: [] := rfl
theorem witness_FailureEntry_carrying_nothing :
    ∃ t, submit 0x4200000000000005 packedState = .next t ∧ t.rsp = some ⟨.failed .badIndex, 0⟩ := ⟨_, rfl, by decide⟩
theorem witness_FailureEntry_carrying_data :
    ∃ t, submit 0x5100000000000000 { packedState with bitlen := 7 } = .next t ∧
      t.rsp = some ⟨.failed .decodeUnderflow, 4⟩ := ⟨_, rfl, by decide⟩
theorem witness_StatusTable_marked : Failure.decodeUnderflow ∈ mayEndWith 0x51 ∧ Failure.illegalCmd ∈ mayEndWith 0xFF := by decide
theorem witness_FailureEntry_unknown_symbol :
    ∃ t, submit 0x5000000000000000 { packedState with src := [(1, 3)] } = .next t ∧
      t.rsp = some ⟨.failed .unknownSymbol, 0x0000000300000001⟩ := ⟨_, rfl, by decide⟩
theorem witness_DecodingSteps : decode 0x2000000000000001 = .error .reservedField ∧ decode 0x5100000000000000 = .ok .decode := by
  decide
theorem witness_ErrorFlags_failure :
    ∃ t, submit 0x4200000000000005 packedState = .next t ∧ decode 0x4200000000000005 ≠ .ok .reset ∧
      t.rsp = some ⟨.failed .badIndex, 0⟩ := ⟨_, rfl, by decide, by decide⟩
theorem witness_ErrorFlags_exec : ∃ t, exec (.sget 5) packedState = .next t ∧ Instr.sget 5 ≠ .rdreg 2 := ⟨_, rfl, by decide⟩
theorem witness_ErrorFlags_hard_reset :
    ∃ t, (stateWith .hardReset).inputs = .hardReset :: [] ∧ step (stateWith .hardReset) = .next t := ⟨_, rfl, rfl⟩
theorem witness_ErrorFlags_reset : ∃ t, exec .reset errorState = .next t := ⟨_, rfl⟩
theorem witness_ErrorFlags_step :
    (∃ t, step (stateWith (.command 0x0300000000000000)) = .next t) ∧
      (stateWith (.command 0x0300000000000000)).errflags.getLsbD 0 = false := ⟨⟨_, rfl⟩, by decide⟩
theorem witness_RetryingAFailedCommand :
    ∃ t, exec (.drd 0) packedState = .next t ∧ t.rsp = some ⟨.failed .badIndex, 0⟩ := ⟨_, rfl, by decide⟩
theorem witness_ReadCommands_ok : ∃ t, exec (.brd 0) packedState = .next t ∧ t.rsp = some ⟨.ok, 0xDA⟩ := ⟨_, rfl, by decide⟩
theorem witness_ReadCommands_decode : ∃ t, exec .decode packedState = .next t := ⟨_, rfl⟩
theorem witness_StateIsWrittenOnly : ∃ t, exec .encode packedState = .next t := ⟨_, rfl⟩
theorem witness_ValidityFlags : ∃ t, exec .derive builtState = .next t := ⟨_, rfl⟩
theorem witness_Rdreg_illegal : (11 : BitVec 8).toNat ≤ 11 ∧ 11 < (12 : BitVec 8).toNat := by decide
theorem witness_Fset_two_orders :
    packedState.Inv ∧ (0 : Byte) ≠ 0xFF ∧ ∃ t u t' u', exec (.fset 0 1) packedState = .next t ∧ exec (.fset 0xFF 2) t = .next u ∧
      exec (.fset 0xFF 2) packedState = .next t' ∧ exec (.fset 0 1) t' = .next u' :=
  ⟨packedState_inv, by decide, _, _, _, _, rfl, rfl, rfl, rfl⟩
theorem witness_Fset_twice :
    packedState.Inv ∧ ∃ t u t', exec (.fset 0 1) packedState = .next t ∧ exec (.fset 0 0) t = .next u ∧
      exec (.fset 0 0) packedState = .next t' := ⟨packedState_inv, _, _, _, rfl, rfl, rfl⟩
theorem witness_BuildSeeds : (presentSymbols tableState.freq)[2]? = some 2 := by decide
theorem witness_BuildMerges : presentSymbols tableState.freq ≠ [] ∧ (presentSymbols tableState.freq).length ≤ 3 ∧
    nextView (fun t => decide (4 < t.nnodes.toNat)) (exec .build tableState) = some true := by decide
theorem witness_ValidTrees : packedState.Inv ∧ packedState.tv = true := ⟨packedState_inv, rfl⟩
theorem witness_ValidTrees_empty : emptyTreeState.Inv ∧ emptyTreeState.tv = true := ⟨emptyTreeState_inv, rfl⟩
theorem witness_BuildAndDerive :
    builtState.Inv ∧ packedState.Inv ∧ builtState.tv = true ∧ packedState.tv = true ∧
      builtState.nnodes = packedState.nnodes ∧ builtState.root = packedState.root ∧
      (∀ k, k < builtState.nnodes.toNat → builtState.node.read k = packedState.node.read k) ∧
      ∃ t, exec .derive builtState = .next t :=
  ⟨builtState_inv, packedState_inv, rfl, rfl, rfl, rfl, fun _ _ => rfl, _, rfl⟩
theorem witness_Nrd : tableState.tv = false ∧ builtState.tv = true ∧ builtState.nnodes.toNat ≤ (5 : BitVec 16).toNat ∧
    (4 : BitVec 16).toNat < builtState.nnodes.toNat := by decide
theorem witness_Derive_multi : builtState.Inv ∧ builtState.tv = true ∧ 2 ≤ (presentSymbols builtState.freq).length :=
  ⟨builtState_inv, rfl, by decide⟩
theorem witness_Derive_single : singleState.Inv ∧ singleState.tv = true ∧ singleState.nnodes ≠ 0 ∧
    singleState.node.read singleState.root.toNat = .leaf 3 0x41 := ⟨singleState_inv, rfl, by decide, by decide⟩
theorem witness_Derive_empty : emptyTreeState.Inv ∧ emptyTreeState.tv = true ∧ emptyTreeState.nnodes = 0 :=
  ⟨emptyTreeState_inv, rfl, rfl⟩
theorem witness_CodeTables : packedState.Inv ∧ packedState.cv = true ∧ (0 : Byte) ≠ 2 ∧
    packedState.freq.read (0 : Byte).toNat ≠ 0 ∧ packedState.freq.read (2 : Byte).toNat ≠ 0 ∧
    packedState.freq.read (3 : Byte).toNat = 0 ∧
    (packedState.code.read (0 : Byte).toNat).len.toNat ≤ (packedState.code.read (2 : Byte).toNat).len.toNat :=
  ⟨packedState_inv, rfl, by decide⟩
theorem witness_CodeTables_single : { singleState with code := [(0x41, ⟨1, 0⟩)], cv := true }.Inv ∧
    presentSymbols singleState.freq = [0x41] := ⟨by constructor <;> decide, by decide⟩
theorem witness_Kraft : packedState.Inv ∧ packedState.cv = true ∧ 2 ≤ (presentSymbols packedState.freq).length :=
  ⟨packedState_inv, rfl, by decide⟩
theorem witness_Cval : (3 : BitVec 16).toNat ≤ 3 ∧ 3 < (4 : BitVec 16).toNat ∧ packedState.cv = true ∧ builtState.cv = false := by
  decide
theorem witness_Sput : { packedState with cfg := ⟨5, 8, 5⟩ }.srclen = { packedState with cfg := ⟨5, 8, 5⟩ }.cfg.srccap ∧
    packedState.srclen.toNat < packedState.cfg.srccap.toNat := by decide
theorem witness_Sget_Drd : packedState.srclen.toNat ≤ (5 : Length).toNat ∧ (4 : Length).toNat < packedState.srclen.toNat ∧
    packedState.dstlen.toNat ≤ (0 : Length).toNat ∧
    (4 : Length).toNat < { packedState with dstlen := 5 }.dstlen.toNat := by decide
theorem witness_Bapp : (32 : BitVec 8).toNat ≤ 32 ∧ packedState.bitlen.toNat + 32 ≤ packedState.cfg.bitcap.toNat ∧
    { packedState with cfg := ⟨5, 10, 5⟩ }.cfg.bitcap.toNat < packedState.bitlen.toNat + 3 := by decide
theorem witness_Brd : (packedState.bitlen.toNat + 7) / 8 ≤ (1 : Length).toNat ∧
    (0 : Length).toNat < (packedState.bitlen.toNat + 7) / 8 := by decide
theorem witness_PackedBytes_groups :
    (∀ g ∈ ([(32, 7), (0, 1), (3, 5)] : List (BitVec 8 × BitVec 32)), g.1.toNat ≤ 32) ∧
      { packedState with cfg := ⟨5, 43, 5⟩ }.bitlen.toNat +
        (([(32, 7), (0, 1), (3, 5)] : List (BitVec 8 × BitVec 32)).map fun g => g.1.toNat).sum ≤
          { packedState with cfg := ⟨5, 43, 5⟩ }.cfg.bitcap.toNat := ⟨by simp, by decide⟩
theorem witness_PackedBytes_reload : { packedState with bitlen := 7 }.Inv := by constructor <;> decide
theorem witness_EncodeShort : State.reset.Inv ∧ State.reset.srclen = 0 ∧ shortState.srclen = 1 := ⟨reset_inv, rfl, rfl⟩
theorem witness_EncodeConcatenates : 2 ≤ packedState.srclen.toNat ∧ packedState.cv = true ∧
    (∀ k, k < packedState.srclen.toNat → (packedState.code.read (packedState.src.read k).toNat).len ≠ 0) ∧
    (packedState.sourceBytes.map fun x => (packedState.code.read x.toNat).len.toNat).sum ≤
      { packedState with cfg := ⟨5, 8, 5⟩ }.cfg.bitcap.toNat := by decide
theorem witness_EncodeFails_not_ready : 2 ≤ { packedState with cv := false }.srclen.toNat := by decide
theorem witness_EncodeFails_unknown : 2 ≤ { packedState with src := [(1, 3)] }.srclen.toNat ∧
    ({ packedState with src := [(1, 3)] }.code.read ({ packedState with src := [(1, 3)] }.src.read 1).toNat).len = 0 ∧
    ∀ j, j < 1 → ({ packedState with src := [(1, 3)] }.code.read
      ({ packedState with src := [(1, 3)] }.src.read j).toNat).len ≠ 0 := by decide
theorem witness_EncodeFails_capacity : { packedState with cfg := ⟨5, 7, 5⟩ }.cfg.bitcap.toNat <
    (packedState.sourceBytes.map fun x => (packedState.code.read x.toNat).len.toNat).sum := by decide
theorem witness_DecodeChecks : builtState.tv = true ∧ ¬(builtState.nnodes = 0 ↔ builtState.bitlen = 0) ∧
    emptyTreeState.nnodes = 0 ∧ emptyTreeState.bitlen = 0 := by decide
theorem witness_DecodeChecks_single : singleState.tv = true ∧ singleState.nnodes ≠ 0 ∧
    { singleState with bitlen := 3 }.bitlen ≠ 0 ∧ singleState.node.read singleState.root.toNat = .leaf 3 0x41 ∧
    { singleState with bitlen := 3, cfg := ⟨1, 3, 2⟩ }.cfg.dstcap.toNat < { singleState with bitlen := 3 }.bitlen.toNat ∧
    { singleState with bitlen := 3 }.bitlen.toNat ≤ singleState.cfg.dstcap.toNat := by decide
theorem witness_DecodeFollows : packedState.tv = true ∧ packedState.nnodes ≠ 0 ∧ packedState.bitlen ≠ 0 ∧
    packedState.node.read packedState.root.toNat = .internal 5 1 3 := by decide
theorem witness_DecodeFollows_split :
    { packedState with bitlen := 7 }.bitSequence =
      ((([(0, [true, true]), (1, [false]), (0, [true, true]), (1, [false])] : List (Byte × List Bool)).map (·.2)).flatten ++
        [true]) ∧
    follow packedState.node packedState.root.toNat [true] = some (.internal 3 2 0) ∧
    follow packedState.node packedState.root.toNat [true, true] = some (.leaf 2 0) ∧
    follow packedState.node packedState.root.toNat [false] = some (.leaf 2 1) := by decide
theorem witness_ResetStates : (⟨1, 1, 1⟩ : Config).wf ∧ (⟨0xFFFFFFFF, 0xFFFFFFFF, 0xFFFFFFFF⟩ : Config).wf := by decide
theorem witness_EveryStep : (stateWith (.command 0x5100000000000000)).Inv ∧
    ∃ t, step (stateWith (.command 0x5100000000000000)) = .next t := ⟨by constructor <;> decide, _, rfl⟩
theorem witness_Unobservable : packedState.Inv ∧ { packedState with dst := [(7, 9)], src := [(1, 1), (3, 1), (4, 2), (6, 3)] }.Inv ∧
    packedState.SameObservable { packedState with dst := [(7, 9)], src := [(1, 1), (3, 1), (4, 2), (6, 3)] } := by
  refine ⟨packedState_inv, by constructor <;> decide, ?_⟩
  constructor <;> first | rfl | exact fun _ => rfl | exact fun _ _ _ => rfl | (intro k hk; revert k hk; decide)
theorem witness_DataPath : { State.reset with node := tableNodes, src := [(0, 1)] }.SameObservable
    { State.resetWith State.reset.cfg with inputs := State.reset.inputs, rsp := State.reset.rsp } := by
  constructor <;> first | rfl | exact fun _ => rfl | exact fun k hk => absurd hk (Nat.not_lt_zero k) | exact fun h => nomatch h
theorem witness_Compress : ([0, 1, 2] : List Byte).Nodup ∧ (∀ x : Byte, x ∈ ([0, 1, 2] : List Byte) ↔ x ∈ ([0, 1, 0, 1, 2] : List Byte)) ∧
    ([0, 1, 0, 1, 2] : List Byte).length ≤ (⟨5, 8, 5⟩ : Config).srccap.toNat ∧
    ([0, 1, 0, 1, 2] : List Byte).length ≤ (⟨5, 8, 5⟩ : Config).dstcap.toNat ∧
    encodedLength [0, 1, 0, 1, 2] ≤ (⟨5, 8, 5⟩ : Config).bitcap.toNat := by
  refine ⟨by decide, fun x => ?_, by decide, by decide, by decide +kernel⟩
  simp only [List.mem_cons, List.not_mem_nil, or_false]
  tauto
theorem witness_Outside_row1 : packedState.Inv ∧ packedState.cv = true ∧ 2 ≤ packedState.srclen.toNat ∧
    (∀ k, k < packedState.srclen.toNat → packedState.freq.read (packedState.src.read k).toNat ≠ 0) ∧
    packedState.srclen.toNat ≤ packedState.cfg.dstcap.toNat := ⟨packedState_inv, rfl, by decide⟩
theorem witness_Outside_row2 : { packedState with src := [(1, 3)] }.Inv ∧
    { packedState with src := [(1, 3)] }.freq.read ({ packedState with src := [(1, 3)] }.src.read 1).toNat = 0 :=
  ⟨by constructor <;> decide, by decide⟩
theorem witness_Outside_row3 : { singleState with srclen := 1 }.Inv ∧ presentSymbols singleState.freq = [0x41] :=
  ⟨by constructor <;> decide, by decide⟩
theorem witness_Outside_row4 : { packedState with srclen := 1 }.Inv ∧
    { packedState with srclen := 1 }.node.read { packedState with srclen := 1 }.root.toNat = .internal 5 1 3 ∧
    packedState.node.read 1 = .leaf 2 1 := ⟨by constructor <;> decide, by decide⟩
theorem witness_Outside_row5 : { packedState with srclen := 0 }.Inv ∧ 1 ≤ (presentSymbols packedState.freq).length :=
  ⟨by constructor <;> decide, by decide⟩
theorem witness_Outside_row6 : { emptyTreeState with srclen := 2 }.Inv ∧ presentSymbols emptyTreeState.freq = [] ∧
    { emptyTreeState with srclen := 1 }.Inv := ⟨by constructor <;> decide, by decide, by constructor <;> decide⟩

end Sys2Proof.Tests
end

section
/-! PROOFS. Resets and ERRFLAGS (10_state.md R15, R38): both resets give the reset state; what a word or a step does to
ERRFLAGS; that no command but RDREG 2 depends on it. `AnswersAlike` compares a command in two states. -/

namespace Sys2Proof.Machine

/-- The reset of the registers, the flags and FREQ leaves nothing observable of the state before it but the ports and
the configuration (10_state.md R38). -/
theorem State.cleared_sameObservable (s : State) :
    s.cleared.SameObservable { State.resetWith s.cfg with inputs := s.inputs, rsp := s.rsp } where
  tv := rfl
  cv := rfl
  errflags := rfl
  nnodes := rfl
  root := rfl
  srclen := rfl
  bitlen := rfl
  dstlen := rfl
  cfg := rfl
  inputs := rfl
  rsp := rfl
  freq _ := rfl
  node h := nomatch h
  code h := nomatch h
  src k hk := absurd hk (Nat.not_lt_zero k)
  bits k hk := absurd hk (Nat.not_lt_zero k)
  dst k hk := absurd hk (Nat.not_lt_zero k)

/-- A step on `rst` makes the reset state (70_reset_and_hazards.md R240). -/
theorem step_of_hardReset {s : State} {rest : List HostInput} (h : s.inputs = .hardReset :: rest) :
    step s = .next (State.hardReset { s with inputs := rest }) := by
  simp [step, State.takeInput_cons s h]

/-- Settles O9: both resets clear the registers, the flags and FREQ, and what they keep is unobservable then. -/
theorem hardwareResetAndResetCommandGiveTheResetState :
    Obligations.HardwareResetAndResetCommandGiveTheResetState := by
  refine ⟨fun s rest h => ⟨_, step_of_hardReset h, rfl, ?_⟩, fun s => ⟨_, rfl, ?_⟩⟩
  · exact State.cleared_sameObservable { s with inputs := rest, rsp := none }
  · exact State.cleared_sameObservable { s with rsp := some ⟨.ok, 0⟩ }

/-! ### Commands that answer alike in two states -/

/-- Whenever the first outcome is a next state, so is the second, and the two states are related. -/
def AnswersAlike (R : State → State → Prop) (o p : Outcome) : Prop :=
  ∀ s', o = .next s' → ∃ t', p = .next t' ∧ R s' t'

section
variable {R : State → State → Prop} {s t : State}

theorem AnswersAlike.ok {d : Word64} (h : R (s.responded d) (t.responded d)) :
    AnswersAlike R (Machine.ok d s) (Machine.ok d t) := by
  intro s' hs
  rw [ok_eq_next.1 hs]
  exact ⟨_, rfl, h⟩

theorem AnswersAlike.raise {f : Failure} {info : Word64} (h : R (s.failed f info) (t.failed f info)) :
    AnswersAlike R (Machine.raise f info s) (Machine.raise f info t) := by
  intro s' hs
  rw [raise_eq_next.1 hs]
  exact ⟨_, rfl, h⟩

theorem AnswersAlike.ite {c : Prop} [Decidable c] {o o' p p' : Outcome} (h : AnswersAlike R o p)
    (h' : AnswersAlike R o' p') : AnswersAlike R (if c then o else o') (if c then p else p') := by
  split
  · exact h
  · exact h'

end

/-! ### ERRFLAGS (10_state.md R15) -/

/-- What an accepted word can lead to: ILLEGAL_CMD for a word that is no command, else what its command answers. -/
theorem submit_cases {w : Word64} {s t : State} (h : submit w s = .next t) :
    (∃ e, decode w = .error e ∧ t = s.failed .illegalCmd 0) ∨ ∃ i, decode w = .ok i ∧ exec i s = .next t := by
  cases hd : decode w with
  | error e => exact .inl ⟨e, rfl, raise_eq_next.1 (submit_of_error hd s ▸ h)⟩
  | ok i => exact .inr ⟨i, rfl, submit_of_decode hd s ▸ h⟩

/-- What a step can do: idle, reset, or accept a word. -/
theorem step_cases {s t : State} (h : step s = .next t) :
    (s.inputs = [] ∧ t = s) ∨
    (∃ rest, s.inputs = .hardReset :: rest ∧ t = State.hardReset { s with inputs := rest }) ∨
    ∃ w rest, s.inputs = .command w :: rest ∧ submit w { s with inputs := rest } = .next t := by
  cases hi : s.inputs with
  | nil => exact .inl ⟨rfl, by simpa [step, s.takeInput_nil hi, eq_comm] using h⟩
  | cons x rest =>
    cases x with
    | hardReset => exact .inr (.inl ⟨rest, rfl, by simpa [step_of_hardReset hi, eq_comm] using h⟩)
    | command w =>
      have hs : s = State.present { s with inputs := rest } (.command w) := by simp [State.present, ← hi]
      exact .inr (.inr ⟨w, rest, rfl, hs ▸ h⟩)

/-- An accepted word other than RESET fails, or completes with OK and keeps ERRFLAGS. -/
theorem submit_failed_or_keeps_errflags {w : Word64} {s t : State} (h : submit w s = .next t)
    (hw : decode w ≠ .ok .reset) :
    (∃ f info, t = s.failed f info) ∨ ∃ d, t.rsp = some ⟨.ok, d⟩ ∧ t.errflags = s.errflags := by
  obtain ⟨e, -, rfl⟩ | ⟨i, hi, he⟩ := submit_cases h
  · exact .inl ⟨_, _, rfl⟩
  · obtain hf | ⟨u, d, rfl, hu, -⟩ := exec_failed_or_ok he
    · exact .inl hf
    · have hne : i ≠ .reset := fun e => hw (e ▸ hi)
      exact .inr ⟨d, rfl, by simpa [hne] using hu⟩

/-- Bit 0 of ERRFLAGS stays 0: status 0 is no failure. -/
theorem exec_errflags_bit_zero {i : Instr} {s t : State} (h : exec i s = .next t)
    (hs : s.errflags.getLsbD 0 = false) : t.errflags.getLsbD 0 = false := by
  obtain ⟨f, info, rfl⟩ | ⟨u, d, rfl, hu, -⟩ := exec_failed_or_ok h
  · rw [State.failed_errflags, setErr_bit_zero, hs]
  · rw [State.responded_errflags, hu]
    split
    · rfl
    · exact hs

theorem step_errflags_bit_zero {s t : State} (h : step s = .next t) (hs : s.errflags.getLsbD 0 = false) :
    t.errflags.getLsbD 0 = false := by
  obtain ⟨-, rfl⟩ | ⟨rest, -, rfl⟩ | ⟨w, rest, -, hw⟩ := step_cases h
  · exact hs
  · simp
  · obtain ⟨e, -, rfl⟩ | ⟨i, -, hi⟩ := submit_cases hw
    · rw [State.failed_errflags, setErr_bit_zero, hs]
    · exact exec_errflags_bit_zero hi hs

/-- The two states differ in ERRFLAGS at most. -/
def SameButErrflags (s t : State) : Prop := t = { s with errflags := t.errflags }

/-- Status register 2 is ERRFLAGS, and no other shows it (10_state.md R24). -/
theorem statusRegister_errflags {r : BitVec 8} (hr : r ≠ 2) (s : State) (e : BitVec 8) :
    statusRegister { s with errflags := e } r = statusRegister s r := by
  unfold statusRegister
  split
  case h_3 h => exact absurd (BitVec.eq_of_toNat_eq h) hr
  all_goals rfl

theorem commitSymbols_errflags (xs : List Byte) (s : State) (e : BitVec 8) :
    AnswersAlike SameButErrflags (commitSymbols xs s) (commitSymbols xs { s with errflags := e }) :=
  .ite (.raise rfl) (.ok rfl)

theorem execDerive_errflags (s : State) (e : BitVec 8) :
    AnswersAlike SameButErrflags (execDerive s) (execDerive { s with errflags := e }) := by
  refine .ite (.raise rfl) ?_
  dsimp only
  split
  · exact fun _ h => nomatch h
  · exact .ok rfl

theorem execEncode_errflags (s : State) (e : BitVec 8) :
    AnswersAlike SameButErrflags (execEncode s) (execEncode { s with errflags := e }) := by
  refine .ite (.ok rfl) (.ite (.ok rfl) (.ite (.raise rfl) ?_))
  dsimp only
  split
  · exact .raise rfl
  · exact .ite (.raise rfl) (.ok rfl)

theorem execDecode_errflags (s : State) (e : BitVec 8) :
    AnswersAlike SameButErrflags (execDecode s) (execDecode { s with errflags := e }) := by
  refine .ite (.raise rfl) (.ite (.raise rfl) (.ite (.ok rfl) ?_))
  dsimp only
  split
  · exact commitSymbols_errflags _ s e
  · split
    · exact .raise rfl
    · exact commitSymbols_errflags _ s e

/-- No command but RDREG 2 depends on ERRFLAGS. -/
theorem exec_errflags {i : Instr} (hi : i ≠ .rdreg 2) (s : State) (e : BitVec 8) :
    AnswersAlike SameButErrflags (exec i s) (exec i { s with errflags := e }) := by
  cases i with
  | nop | reset | fclr | fset | fget | build | sclr | bclr => exact .ok rfl
  | clen | sput | sget | brd | drd => exact .ite (.raise rfl) (.ok rfl)
  | nrd | cval | bapp => exact .ite (.raise rfl) (.ite (.raise rfl) (.ok rfl))
  | rdreg r =>
    simp only [exec, execRdreg, statusRegister_errflags (fun h => hi (h ▸ rfl))]
    split
    · exact .raise rfl
    · exact .ok rfl
  | derive => exact execDerive_errflags s e
  | encode => exact execEncode_errflags s e
  | decode => exact execDecode_errflags s e

/-- Settles O13: every command fails, completes and keeps ERRFLAGS, or is RESET; and every command but RDREG 2 answers
alike in states that differ in ERRFLAGS. -/
theorem errorFlagsAreSticky : Obligations.ErrorFlagsAreSticky := by
  refine ⟨fun s t w h hw => ?_, fun s t h => ?_, fun s t rest hi h => ?_, fun s t => step_errflags_bit_zero,
    fun s t i e h hi => exec_errflags hi s e t h, fun s => rfl⟩
  · obtain ⟨f, info, rfl⟩ | ⟨d, hd, he⟩ := submit_failed_or_keeps_errflags h hw
    · rfl
    · rw [he, hd]
      exact BitVec.or_zero.symm
  · rw [ok_eq_next.1 h]
    rfl
  · rw [step_of_hardReset hi] at h
    cases h
    rfl

end Sys2Proof.Machine
end

section
/-! PROOFS. The records of a valid tree (10_state.md R39), carried from the forest of BUILD (Laws/Forest) to the NODE
memory of every state that has the invariant and TV = 1. -/

namespace Sys2Proof.Machine

/-! ### The records of a valid tree (10_state.md R39) -/

/-- A state whose TV is 1 and that has the invariant holds the records of its table's tree, up to NNODES. -/
theorem State.Inv.read_node {s : State} (h : s.Inv) (htv : s.tv = true) {k : Nat} (hk : k < s.nnodes.toNat) :
    s.node.read k = (recordsOf (buildTree s.freq).1).read k := by
  obtain ⟨hn, -, hb⟩ := h.tree htv
  rw [read_recordsOf, ← hb, List.getD_eq_getElem _ _ (by simpa using hk), Memory.getElem_readBlock, Nat.zero_add]

/-- The first records are the leaves of the symbols present, in ascending symbol value. -/
theorem buildTree_leaf {freq : Memory Count} {i : Nat} (hi : i < (presentSymbols freq).length) :
    (recordsOf (buildTree freq).1).read i =
      .leaf ((freq.read (presentSymbols freq)[i].toNat).setWidth 40) (presentSymbols freq)[i] := by
  obtain ⟨t, made, hb, -⟩ := buildTree_forest freq (List.ne_nil_of_length_pos (by omega))
  have hi' : i < (seedLeaves freq).length := by simpa using hi
  rw [hb, read_recordsOf_append hi', read_recordsOf, List.getD_eq_getElem _ _ hi']
  simp [seedLeaves_eq]

/-- Every record after the leaves is Internal. -/
theorem buildTree_internal {freq : Memory Count} {i : Nat} (hi : (presentSymbols freq).length ≤ i)
    (hlt : i < (buildTree freq).1.length) : ∃ w l r, (recordsOf (buildTree freq).1).read i = .internal w l r := by
  have hne : presentSymbols freq ≠ [] := fun e => by simp [buildTree_of_empty e] at hlt
  obtain ⟨t, made, hb, -, hP⟩ := buildTree_invariant freq hne
    (fun _ nodes => ∀ k, (presentSymbols freq).length ≤ k → k < nodes.length →
      ∃ w l r, (recordsOf nodes).read k = .internal w l r)
    (by
      intro live nodes live' nodes' a b rest hm hP k hk hlt
      rw [hm.nodes_eq] at hlt ⊢
      by_cases hkn : k = nodes.length
      · exact ⟨_, _, _, hkn ▸ read_recordsOf_new _ _⟩
      · have hk' : k < nodes.length := by simp at hlt; omega
        rw [read_recordsOf_append hk']
        exact hP k hk hk')
    (fun k hk hlt => by simp at hlt; omega)
  rw [hb] at hlt ⊢
  exact hP i hi hlt

/-- The tree of a non-empty table is a forest of one tree, whose root is the last record. -/
theorem buildTree_isTree {freq : Memory Count} (h : presentSymbols freq ≠ []) :
    ∃ t, t.root + 1 = (buildTree freq).1.length ∧
      Forest ((presentSymbols freq).map fun x => (freq.read x.toNat).toNat).sum [t] (buildTree freq).1 := by
  obtain ⟨t, made, hb, -, hF⟩ := buildTree_forest freq h
  have hr := (buildTree_root freq h).2
  have ht := (hF.root t (by simp)).1
  rw [hb] at hr ⊢
  dsimp only at hr ⊢
  exact ⟨t, by omega, hF⟩

/-- The sum over the symbols present is the sum over all symbols. -/
theorem sum_presentSymbols (freq : Memory Count) :
    ((presentSymbols freq).map fun x => (freq.read x.toNat).toNat).sum =
      (allSymbols.map fun x => (freq.read x.toNat).toNat).sum := by
  unfold presentSymbols
  induction allSymbols with
  | nil => rfl
  | cons x xs ih =>
    by_cases hx : freq.read x.toNat = 0
    · rw [List.filter_cons_of_neg (by simpa using hx), ih]
      simp [hx]
    · rw [List.filter_cons_of_pos (by simpa using hx), List.map_cons, List.map_cons, List.sum_cons, List.sum_cons, ih]

section
variable {s : State}

/-- NNODES and ROOT of a valid tree with keys. -/
theorem State.Inv.counts (h : s.Inv) (htv : s.tv = true) (hne : presentSymbols s.freq ≠ []) :
    s.nnodes.toNat = 2 * (presentSymbols s.freq).length - 1 ∧ s.root.toNat = s.nnodes.toNat - 1 := by
  obtain ⟨hn, hr, -⟩ := h.tree htv
  obtain ⟨hl, hroot⟩ := buildTree_root s.freq hne
  exact ⟨hn.trans hl, by rw [hr, hroot, hn]⟩

theorem State.Inv.counts_of_empty (h : s.Inv) (htv : s.tv = true) (he : presentSymbols s.freq = []) :
    s.nnodes.toNat = 0 ∧ s.root.toNat = 0 := by
  obtain ⟨hn, hr, -⟩ := h.tree htv
  rw [buildTree_of_empty he] at hn hr
  exact ⟨hn, hr⟩

/-- NODE of a valid tree is a forest of one tree with root ROOT, as far as NNODES. -/
theorem State.Inv.isTree (h : s.Inv) (htv : s.tv = true) (hne : presentSymbols s.freq ≠ []) :
    ∃ t, t.root = s.root.toNat ∧
      Forest ((presentSymbols s.freq).map fun x => (s.freq.read x.toNat).toNat).sum [t] (buildTree s.freq).1 := by
  obtain ⟨t, ht, hF⟩ := buildTree_isTree hne
  have hn := (h.tree htv).1
  have hr := (h.counts htv hne).2
  exact ⟨t, by omega, hF⟩

/-- Children of a record of a valid tree: smaller, distinct, and their weights add up. -/
theorem State.Inv.child (h : s.Inv) (htv : s.tv = true) {j : Nat} (hj : j < s.nnodes.toNat) {w : Weight}
    {l r : NodeIndex} (e : s.node.read j = .internal w l r) : l.toNat < j ∧ r.toNat < j ∧ l ≠ r ∧
      w.toNat = (s.node.read l.toNat).weight.toNat + (s.node.read r.toNat).weight.toNat := by
  have hne : presentSymbols s.freq ≠ [] := fun he => by have := (h.counts_of_empty htv he).1; omega
  obtain ⟨t, -, hF⟩ := h.isTree htv hne
  obtain ⟨hl, hr, hlr, hw⟩ := hF.child j w l r (h.read_node htv hj ▸ e)
  rw [h.read_node htv (by omega), h.read_node htv (by omega)]
  exact ⟨hl, hr, hlr, hw⟩

/-- A valid tree is closed: children of its records are its records. -/
theorem State.Inv.child_lt_nnodes (h : s.Inv) (htv : s.tv = true) (j : Nat) (w : Weight) (l r : NodeIndex)
    (hj : j < s.nnodes.toNat) (e : s.node.read j = .internal w l r) :
    l.toNat < s.nnodes.toNat ∧ r.toNat < s.nnodes.toNat := by
  obtain ⟨hl, hr, -⟩ := h.child htv hj e
  exact ⟨by omega, by omega⟩

theorem State.Inv.isChildOf_iff (h : s.Inv) (htv : s.tv = true) {i j : Nat} (hj : j < s.nnodes.toNat) :
    IsChildOf s.node i j ↔ IsChildOf (recordsOf (buildTree s.freq).1) i j :=
  isChildOf_congr (h.read_node htv hj)

theorem State.Inv.root_not_child (h : s.Inv) (htv : s.tv = true) (hne : presentSymbols s.freq ≠ []) {j : Nat}
    (hj : j < s.nnodes.toNat) : ¬ IsChildOf s.node s.root.toNat j := by
  obtain ⟨t, ht, hF⟩ := h.isTree htv hne
  rw [h.isChildOf_iff htv hj]
  exact ((hF.live_iff _).1 ⟨t, by simp, ht⟩).2 j ((h.tree htv).1 ▸ hj)

/-- A record other than the root is merged into exactly one record: none but the root is left in the collection. -/
theorem State.Inv.existsUnique_parent (h : s.Inv) (htv : s.tv = true) (hne : presentSymbols s.freq ≠ []) {i : Nat}
    (hi : i < s.nnodes.toNat) (hr : i ≠ s.root.toNat) : ∃! j, j < s.nnodes.toNat ∧ IsChildOf s.node i j := by
  obtain ⟨t, ht, hF⟩ := h.isTree htv hne
  have hn := (h.tree htv).1
  have hnl : ¬ LiveAt (recordsOf (buildTree s.freq).1) (buildTree s.freq).1.length i := by
    rw [← hF.live_iff]
    rintro ⟨u, hu, rfl⟩
    rw [List.mem_singleton.1 hu] at hr
    exact hr ht
  obtain ⟨j, hj, hc⟩ : ∃ j, j < s.nnodes.toNat ∧ IsChildOf (recordsOf (buildTree s.freq).1) i j := by
    by_contra hno
    exact hnl ⟨hn ▸ hi, fun j hj hc => hno ⟨j, hn ▸ hj, hc⟩⟩
  refine ⟨j, ⟨hj, (h.isChildOf_iff htv hj).2 hc⟩, fun k ⟨hk, hkc⟩ => ?_⟩
  exact hF.parent i k j ((h.isChildOf_iff htv hk).1 hkc) hc

theorem State.Inv.root_weight (h : s.Inv) (htv : s.tv = true) (hne : presentSymbols s.freq ≠ []) :
    (s.node.read s.root.toNat).weight.toNat = (allSymbols.map fun x => (s.freq.read x.toNat).toNat).sum := by
  obtain ⟨t, ht, hF⟩ := h.isTree htv hne
  obtain ⟨hlt, hw⟩ := hF.root t (by simp)
  rw [← ht, h.read_node htv ((h.tree htv).1 ▸ hlt), hw, ← sum_presentSymbols, ← hF.sum]
  simp

theorem State.Inv.weight_pos (h : s.Inv) (htv : s.tv = true) {i : Nat} (hi : i < s.nnodes.toNat) :
    1 ≤ (s.node.read i).weight.toNat := by
  have hne : presentSymbols s.freq ≠ [] := fun he => by have := (h.counts_of_empty htv he).1; omega
  obtain ⟨t, -, hF⟩ := h.isTree htv hne
  rw [h.read_node htv hi]
  exact hF.pos i ((h.tree htv).1 ▸ hi)

end

/-- Settles O29: the records are those of BUILD, and BUILD's merges keep a forest that ends as one tree. -/
theorem validTreesAreStrictlyBinaryAndWeighted : Obligations.ValidTreesAreStrictlyBinaryAndWeighted := by
  intro s h htv n
  by_cases he : presentSymbols s.freq = []
  · obtain ⟨hn, hr⟩ := h.counts_of_empty htv he
    have hn0 : n = 0 := by omega
    refine ⟨.inl ⟨hn, (presentSymbols_eq_nil s.freq).1 he⟩, fun i hi => ?_, fun i _ hi => ?_, fun i hi => ?_,
      fun j hj => ?_, by omega, fun hp => ?_, fun i hi => ?_⟩
    all_goals omega
  · obtain ⟨hn, hr⟩ := h.counts htv he
    have hpos : 0 < (presentSymbols s.freq).length := List.length_pos_iff.2 he
    have hle := length_presentSymbols_le s.freq
    have hnl : n = (presentSymbols s.freq).length := by omega
    refine ⟨.inr ⟨by omega, by omega, by omega, hnl.symm⟩, fun i hi => ?_, fun i hni hi => ?_, fun i hi => ?_, ?_, hr,
      fun _ => h.root_weight htv he, fun i hi => h.weight_pos htv hi⟩
    · have hi' : i < (presentSymbols s.freq).length := hnl ▸ hi
      exact ⟨_, List.getElem?_eq_getElem hi', (h.read_node htv (by omega)).trans (buildTree_leaf hi')⟩
    · obtain ⟨w, l, r, e⟩ := buildTree_internal (hnl ▸ hni) ((h.tree htv).1 ▸ hi)
      have e' := (h.read_node htv hi).trans e
      exact ⟨w, l, r, e', h.child htv hi e'⟩
    · exact h.existsUnique_parent htv he (by omega) (by omega)
    · intro j hj
      rw [← hr]
      exact h.root_not_child htv he hj

end Sys2Proof.Machine
end

section
/-! PROOFS. The invariant is kept by every command and every accepted word (`exec_inv`, `submit_inv`), and with it every
one is answered (`exec_next`, `submit_next`). -/

namespace Sys2Proof.Machine

/-! ### The invariant is kept by every accepted word (20_memory.md R48) -/

section
variable {s t : State}

theorem State.Inv.responded (h : s.Inv) (d : Word64) : (s.responded d).Inv := { h with }

theorem State.Inv.failed (h : s.Inv) (f : Failure) (info : Word64) : (s.failed f info).Inv :=
  { h with errflags_zero := (setErr_bit_zero s.errflags f).trans h.errflags_zero }

/-- FSET and FCLR: another table, no valid tree. -/
theorem State.Inv.invalidated (h : s.Inv) {freq : Memory Count} (hw : freq.wf) (hb : freq.below nSymMax) :
    State.Inv { s.invalidateTree with freq := freq } :=
  { h with freq_wf := hw, freq_below := hb, cv_tv := nofun, tree := nofun, codes := nofun }

theorem State.Inv.cleared (h : s.Inv) : s.cleared.Inv :=
  { h with
    srclen_le := Nat.zero_le _, bitlen_le := Nat.zero_le _, dstlen_le := Nat.zero_le _, nnodes_le := Nat.zero_le _
    root_lt := Nat.zero_lt_succ _, freq_wf := Memory.wf_empty, freq_below := Memory.below_empty _
    errflags_zero := by simp, cv_tv := nofun, tree := nofun, codes := nofun }

theorem execBuild_inv (h : s.Inv) (hx : execBuild s = .next t) : t.Inv := by
  rw [ok_eq_next.1 hx]
  have hl := length_buildTree_le s.freq
  have hr := buildTree_root_lt s.freq
  have hn : (BitVec.ofNat 10 (buildTree s.freq).1.length).toNat = (buildTree s.freq).1.length := by
    rw [BitVec.toNat_ofNat]; omega
  have hroot : (BitVec.ofNat 9 (buildTree s.freq).2).toNat = (buildTree s.freq).2 := by
    rw [BitVec.toNat_ofNat]; omega
  refine State.Inv.responded ?_ _
  refine { h with
    nnodes_le := hn.trans_le hl, root_lt := hroot.trans_lt hr, node_wf := Memory.wf_writeBlock h.node_wf _ _
    node_below := Memory.below_writeBlock h.node_below (by simpa using hl), cv_tv := nofun, codes := nofun
    tree := fun _ => ⟨hn, hroot, ?_⟩ }
  dsimp only
  rw [hn, Memory.readBlock_writeBlock]

theorem execDerive_inv (h : s.Inv) (hx : execDerive s = .next t) : t.Inv := by
  obtain ⟨-, rfl⟩ | ⟨htv, code, hc, rfl⟩ := execDerive_cases hx
  · exact h.failed _ _
  · obtain ⟨hw, hb⟩ := deriveTable_wf hc
    refine State.Inv.responded ?_ _
    exact { h with code_wf := hw, code_below := hb, cv_tv := fun _ => htv, codes := fun _ => hc }

theorem execSput_inv {x : Byte} (h : s.Inv) (hx : execSput x s = .next t) : t.Inv := by
  obtain ⟨-, rfl⟩ | ⟨hne, rfl⟩ := execSput_cases hx
  · exact h.failed _ _
  · have hle := h.srclen_le
    have hlt : s.srclen.toNat < s.cfg.srccap.toNat :=
      lt_of_le_of_ne hle fun e => hne (BitVec.eq_of_toNat_eq e)
    have hlen : (s.srclen + 1).toNat ≤ s.cfg.srccap.toNat := (Nat.mod_le _ _).trans hlt
    refine State.Inv.responded ?_ _
    exact { h with
      srclen_le := hlen, src_wf := Memory.wf_write h.src_wf _ _, src_below := Memory.below_write h.src_below _ hlt }

theorem execBapp_inv {n : BitVec 8} {v : BitVec 32} (h : s.Inv) (hx : execBapp n v s = .next t) : t.Inv := by
  obtain ⟨-, rfl⟩ | ⟨-, -, rfl⟩ | ⟨hn, hle, rfl⟩ := execBapp_cases hx
  · exact h.failed _ _
  · exact h.failed _ _
  · have hlen : (s.bitlen + n.setWidth 32).toNat ≤ s.cfg.bitcap.toNat := by
      rw [BitVec.toNat_add, BitVec.toNat_setWidth]; omega
    refine State.Inv.responded ?_ _
    exact { h with
      bitlen_le := hlen, bits_wf := Memory.wf_writeBlock h.bits_wf _ _
      bits_below := Memory.below_writeBlock h.bits_below (by simpa using hle) }

theorem State.Inv.putBits (h : s.Inv) {bs : List Bool} (hle : bs.length ≤ s.cfg.bitcap.toNat) : (s.putBits bs).Inv :=
  { h with
    bitlen_le := (Nat.mod_le _ _).trans hle, bits_wf := Memory.wf_writeBlock h.bits_wf _ _
    bits_below := Memory.below_writeBlock h.bits_below (by simpa using hle) }

theorem execEncode_inv (h : s.Inv) (hx : execEncode s = .next t) : t.Inv := by
  obtain ⟨-, rfl⟩ | ⟨-, rfl⟩ | ⟨-, -, rfl⟩ | ⟨-, -, _, _, -, rfl⟩ | ⟨-, -, -, -, rfl⟩ | ⟨-, -, -, hle, rfl⟩ :=
    execEncode_cases hx
  · exact (h.putBits (Nat.zero_le _)).responded _
  · obtain ⟨-, hbitcap, -⟩ := h.cfg_wf
    exact (h.putBits (bs := [false]) hbitcap).responded _
  · exact h.failed _ _
  · exact h.failed _ _
  · exact h.failed _ _
  · exact (h.putBits (by simpa using hle)).responded _

theorem commitSymbols_inv {xs : List Byte} (h : s.Inv) (hx : commitSymbols xs s = .next t) : t.Inv := by
  obtain ⟨-, rfl⟩ | ⟨hle, rfl⟩ := commitSymbols_cases hx
  · exact h.failed _ _
  · refine State.Inv.responded ?_ _
    exact { h with
      dstlen_le := (Nat.mod_le _ _).trans hle, dst_wf := Memory.wf_writeBlock h.dst_wf _ _
      dst_below := Memory.below_writeBlock h.dst_below (by simpa using hle) }

theorem execDecode_inv (h : s.Inv) (hx : execDecode s = .next t) : t.Inv := by
  obtain ⟨-, rfl⟩ | ⟨-, -, rfl⟩ | ⟨-, -, -, rfl⟩ | ⟨-, -, -, _, _, -, hc⟩ |
    ⟨-, -, -, _, _, _, -, ⟨_, -, rfl⟩ | ⟨_, -, hc⟩⟩ := execDecode_cases hx
  · exact h.failed _ _
  · exact h.failed _ _
  · refine State.Inv.responded ?_ _
    exact { h with dstlen_le := Nat.zero_le _ }
  · exact commitSymbols_inv h hc
  · exact h.failed _ _
  · exact commitSymbols_inv h hc

/-- Every command keeps the invariant. -/
theorem exec_inv {i : Instr} (h : s.Inv) (hx : exec i s = .next t) : t.Inv := by
  cases i with
  | nop | fget => exact ok_eq_next.1 hx ▸ h.responded _
  | reset => exact ok_eq_next.1 hx ▸ h.cleared.responded _
  | fclr => exact ok_eq_next.1 hx ▸ (h.invalidated Memory.wf_empty (Memory.below_empty _)).responded _
  | fset x c =>
    exact ok_eq_next.1 hx ▸
      (h.invalidated (Memory.wf_write h.freq_wf _ _) (Memory.below_write h.freq_below _ x.isLt)).responded _
  | sclr =>
    rw [ok_eq_next.1 hx]
    refine State.Inv.responded ?_ _
    exact { h with srclen_le := Nat.zero_le _ }
  | bclr =>
    rw [ok_eq_next.1 hx]
    refine State.Inv.responded ?_ _
    exact { h with bitlen_le := Nat.zero_le _ }
  | build => exact execBuild_inv h hx
  | derive => exact execDerive_inv h hx
  | sput => exact execSput_inv h hx
  | bapp => exact execBapp_inv h hx
  | encode => exact execEncode_inv h hx
  | decode => exact execDecode_inv h hx
  | rdreg =>
    obtain ⟨-, rfl⟩ | ⟨v, -, rfl⟩ := execRdreg_cases hx
    · exact h.failed _ _
    · exact h.responded _
  | nrd =>
    obtain ⟨-, rfl⟩ | ⟨-, -, rfl⟩ | ⟨-, -, rfl⟩ := execNrd_cases hx
    · exact h.failed _ _
    · exact h.failed _ _
    · exact h.responded _
  | clen =>
    obtain ⟨-, rfl⟩ | ⟨-, rfl⟩ := execClen_cases hx
    · exact h.failed _ _
    · exact h.responded _
  | cval =>
    obtain ⟨-, rfl⟩ | ⟨-, -, rfl⟩ | ⟨-, -, rfl⟩ := execCval_cases hx
    · exact h.failed _ _
    · exact h.failed _ _
    · exact h.responded _
  | sget =>
    obtain ⟨-, rfl⟩ | ⟨-, rfl⟩ := execSget_cases hx
    · exact h.failed _ _
    · exact h.responded _
  | brd =>
    obtain ⟨-, rfl⟩ | ⟨-, rfl⟩ := execBrd_cases hx
    · exact h.failed _ _
    · exact h.responded _
  | drd =>
    obtain ⟨-, rfl⟩ | ⟨-, rfl⟩ := execDrd_cases hx
    · exact h.failed _ _
    · exact h.responded _

theorem submit_inv {w : Word64} (h : s.Inv) (hx : submit w s = .next t) : t.Inv := by
  obtain ⟨e, -, rfl⟩ | ⟨i, -, hi⟩ := submit_cases hx
  · exact h.failed _ _
  · exact exec_inv h hi

/-! ### Every accepted word is answered (70_reset_and_hazards.md R253) -/

/-- Internal records of a valid tree come after the leaves. -/
theorem State.Inv.leaves_le (h : s.Inv) (htv : s.tv = true) {j : Nat} (hj : j < s.nnodes.toNat) {w : Weight}
    {l r : NodeIndex} (e : s.node.read j = .internal w l r) : (presentSymbols s.freq).length ≤ j := by
  by_contra hlt
  rw [h.read_node htv hj, buildTree_leaf (Nat.lt_of_not_le hlt)] at e
  cases e

theorem State.Inv.root_lt_nnodes (h : s.Inv) (htv : s.tv = true) (hn : s.nnodes.toNat ≠ 0) :
    s.root.toNat < s.nnodes.toNat := by
  have hne : presentSymbols s.freq ≠ [] := fun he => hn (h.counts_of_empty htv he).1
  have hr := (h.counts htv hne).2
  omega

/-- The walk of DERIVE ends on a valid tree: no path has more than 256 records (43_code_table.md R121). -/
theorem State.Inv.deriveTable_completes (h : s.Inv) (htv : s.tv = true) :
    ∃ code, deriveTable s.node s.nnodes.toNat s.root.toNat = some code := by
  unfold deriveTable
  split
  · exact ⟨_, rfl⟩
  · rename_i hn
    split
    · exact ⟨_, rfl⟩
    · have hne : presentSymbols s.freq ≠ [] := fun he => hn (h.counts_of_empty htv he).1
      have hle := length_presentSymbols_le s.freq
      obtain ⟨hnn, hr⟩ := h.counts htv hne
      refine walk_completes (n := (presentSymbols s.freq).length) (size := s.nnodes.toNat) (fun j w a b hj e => ?_)
        (h.root_lt_nnodes htv hn) (by decide) (by unfold depthMax; omega) 0 0 _
      obtain ⟨ha, hb, -⟩ := h.child htv hj e
      exact ⟨h.leaves_le htv hj e, ha, hb⟩

theorem exec_next (h : s.Inv) (i : Instr) : ∃ t, exec i s = .next t := by
  obtain ht | ⟨-, htv, hd⟩ := exec_next_or_malformed i s
  · exact ht
  · obtain ⟨code, hc⟩ := h.deriveTable_completes htv
    cases hd.symm.trans hc

theorem submit_next (h : s.Inv) (w : Word64) : ∃ t, submit w s = .next t := by
  cases hd : decode w with
  | error e => exact ⟨_, submit_of_error hd s⟩
  | ok i => exact submit_of_decode hd s ▸ exec_next h i

end

end Sys2Proof.Machine
end

section
/-! PROOFS. The unobservable elements (10_state.md R37): each command answers alike in two states that agree outside
them, and so does every session. -/

namespace Sys2Proof.Machine

/-! ### Commands in two states that agree on the observable (10_state.md R37) -/

/-- A block written on top of agreeing elements gives agreeing elements up to its end. -/
theorem Memory.read_writeBlock_congr {α : Type} [Inhabited α] [DecidableEq α] {m m' : Memory α} {i : Nat} (vs : List α)
    (h : ∀ k, k < i → m.read k = m'.read k) {k : Nat} (hk : k < i + vs.length) :
    (m.writeBlock i vs).read k = (m'.writeBlock i vs).read k := by
  rw [Memory.read_writeBlock, Memory.read_writeBlock]
  by_cases hi : i ≤ k
  · rw [if_pos ⟨hi, hk⟩, if_pos ⟨hi, hk⟩]
  · rw [if_neg (by omega), if_neg (by omega), h k (by omega)]

/-- After MemWrite from index 0 two memories agree below the length written, as its register holds it. -/
theorem Memory.read_writeBlock_zero_congr {α : Type} [Inhabited α] [DecidableEq α] (m m' : Memory α) {w : Nat}
    (vs : List α) {k : Nat} (hk : k < (BitVec.ofNat w vs.length).toNat) :
    (m.writeBlock 0 vs).read k = (m'.writeBlock 0 vs).read k := by
  have hlen : (BitVec.ofNat w vs.length).toNat ≤ vs.length := Nat.mod_le _ _
  exact Memory.read_writeBlock_congr vs (fun j hj => absurd hj (Nat.not_lt_zero j)) (by omega)

/-- Canonical memories of n elements that agree on them are equal. -/
theorem Memory.ext_of_below {α : Type} [Inhabited α] [DecidableEq α] {m m' : Memory α} {n : Nat} (hw : m.wf)
    (hw' : m'.wf) (hb : m.below n) (hb' : m'.below n) (h : ∀ k, k < n → m.read k = m'.read k) : m = m' := by
  refine Memory.ext_of_read hw hw' fun k => ?_
  by_cases hk : k < n
  · exact h k hk
  · rw [Memory.read_of_below hb (by omega), Memory.read_of_below hb' (by omega)]

section
variable {s t : State}

theorem State.SameObservable.responded (h : s.SameObservable t) (d : Word64) :
    (s.responded d).SameObservable (t.responded d) := { h with rsp := rfl }

theorem State.SameObservable.failed (h : s.SameObservable t) (f : Failure) (info : Word64) :
    (s.failed f info).SameObservable (t.failed f info) :=
  { h with errflags := congrArg (setErr · f) h.errflags, rsp := rfl }

/-- FSET and FCLR: another table, no valid tree. -/
theorem State.SameObservable.invalidated (h : s.SameObservable t) {freq freq' : Memory Count}
    (hf : ∀ k, freq.read k = freq'.read k) :
    State.SameObservable { s.invalidateTree with freq := freq } { t.invalidateTree with freq := freq' } :=
  { h with tv := rfl, cv := rfl, freq := hf, node := nofun, code := nofun }

theorem State.SameObservable.cleared (h : s.SameObservable t) : s.cleared.SameObservable t.cleared :=
  { h with
    tv := rfl, cv := rfl, errflags := rfl, nnodes := rfl, root := rfl, srclen := rfl, bitlen := rfl, dstlen := rfl
    freq := fun _ => rfl, node := nofun, code := nofun, src := nofun, bits := nofun, dst := nofun }

theorem State.SameObservable.statusRegister (h : s.SameObservable t) (r : BitVec 8) :
    statusRegister s r = statusRegister t r := by
  simp only [Machine.statusRegister, h.tv, h.cv, h.errflags, h.nnodes, h.root, h.srclen, h.bitlen, h.dstlen, h.cfg]

theorem State.SameObservable.packedByte (h : s.SameObservable t) (j : Nat) : s.packedByte j = t.packedByte j := by
  have hv : ∀ p, s.viewBit p = t.viewBit p := fun p => by
    unfold State.viewBit
    rw [← h.bitlen]
    split
    · exact h.bits p ‹_›
    · rfl
  simp only [State.packedByte, hv]

theorem State.SameObservable.sourceBytes (h : s.SameObservable t) : s.sourceBytes = t.sourceBytes := by
  unfold State.sourceBytes
  rw [← h.srclen]
  exact Memory.readBlock_congr fun _ hk => h.src _ (by omega)

theorem State.SameObservable.bitSequence (h : s.SameObservable t) : s.bitSequence = t.bitSequence := by
  unfold State.bitSequence
  rw [← h.bitlen]
  exact Memory.readBlock_congr fun _ hk => h.bits _ (by omega)

theorem State.SameObservable.putBits (h : s.SameObservable t) (bs : List Bool) :
    (s.putBits bs).SameObservable (t.putBits bs) :=
  { h with
    bitlen := rfl
    bits := fun _ hk => Memory.read_writeBlock_zero_congr _ _ bs hk }

/-- The same bits written after agreeing ones. -/
theorem execBapp_sameObservable (h : s.SameObservable t) (n : BitVec 8) (v : BitVec 32) :
    AnswersAlike State.SameObservable (execBapp n v s) (execBapp n v t) := by
  unfold execBapp
  rw [← h.bitlen, ← h.cfg]
  refine .ite (.raise (h.failed _ _)) (.ite (.raise (h.failed _ _)) (.ok ?_))
  refine State.SameObservable.responded ?_ _
  refine { h with bitlen := rfl, cfg := rfl, bits := fun k hk => Memory.read_writeBlock_congr _ h.bits ?_ }
  have hlen : (s.bitlen + n.setWidth 32).toNat ≤ s.bitlen.toNat + n.toNat := by
    rw [BitVec.toNat_add, BitVec.toNat_setWidth]; omega
  simpa using Nat.lt_of_lt_of_le hk hlen

/-- The same byte written after agreeing ones. -/
theorem execSput_sameObservable (h : s.SameObservable t) (x : Byte) :
    AnswersAlike State.SameObservable (execSput x s) (execSput x t) := by
  unfold execSput
  rw [← h.srclen, ← h.cfg]
  refine .ite (.raise (h.failed _ _)) (.ok ?_)
  refine State.SameObservable.responded ?_ _
  exact { h with
    srclen := rfl, cfg := rfl
    src := fun _ hk => Memory.read_writeBlock_congr [x] h.src (Nat.lt_of_lt_of_le hk (Nat.mod_le _ _)) }

theorem execSget_sameObservable (h : s.SameObservable t) (k : Length) :
    AnswersAlike State.SameObservable (execSget k s) (execSget k t) := by
  unfold execSget
  rw [← h.srclen]
  split
  · exact .raise (h.failed _ _)
  · rw [← h.src _ (by omega)]
    exact .ok (h.responded _)

theorem execBrd_sameObservable (h : s.SameObservable t) (j : Length) :
    AnswersAlike State.SameObservable (execBrd j s) (execBrd j t) := by
  unfold execBrd
  rw [← h.bitlen, ← h.packedByte]
  exact .ite (.raise (h.failed _ _)) (.ok (h.responded _))

theorem execDrd_sameObservable (h : s.SameObservable t) (k : Length) :
    AnswersAlike State.SameObservable (execDrd k s) (execDrd k t) := by
  unfold execDrd
  rw [← h.dstlen]
  split
  · exact .raise (h.failed _ _)
  · rw [← h.dst _ (by omega)]
    exact .ok (h.responded _)

theorem execRdreg_sameObservable (h : s.SameObservable t) (r : BitVec 8) :
    AnswersAlike State.SameObservable (execRdreg r s) (execRdreg r t) := by
  unfold execRdreg
  rw [← h.statusRegister]
  split
  · exact .raise (h.failed _ _)
  · exact .ok (h.responded _)

theorem execFset_sameObservable (h : s.SameObservable t) (x : Byte) (c : Count) :
    AnswersAlike State.SameObservable (execFset x c s) (execFset x c t) :=
  .ok ((h.invalidated fun k => by rw [Memory.read_write, Memory.read_write, h.freq]).responded _)

theorem execFget_sameObservable (h : s.SameObservable t) (x : Byte) :
    AnswersAlike State.SameObservable (execFget x s) (execFget x t) := by
  unfold execFget
  rw [← h.freq]
  exact .ok (h.responded _)

theorem execNrd_sameObservable (h : s.SameObservable t) (k : BitVec 16) :
    AnswersAlike State.SameObservable (execNrd k s) (execNrd k t) := by
  unfold execNrd
  rw [← h.tv, ← h.nnodes]
  split
  · exact .raise (h.failed _ _)
  · split
    · exact .raise (h.failed _ _)
    · rename_i htv hk
      rw [← h.node (by simpa using htv) _ (by omega)]
      exact .ok (h.responded _)

theorem execClen_sameObservable (h : s.SameObservable t) (x : Byte) :
    AnswersAlike State.SameObservable (execClen x s) (execClen x t) := by
  unfold execClen
  rw [← h.cv]
  split
  · exact .raise (h.failed _ _)
  · rename_i hcv
    rw [← h.code (by simpa using hcv) _ x.isLt]
    exact .ok (h.responded _)

theorem execCval_sameObservable (h : s.SameObservable t) (x : Byte) (q : BitVec 16) :
    AnswersAlike State.SameObservable (execCval x q s) (execCval x q t) := by
  unfold execCval
  rw [← h.cv]
  refine .ite (.raise (h.failed _ _)) ?_
  split
  · exact .raise (h.failed _ _)
  · rename_i hcv
    rw [← h.code (by simpa using hcv) _ x.isLt]
    exact .ok (h.responded _)

/-! The commands that use the whole table, the whole tree or all codes need the invariant: FREQ and CODE are canonical,
and a valid tree has no child past NNODES. -/

theorem State.SameObservable.freq_eq (h : s.SameObservable t) (hs : s.Inv) (ht : t.Inv) : s.freq = t.freq :=
  Memory.ext_of_read hs.freq_wf ht.freq_wf h.freq

theorem State.SameObservable.code_eq (h : s.SameObservable t) (hs : s.Inv) (ht : t.Inv) (hcv : s.cv = true) :
    s.code = t.code :=
  Memory.ext_of_below hs.code_wf ht.code_wf hs.code_below ht.code_below (h.code hcv)

theorem execBuild_sameObservable (h : s.SameObservable t) (hs : s.Inv) (ht : t.Inv) :
    AnswersAlike State.SameObservable (execBuild s) (execBuild t) := by
  unfold execBuild
  rw [← h.freq_eq hs ht]
  refine .ok (State.SameObservable.responded ?_ _)
  exact { h with
    nnodes := rfl, root := rfl, tv := rfl, cv := rfl, freq := fun _ => rfl, code := nofun
    node := fun _ _ hk => Memory.read_writeBlock_zero_congr _ _ _ hk }

theorem State.SameObservable.read_root (h : s.SameObservable t) (hs : s.Inv) (htv : s.tv = true)
    (hn : s.nnodes.toNat ≠ 0) : s.node.read s.root.toNat = t.node.read s.root.toNat :=
  h.node htv _ (hs.root_lt_nnodes htv hn)

/-- DERIVE reads the records of the tree alone. -/
theorem State.SameObservable.deriveTable_eq (h : s.SameObservable t) (hs : s.Inv) (htv : s.tv = true) :
    deriveTable s.node s.nnodes.toNat s.root.toNat = deriveTable t.node s.nnodes.toNat s.root.toNat := by
  unfold deriveTable
  split
  · rfl
  · rename_i hn
    rw [← h.read_root hs htv hn]
    split
    · rfl
    · exact walk_congr (hs.child_lt_nnodes htv) (h.node htv) (hs.root_lt_nnodes htv hn) _ _ _

theorem State.SameObservable.codesWritten_eq (h : s.SameObservable t) (hs : s.Inv) (htv : s.tv = true) :
    codesWritten s.node s.nnodes s.root.toNat = codesWritten t.node s.nnodes s.root.toNat := by
  unfold codesWritten
  split
  · rfl
  · rename_i hn
    rw [← h.read_root hs htv fun e => hn (BitVec.eq_of_toNat_eq e)]

theorem execDerive_sameObservable (h : s.SameObservable t) (hs : s.Inv) :
    AnswersAlike State.SameObservable (execDerive s) (execDerive t) := by
  unfold execDerive
  rw [← h.tv, ← h.nnodes, ← h.root]
  split
  · exact .raise (h.failed _ _)
  · rename_i htv
    have htv : s.tv = true := by simpa using htv
    rw [← h.deriveTable_eq hs htv, ← h.codesWritten_eq hs htv]
    split
    · exact fun _ hx => nomatch hx
    · refine .ok (State.SameObservable.responded ?_ _)
      exact { h with tv := rfl, nnodes := rfl, root := rfl, cv := rfl, code := fun _ _ _ => rfl }

theorem execEncode_sameObservable (h : s.SameObservable t) (hs : s.Inv) (ht : t.Inv) :
    AnswersAlike State.SameObservable (execEncode s) (execEncode t) := by
  unfold execEncode
  have hb : s.src.readBlock 0 s.srclen.toNat = t.src.readBlock 0 t.srclen.toNat := h.sourceBytes
  rw [← hb, ← h.srclen, ← h.cv, ← h.cfg]
  refine .ite (.ok ((h.putBits _).responded _)) (.ite (.ok ((h.putBits _).responded _)) ?_)
  split
  · exact .raise (h.failed _ _)
  · rename_i hcv
    rw [← h.code_eq hs ht (by simpa using hcv)]
    dsimp only
    split
    · exact .raise (h.failed _ _)
    · exact .ite (.raise (h.failed _ _)) (.ok ((h.putBits _).responded _))

/-- The trial pass reads only the records it reaches. -/
theorem trialPass_congr {node node' : Memory NodeRec} {size : Nat} {top : NodeIndex × NodeIndex}
    (hchild : ∀ j w a b, j < size → node.read j = .internal w a b → a.toNat < size ∧ b.toNat < size)
    (heq : ∀ j, j < size → node.read j = node'.read j) (htop : top.1.toNat < size ∧ top.2.toNat < size)
    (bits : List Bool) (cur : Option (NodeIndex × NodeIndex))
    (hcur : (cur.getD top).1.toNat < size ∧ (cur.getD top).2.toNat < size) :
    trialPass node top bits cur = trialPass node' top bits cur := by
  induction bits generalizing cur with
  | nil => cases cur <;> rfl
  | cons bit bits ih =>
    rw [trialPass, trialPass]
    have hlt : (if bit then (cur.getD top).2 else (cur.getD top).1).toNat < size := by
      split
      · exact hcur.2
      · exact hcur.1
    rw [← heq _ hlt]
    split
    · rw [ih none htop]
    · rename_i w l r e
      exact ih _ (hchild _ w l r hlt e)

theorem commitSymbols_sameObservable (h : s.SameObservable t) (xs : List Byte) :
    AnswersAlike State.SameObservable (commitSymbols xs s) (commitSymbols xs t) := by
  unfold commitSymbols
  rw [← h.cfg]
  refine .ite (.raise (h.failed _ _)) (.ok (State.SameObservable.responded ?_ _))
  exact { h with
    dstlen := rfl, cfg := rfl
    dst := fun _ hk => Memory.read_writeBlock_zero_congr _ _ xs hk }

theorem execDecode_sameObservable (h : s.SameObservable t) (hs : s.Inv) :
    AnswersAlike State.SameObservable (execDecode s) (execDecode t) := by
  unfold execDecode
  have hb : s.bits.readBlock 0 s.bitlen.toNat = t.bits.readBlock 0 t.bitlen.toNat := h.bitSequence
  rw [← hb, ← h.tv, ← h.nnodes, ← h.bitlen, ← h.root]
  split
  · exact .raise (h.failed _ _)
  · rename_i htv
    have htv : s.tv = true := by simpa using htv
    split
    · exact .raise (h.failed _ _)
    · rename_i hm
      split
      · refine .ok (State.SameObservable.responded ?_ _)
        exact { h with tv := rfl, nnodes := rfl, root := rfl, bitlen := rfl, dstlen := rfl, dst := nofun }
      · rename_i hbit
        have hn : s.nnodes.toNat ≠ 0 := fun e => by
          have hn0 : s.nnodes = 0 := BitVec.eq_of_toNat_eq e
          exact hbit (by simpa [hn0] using hm)
        rw [← h.read_root hs htv hn]
        split
        · exact commitSymbols_sameObservable h _
        · rename_i w l r e
          have htop := hs.child_lt_nnodes htv _ w l r (hs.root_lt_nnodes htv hn) e
          rw [← trialPass_congr (top := (l, r)) (hs.child_lt_nnodes htv) (h.node htv) htop _ none htop]
          split
          · exact .raise (h.failed _ _)
          · exact commitSymbols_sameObservable h _

/-- Every command answers alike in two states with the invariant that agree on the observable. -/
theorem exec_sameObservable (h : s.SameObservable t) (hs : s.Inv) (ht : t.Inv) (i : Instr) :
    AnswersAlike State.SameObservable (exec i s) (exec i t) := by
  cases i with
  | nop => exact .ok (h.responded _)
  | reset => exact .ok (h.cleared.responded _)
  | rdreg r => exact execRdreg_sameObservable h r
  | fclr => exact .ok ((h.invalidated fun _ => rfl).responded _)
  | fset x c => exact execFset_sameObservable h x c
  | fget x => exact execFget_sameObservable h x
  | build => exact execBuild_sameObservable h hs ht
  | nrd k => exact execNrd_sameObservable h k
  | derive => exact execDerive_sameObservable h hs
  | clen x => exact execClen_sameObservable h x
  | cval x q => exact execCval_sameObservable h x q
  | sclr =>
    refine .ok (State.SameObservable.responded ?_ _)
    exact { h with srclen := rfl, src := nofun }
  | sput x => exact execSput_sameObservable h x
  | sget k => exact execSget_sameObservable h k
  | bclr =>
    refine .ok (State.SameObservable.responded ?_ _)
    exact { h with bitlen := rfl, bits := nofun }
  | bapp n v => exact execBapp_sameObservable h n v
  | brd j => exact execBrd_sameObservable h j
  | drd k => exact execDrd_sameObservable h k
  | encode => exact execEncode_sameObservable h hs ht
  | decode => exact execDecode_sameObservable h hs

theorem submit_sameObservable (h : s.SameObservable t) (hs : s.Inv) (ht : t.Inv) (w : Word64) :
    AnswersAlike State.SameObservable (submit w s) (submit w t) := by
  cases hd : decode w with
  | error e =>
    rw [submit_of_error hd, submit_of_error hd]
    exact .raise (h.failed _ _)
  | ok i =>
    rw [submit_of_decode hd, submit_of_decode hd]
    exact exec_sameObservable h hs ht i

end

/-- Settles O51, by induction on the words: each is answered alike in the two states, and keeps both invariants. -/
theorem invalidMemoryElementsAreUnobservable : Obligations.InvalidMemoryElementsAreUnobservable := by
  intro s t ws hs ht h
  induction ws generalizing s t with
  | nil => exact ⟨s, t, [], rfl, rfl, h⟩
  | cons w ws ih =>
    obtain ⟨s1, hs1⟩ := submit_next hs w
    obtain ⟨t1, ht1, h1⟩ := submit_sameObservable h hs ht w s1 hs1
    obtain ⟨s', t', rs, hs', ht', h'⟩ := ih s1 t1 (submit_inv hs hs1) (submit_inv ht ht1) h1
    refine ⟨s', t', s1.rsp.toList ++ rs, session_cons hs1 hs', ?_, h'⟩
    rw [h1.rsp]
    exact session_cons ht1 ht'

end Sys2Proof.Machine
end

section
/-! PROOFS. Repeated commands (20_memory.md R47; 60_exceptions.md R220): no command depends on the response before it, a
failed command fails again (`exec_failed_again`), and the read commands and DECODE lead to a state that they keep. -/

namespace Sys2Proof.Machine

/-! ### A failed command fails again -/

/-- No command depends on the response before it. -/
theorem exec_rsp (i : Instr) (s : State) (r : Option Response) : exec i { s with rsp := r } = exec i s := by
  cases i <;> rfl

/-- A failure writes ERRFLAGS and the response alone, and no command that can fail depends on them; the bit of
ERRFLAGS is set already (60_exceptions.md R220). -/
theorem exec_failed_again {i : Instr} {s : State} {f : Failure} {info : Word64}
    (h : exec i s = .next (s.failed f info)) : exec i (s.failed f info) = .next (s.failed f info) := by
  have hi : i ≠ .rdreg 2 := by
    rintro rfl
    exact State.failed_ne_responded (ok_eq_next.1 h)
  obtain ⟨u, hu, hsame⟩ := exec_errflags hi s (setErr s.errflags f) _ h
  have hrsp : u.rsp = some ⟨.failed f, info⟩ := congrArg State.rsp hsame
  have hflags : u.errflags = (s.failed f info).errflags := by
    obtain ⟨f', info', rfl⟩ | ⟨v, d, rfl, -⟩ := exec_failed_or_ok hu
    · obtain ⟨rfl, -⟩ : f' = f ∧ info' = info := by simpa using hrsp
      simp
    · simp at hrsp
  calc exec i (s.failed f info) = exec i { s with errflags := setErr s.errflags f } :=
        exec_rsp i { s with errflags := setErr s.errflags f } _
    _ = .next u := hu
    _ = .next (s.failed f info) := by rw [hsame, hflags]

/-! ### Read commands (20_memory.md R47) -/

/-- A command that completed and wrote the response alone completes again with the same response. -/
theorem exec_responded_again {i : Instr} {s : State} {d : Word64} (h : exec i s = .next (s.responded d)) :
    exec i (s.responded d) = .next (s.responded d) :=
  (exec_rsp i s _).trans h

/-- The state of t is that of s but for what a failure writes, or but for the response of a completion. -/
def FailedOrResponded (s t : State) : Prop := (∃ f info, t = s.failed f info) ∨ ∃ d, t = s.responded d

/-- What R47 says of a command follows when it writes nothing but its response or its failure. -/
theorem FailedOrResponded.idempotent {i : Instr} {s t : State} (ht : FailedOrResponded s t) (h : exec i s = .next t) :
    (∀ d, t.rsp = some ⟨.ok, d⟩ → t = { s with rsp := some ⟨.ok, d⟩ }) ∧ exec i t = .next t := by
  obtain ⟨f, info, rfl⟩ | ⟨d, rfl⟩ := ht
  · exact ⟨fun d hd => by simp at hd, exec_failed_again h⟩
  · exact ⟨fun d' hd => hd ▸ rfl, exec_responded_again h⟩

/-! ### DECODE -/

section
variable {s t : State}

/-- DECODE past its checks, on a single-leaf tree: the leaf's symbol once for each bit (46_decoder.md R174). -/
theorem execDecode_of_leaf (htv : s.tv = true) (hn : s.nnodes ≠ 0) (hb : s.bitlen ≠ 0) {w : Weight} {x : Byte}
    (hr : s.node.read s.root.toNat = .leaf w x) :
    execDecode s = commitSymbols (List.replicate s.bitlen.toNat x) s := by
  rw [execDecode, if_neg (by simp [htv]), if_neg (by rw [beq_false_of_ne hn, beq_false_of_ne hb]; decide),
    if_neg hb, hr]

/-- DECODE past its checks, when the trial pass ends at a restart: the symbols it found (46_decoder.md R175). -/
theorem execDecode_of_complete (htv : s.tv = true) (hn : s.nnodes ≠ 0) (hb : s.bitlen ≠ 0) {w : Weight}
    {l r : NodeIndex} (hr : s.node.read s.root.toNat = .internal w l r) {xs : List Byte}
    (hx : trialPass s.node (l, r) s.bitSequence none = .complete xs) : execDecode s = commitSymbols xs s := by
  unfold State.bitSequence at hx
  rw [execDecode, if_neg (by simp [htv]), if_neg (by rw [beq_false_of_ne hn, beq_false_of_ne hb]; decide),
    if_neg hb, hr]
  simp only [hx]

/-- A commit writes DST, DSTLEN, ERRFLAGS and the response alone, none of which DECODE reads. -/
theorem commitSymbols_frame {xs : List Byte} (h : commitSymbols xs s = .next t) :
    ∃ m n e r, t = { s with dst := m, dstlen := n, errflags := e, rsp := r } := by
  obtain ⟨-, rfl⟩ | ⟨-, rfl⟩ := commitSymbols_cases h
  · exact ⟨_, _, _, _, rfl⟩
  · exact ⟨_, _, _, _, rfl⟩

/-- The same symbols committed again replace themselves, or exceed DSTCAP again. -/
theorem commitSymbols_again {xs : List Byte} (h : commitSymbols xs s = .next t) :
    commitSymbols xs t = .next t := by
  obtain ⟨hlt, rfl⟩ | ⟨hle, rfl⟩ := commitSymbols_cases h
  · simp [commitSymbols, hlt]
  · simp [commitSymbols, Nat.not_lt.2 hle, State.responded, Memory.writeBlock_writeBlock]

theorem execDecode_again (h : execDecode s = .next t) : execDecode t = .next t := by
  obtain ⟨-, rfl⟩ | ⟨-, -, rfl⟩ | ⟨htv, hn, hb, rfl⟩ | ⟨htv, hn, hb, w, x, hr, hc⟩ |
    ⟨htv, hn, hb, w, l, r, hr, ⟨n, -, rfl⟩ | ⟨xs, hx, hc⟩⟩ := execDecode_cases h
  · exact exec_failed_again (i := .decode) h
  · exact exec_failed_again (i := .decode) h
  · simp [execDecode, htv, hn, hb, State.responded, ok]
  · obtain ⟨m, n, e, p, rfl⟩ := commitSymbols_frame hc
    have hd := execDecode_of_leaf (s := { s with dst := m, dstlen := n, errflags := e, rsp := p }) htv hn hb hr
    exact hd.trans (commitSymbols_again hc)
  · exact exec_failed_again (i := .decode) h
  · obtain ⟨m, n, e, p, rfl⟩ := commitSymbols_frame hc
    have hd := execDecode_of_complete (s := { s with dst := m, dstlen := n, errflags := e, rsp := p }) htv hn hb hr hx
    exact hd.trans (commitSymbols_again hc)

end

/-- Settles O15: a read command writes its response or its failure alone; DECODE commits the same symbols again. -/
theorem readCommandsAreIdempotent : Obligations.ReadCommandsAreIdempotent := by
  refine ⟨fun s t i hi h => FailedOrResponded.idempotent ?_ h, fun _ _ => execDecode_again⟩
  obtain ⟨r, rfl⟩ | ⟨x, rfl⟩ | ⟨k, rfl⟩ | ⟨x, rfl⟩ | ⟨x, q, rfl⟩ | ⟨k, rfl⟩ | ⟨j, rfl⟩ | ⟨k, rfl⟩ := hi
  · obtain ⟨-, ht⟩ | ⟨v, -, ht⟩ := execRdreg_cases h
    exacts [.inl ⟨_, _, ht⟩, .inr ⟨_, ht⟩]
  · exact .inr ⟨_, ok_eq_next.1 h⟩
  · obtain ⟨-, ht⟩ | ⟨-, -, ht⟩ | ⟨-, -, ht⟩ := execNrd_cases h
    exacts [.inl ⟨_, _, ht⟩, .inl ⟨_, _, ht⟩, .inr ⟨_, ht⟩]
  · obtain ⟨-, ht⟩ | ⟨-, ht⟩ := execClen_cases h
    exacts [.inl ⟨_, _, ht⟩, .inr ⟨_, ht⟩]
  · obtain ⟨-, ht⟩ | ⟨-, -, ht⟩ | ⟨-, -, ht⟩ := execCval_cases h
    exacts [.inl ⟨_, _, ht⟩, .inl ⟨_, _, ht⟩, .inr ⟨_, ht⟩]
  · obtain ⟨-, ht⟩ | ⟨-, ht⟩ := execSget_cases h
    exacts [.inl ⟨_, _, ht⟩, .inr ⟨_, ht⟩]
  · obtain ⟨-, ht⟩ | ⟨-, ht⟩ := execBrd_cases h
    exacts [.inl ⟨_, _, ht⟩, .inr ⟨_, ht⟩]
  · obtain ⟨-, ht⟩ | ⟨-, ht⟩ := execDrd_cases h
    exacts [.inl ⟨_, _, ht⟩, .inr ⟨_, ht⟩]

end Sys2Proof.Machine
end

section
/-! PROOFS. Decoding (30_encoding.md R64, R65, R69): the row of each opcode, the word of each row's command, each answer
of the decoder, and ILLEGAL_CMD for exactly the words that are no well-formed command. -/

namespace Sys2Proof

/-! ### The rows of the opcode map (30_encoding.md R62) -/

theorem rowOf_of_mem {r : Row} (h : r ∈ opcodeMap) : rowOf r.op = some r := by
  cases hf : rowOf r.op with
  | none => exact absurd (beq_self_eq_true r.op) (List.find?_eq_none.1 hf r h)
  | some r' =>
    obtain ⟨hm, hop⟩ := rowOf_some hf
    rw [List.inj_on_of_nodup_map opcodeMap_nodup hm h hop]

theorem rowOf_eq_none {op : BitVec 8} : rowOf op = none ↔ op ∉ opcodeMap.map (·.op) := by
  simp [rowOf, List.find?_eq_none]

theorem Row.reservedSet_iff {r : Row} {w : Word64} :
    r.reservedSet w = true ↔
      (r.usesA = false ∧ aField w ≠ 0 ∨ r.usesB = false ∧ bField w ≠ 0 ∨ r.usesD = false ∧ dField w ≠ 0) := by
  simp [Row.reservedSet, or_assoc]

theorem Row.reservedSet_eq_false {r : Row} {w : Word64} :
    r.reservedSet w = false ↔
      (r.usesA = false → aField w = 0) ∧ (r.usesB = false → bField w = 0) ∧ (r.usesD = false → dField w = 0) := by
  simp [Row.reservedSet, and_assoc, imp_iff_or_not, or_comm]

/-- An operand exceeds its limit; the three limits of 30_encoding.md R65 by opcode. -/
def OverLimit (op a : BitVec 8) (b : BitVec 16) : Prop :=
  op = 0x02 ∧ 11 < a.toNat ∨ op = 0x45 ∧ 32 < a.toNat ∨ op = 0x32 ∧ 3 < b.toNat

/-- The operand limits of a row's command are those of its opcode, row by row. -/
theorem wf_command_iff : ∀ r ∈ opcodeMap, ∀ a b d, (r.command a b d).wf = true ↔ ¬ OverLimit r.op a b := by
  simp [opcodeMap, Instr.wf, OverLimit]

/-- The word of a row's command has the row's opcode and the fields it was made from, if the unused
ones are 0, row by row. -/
theorem encode_command : ∀ r ∈ opcodeMap, ∀ a b d, (r.usesA = false → a = 0) → (r.usesB = false → b = 0) →
    (r.usesD = false → d = 0) → encode (r.command a b d) = commandWord r.op a b d := by
  simp +contextual [opcodeMap, encode]

/-! ### The answers of the decoder (30_encoding.md R69) -/

theorem decode_of_unknownOpcode {w : Word64} (h : rowOf (opField w) = none) : decode w = .error .unknownOpcode := by
  simp [decode, h]

theorem decode_of_reservedField {w : Word64} {r : Row} (hr : rowOf (opField w) = some r)
    (hres : r.reservedSet w = true) : decode w = .error .reservedField := by
  simp [decode, hr, hres]

theorem decode_of_operandLimit {w : Word64} {r : Row} (hr : rowOf (opField w) = some r)
    (hres : r.reservedSet w = false) (hw : (r.command (aField w) (bField w) (dField w)).wf = false) :
    decode w = .error .operandLimit := by
  simp [decode, hr, hres, hw]

/-- A decoded word is the word of the command it decodes to, and the command is well-formed. -/
theorem encode_of_decode {w : Word64} {i : Instr} (h : decode w = .ok i) : i.wf = true ∧ encode i = w := by
  obtain ⟨r, hr, hres, rfl, hwf⟩ := decode_ok_cases h
  obtain ⟨hm, hop⟩ := rowOf_some hr
  obtain ⟨ha, hb, hd⟩ := Row.reservedSet_eq_false.1 hres
  exact ⟨hwf, by rw [encode_command r hm _ _ _ ha hb hd, hop, commandWord_fields]⟩

/-- A command decodes from its word when its row makes it of the word's fields and the fields the row does not use
are 0. -/
theorem decode_encode_of_row {i : Instr} {op a : BitVec 8} {b : BitVec 16} {d : BitVec 32} {r : Row}
    (he : encode i = commandWord op a b d) (hr : rowOf op = some r) (hi : r.command a b d = i) (hwf : i.wf = true)
    (ha : r.usesA = false → a = 0) (hb : r.usesB = false → b = 0) (hd : r.usesD = false → d = 0) :
    decode (encode i) = .ok i := by
  subst hi
  rw [he]
  have h := decode_of_row (w := commandWord op a b d) (r := r) (by simpa using hr)
    (Row.reservedSet_eq_false.2 (by simpa using ⟨ha, hb, hd⟩)) (by simpa using hwf)
  simpa using h

/-- The word of a well-formed command decodes to it; the cases are grouped by the fields that carry operands. -/
theorem decode_encode {i : Instr} (h : i.wf = true) : decode (encode i) = .ok i := by
  have unused {n : Nat} : false = false → (0 : BitVec n) = 0 := fun _ => rfl
  cases i with
  | nop | reset | fclr | build | derive | sclr | bclr | encode | decode =>
    exact decode_encode_of_row rfl rfl rfl h unused unused unused
  | rdreg | fget | clen | sput => exact decode_encode_of_row rfl rfl rfl h nofun unused unused
  | nrd => exact decode_encode_of_row rfl rfl rfl h unused nofun unused
  | sget | brd | drd => exact decode_encode_of_row rfl rfl rfl h unused unused nofun
  | cval => exact decode_encode_of_row rfl rfl rfl h nofun nofun unused
  | fset | bapp => exact decode_encode_of_row rfl rfl rfl h nofun unused nofun

/-- A word with an operand over its limit decodes to no command. -/
theorem decode_ne_ok_of_overLimit {w : Word64} (h : OverLimit (opField w) (aField w) (bField w)) (i : Instr) :
    decode w ≠ .ok i := by
  intro hi
  obtain ⟨r, hr, -, rfl, hwf⟩ := decode_ok_cases hi
  obtain ⟨hm, hop⟩ := rowOf_some hr
  exact (wf_command_iff r hm _ _ _).1 hwf (hop ▸ h)

end Sys2Proof

namespace Sys2Proof.Machine

/-- Settles O4: the steps of the decoder in their order, the limits of the row found being those of its opcode. -/
theorem decodingStepsComeInOrder : Obligations.DecodingStepsComeInOrder := by
  refine ⟨fun w s => ⟨fun e he => submit_of_error he s, fun i hi => submit_of_decode hi s⟩, fun w => ?_⟩
  cases hr : rowOf (opField w) with
  | none => exact .inl ⟨rowOf_eq_none.1 hr, decode_of_unknownOpcode hr⟩
  | some r =>
    obtain ⟨hm, hop⟩ := rowOf_some hr
    refine .inr ⟨r, hm, hop, ?_⟩
    cases hres : r.reservedSet w with
    | true => exact .inl ⟨Row.reservedSet_iff.1 hres, decode_of_reservedField hr hres⟩
    | false =>
      obtain ⟨ha, hb, hd⟩ := Row.reservedSet_eq_false.1 hres
      have hlim := hop ▸ wf_command_iff r hm (aField w) (bField w) (dField w)
      refine .inr ⟨ha, hb, hd, ?_⟩
      cases hwf : (r.command (aField w) (bField w) (dField w)).wf with
      | false => exact .inl ⟨not_not.1 fun h => by simp [hlim.2 h] at hwf, decode_of_operandLimit hr hres hwf⟩
      | true => exact .inr ⟨hlim.1 hwf, decode_of_row hr hres hwf⟩

/-! ### ILLEGAL_CMD (60_exceptions.md R211) -/

/-- A word that decodes to no command raises ILLEGAL_CMD: bit 1 of ERRFLAGS and the response, nothing else. -/
theorem submit_of_not_decoded {w : Word64} (h : ∀ i, decode w ≠ .ok i) (s : State) :
    submit w s = .next { s with errflags := s.errflags ||| 0x02, rsp := some ⟨.failed .illegalCmd, 0⟩ } := by
  cases hd : decode w with
  | ok i => exact absurd hd (h i)
  | error e => exact submit_of_error hd s

/-- Only a command over its operand limit raises ILLEGAL_CMD (log 10). -/
theorem not_wf_of_exec_illegalCmd {i : Instr} {s t : State} {info : Word64} (h : exec i s = .next t)
    (hrsp : t.rsp = some ⟨.failed .illegalCmd, info⟩) : i.wf = false := by
  have commit {xs : List Byte} : commitSymbols xs s ≠ .next t := by
    intro hx
    obtain ⟨-, rfl⟩ | ⟨-, rfl⟩ := commitSymbols_cases hx <;> simp at hrsp
  cases i with
  | nop | reset | fclr | fset | fget | build | sclr | bclr =>
    rw [ok_eq_next.1 h] at hrsp
    simp at hrsp
  | rdreg r =>
    obtain ⟨hr, -⟩ | ⟨v, -, rfl⟩ := execRdreg_cases h
    · simpa [Instr.wf] using statusRegister_eq_none.1 hr
    · simp at hrsp
  | nrd => obtain ⟨-, rfl⟩ | ⟨-, -, rfl⟩ | ⟨-, -, rfl⟩ := execNrd_cases h <;> simp at hrsp
  | derive => obtain ⟨-, rfl⟩ | ⟨-, _, -, rfl⟩ := execDerive_cases h <;> simp at hrsp
  | clen => obtain ⟨-, rfl⟩ | ⟨-, rfl⟩ := execClen_cases h <;> simp at hrsp
  | cval =>
    obtain ⟨hq, -⟩ | ⟨-, -, rfl⟩ | ⟨-, -, rfl⟩ := execCval_cases h
    · simpa [Instr.wf] using hq
    · simp at hrsp
    · simp at hrsp
  | sput => obtain ⟨-, rfl⟩ | ⟨-, rfl⟩ := execSput_cases h <;> simp at hrsp
  | sget => obtain ⟨-, rfl⟩ | ⟨-, rfl⟩ := execSget_cases h <;> simp at hrsp
  | bapp =>
    obtain ⟨hn, -⟩ | ⟨-, -, rfl⟩ | ⟨-, -, rfl⟩ := execBapp_cases h
    · simpa [Instr.wf] using hn
    · simp at hrsp
    · simp at hrsp
  | brd => obtain ⟨-, rfl⟩ | ⟨-, rfl⟩ := execBrd_cases h <;> simp at hrsp
  | drd => obtain ⟨-, rfl⟩ | ⟨-, rfl⟩ := execDrd_cases h <;> simp at hrsp
  | encode =>
    obtain ⟨-, rfl⟩ | ⟨-, rfl⟩ | ⟨-, -, rfl⟩ | ⟨-, -, _, _, -, rfl⟩ | ⟨-, -, -, -, rfl⟩ | ⟨-, -, -, -, rfl⟩ :=
      execEncode_cases h <;> simp at hrsp
  | decode =>
    obtain ⟨-, rfl⟩ | ⟨-, -, rfl⟩ | ⟨-, -, -, rfl⟩ | ⟨-, -, -, _, _, -, hx⟩ |
      ⟨-, -, -, _, _, _, -, ⟨_, -, rfl⟩ | ⟨_, -, hx⟩⟩ := execDecode_cases h
    · simp at hrsp
    · simp at hrsp
    · simp at hrsp
    · exact absurd hx commit
    · simp at hrsp
    · exact absurd hx commit

/-- Settles O5: each illegal word contradicts what a decoded word is (`decode_ok_cases`), and the word of a well-formed
command decodes to that command, which never raises ILLEGAL_CMD. -/
theorem illegalWordsRaiseIllegalCmd : Obligations.IllegalWordsRaiseIllegalCmd := by
  refine ⟨fun s w h => submit_of_not_decoded (fun i hi => ?_) s, fun s w h => submit_of_not_decoded (fun i hi => ?_) s,
    fun s w r hm hop hset => submit_of_not_decoded (fun i hi => ?_) s,
    fun s x y v => ⟨fun hx => ?_, fun hx => ?_, fun hy => ?_⟩, fun s t i info hwf ht hrsp => ?_⟩
  · obtain ⟨hwf, he⟩ := encode_of_decode hi
    exact h i hwf he
  · obtain ⟨r, hr, -⟩ := decode_ok_cases hi
    cases hr.symm.trans (rowOf_eq_none.2 h)
  · obtain ⟨r', hr', hres, -⟩ := decode_ok_cases hi
    cases (hop ▸ rowOf_of_mem hm).symm.trans hr'
    simp [Row.reservedSet_iff.2 hset] at hres
  · exact submit_of_not_decoded (decode_ne_ok_of_overLimit (.inl (by simpa using hx))) s
  · exact submit_of_not_decoded (decode_ne_ok_of_overLimit (.inr (.inl (by simpa using hx)))) s
  · exact submit_of_not_decoded (decode_ne_ok_of_overLimit (.inr (.inr (by simpa using hy)))) s
  · rw [submit_of_decode (decode_encode hwf)] at ht
    simp [not_wf_of_exec_illegalCmd ht hrsp] at hwf

end Sys2Proof.Machine
end

section
/-! PROOFS. The system commands (40_system_commands.md): NOP, and RDREG on the status register file (10_state.md R24 to
R26). A word of a command with a reserved field set raises ILLEGAL_CMD, said once for every row of the opcode map. -/

namespace Sys2Proof.Machine

/-! ### Reserved fields (30_encoding.md R64) -/

/-- A word with an opcode of the map and a field set that its row does not use raises ILLEGAL_CMD. -/
theorem submit_of_reserved_set {r : Row} (hr : r ∈ opcodeMap) {a : BitVec 8} {b : BitVec 16} {d : BitVec 32}
    (h : r.usesA = false ∧ a ≠ 0 ∨ r.usesB = false ∧ b ≠ 0 ∨ r.usesD = false ∧ d ≠ 0) (s : State) :
    submit (commandWord r.op a b d) s = .next (s.failed .illegalCmd 0) := by
  have hres : r.reservedSet (commandWord r.op a b d) = true := Row.reservedSet_iff.2 (by simpa using h)
  have hrow : rowOf (opField (commandWord r.op a b d)) = some r := by simpa using rowOf_of_mem hr
  exact submit_of_error (decode_of_reservedField hrow hres) s

/-! ### NOP -/

/-- Settles O20: word 0 is the word of NOP, whose row uses no field. -/
theorem nopOnlyResponds : Obligations.NopOnlyResponds := by
  have hrow : opcodeMap[0] ∈ opcodeMap := List.getElem_mem _
  exact ⟨decode_encode (i := .nop) rfl, fun s => rfl, fun s a b d h =>
    submit_of_reserved_set hrow (h.imp (.intro rfl) (.imp (.intro rfl) (.intro rfl))) s⟩

/-! ### The status register file (10_state.md R24, R25) -/

/-- RDREG answers with the status register and changes nothing else. -/
theorem exec_rdreg_of_some {s : State} {r : BitVec 8} {v : Word64} (h : statusRegister s r = some v) :
    exec (.rdreg r) s = .next { s with rsp := some ⟨.ok, v⟩ } := by
  show execRdreg r s = _
  rw [execRdreg, h]
  rfl

/-- RDREG of a register that does not exist raises ILLEGAL_CMD. -/
theorem exec_rdreg_of_none {s : State} {r : BitVec 8} (h : statusRegister s r = none) :
    exec (.rdreg r) s = .next (s.failed .illegalCmd 0) := by
  show execRdreg r s = _
  rw [execRdreg, h]
  rfl

/-- The bits of STATUS: TV, CV, then zeros. -/
theorem getLsbD_statusWord (tv cv : Bool) (k : Nat) :
    (statusWord tv cv).getLsbD k = if k = 0 then tv else if k = 1 then cv else false := by
  unfold statusWord
  rw [BitVec.getLsbD_append, BitVec.getLsbD_append]
  match k with
  | 0 => simp
  | 1 => simp
  | k + 2 => simp

/-- The sum in NSYM does not wrap around. -/
theorem toNat_leafCount (nnodes : BitVec 10) : (leafCount nnodes).toNat = (nnodes.toNat + 1) / 2 := by
  have hlt := nnodes.isLt
  simp only [leafCount, BitVec.toNat_ushiftRight, BitVec.toNat_add, BitVec.toNat_setWidth, BitVec.reduceToNat,
    Nat.shiftRight_eq_div_pow]
  omega

/-- Settles O22: every register is read through the status register file; only STATUS and the three that are 0 while
TV = 0 need their values compared, and none of the three is cut to its width. -/
theorem rdregReadsTheStatusRegisters : Obligations.RdregReadsTheStatusRegisters := by
  have hrow : opcodeMap[2] ∈ opcodeMap := List.getElem_mem _
  refine ⟨fun r hr => decode_encode (i := .rdreg r) (by simpa [Instr.wf] using hr), fun s =>
    ⟨exec_rdreg_of_some rfl, ⟨_, exec_rdreg_of_some rfl, ?status⟩, exec_rdreg_of_some rfl,
      ⟨_, exec_rdreg_of_some rfl, ?nsym⟩, ⟨_, exec_rdreg_of_some rfl, ?nnodes⟩, ⟨_, exec_rdreg_of_some rfl, ?root⟩,
      exec_rdreg_of_some rfl, exec_rdreg_of_some rfl, exec_rdreg_of_some rfl, exec_rdreg_of_some rfl,
      exec_rdreg_of_some rfl, exec_rdreg_of_some rfl, fun r hr => exec_rdreg_of_none (statusRegister_eq_none.2 hr)⟩,
    fun s a b d h => ?illegal⟩
  case status =>
    simp only [getLsbD_statusWord]
    exact ⟨rfl, rfl, fun k hk => by rw [if_neg (by omega), if_neg (by omega)]⟩
  case nsym => rw [apply_ite BitVec.toNat, toNat_leafCount]; rfl
  case nnodes => rw [apply_ite BitVec.toNat, BitVec.toNat_setWidth_of_le (by decide)]; rfl
  case root => rw [apply_ite BitVec.toNat, BitVec.toNat_setWidth_of_le (by decide)]; rfl
  case illegal =>
    obtain ha | hbd := h
    · exact submit_of_not_decoded (decode_ne_ok_of_overLimit (.inl (by simpa using ha))) s
    · exact submit_of_reserved_set hrow (.inr (hbd.imp (.intro rfl) (.intro rfl))) s

end Sys2Proof.Machine
end

section
/-! PROOFS. The frequency table commands (41_frequency_table.md): FCLR, FSET, FGET, and the order of two writes to one
memory. -/

namespace Sys2Proof.Machine

/-! ### Two writes to one memory -/

section
variable {α : Type} [Inhabited α] [DecidableEq α]

/-- Of two writes to one index the last counts. -/
@[simp] theorem Memory.write_write (m : Memory α) (i : Nat) (v w : α) : (m.write i v).write i w = m.write i w :=
  Memory.writeBlock_writeBlock m i rfl

/-- Writes to distinct indices commute in a memory in canonical form. -/
theorem Memory.write_comm {m : Memory α} (h : m.wf) {i j : Nat} (hij : i ≠ j) (v w : α) :
    (m.write i v).write j w = (m.write j w).write i v := by
  refine Memory.ext_of_read (Memory.wf_write (Memory.wf_write h _ _) _ _)
    (Memory.wf_write (Memory.wf_write h _ _) _ _) fun k => ?_
  simp only [Memory.read_write]
  by_cases hk : k = j
  · rw [if_pos hk, if_neg (hk.trans_ne hij.symm), if_pos hk]
  · rw [if_neg hk, if_neg hk]

end

/-! ### FSET, FCLR, FGET -/

/-- FSET completes: one entry written, TV and CV cleared, the response OK 0. -/
theorem exec_fset_eq_next {x : Byte} {c : Count} {s t : State} :
    exec (.fset x c) s = .next t ↔
      t = { s with tv := false, cv := false, freq := s.freq.write x.toNat c, rsp := some ⟨.ok, 0⟩ } :=
  ok_eq_next

/-- Settles O24: FSET is one write to FREQ, and two writes commute or collapse; FREQ is canonical in the invariant. -/
theorem fsetSetsOneCount : Obligations.FsetSetsOneCount := by
  have hrow : opcodeMap[4] ∈ opcodeMap := List.getElem_mem _
  refine ⟨fun x c => decode_encode (i := .fset x c) rfl,
    fun s x c => ⟨_, rfl, rfl, Memory.read_write s.freq x.toNat c⟩,
    fun s t u t' u' x y c c' hs hxy ht hu ht' hu' => ?distinct, fun s t u t' x c c' _ ht hu ht' => ?same,
    fun s a b d hb => submit_of_reserved_set hrow (.inr (.inl ⟨rfl, hb⟩)) s⟩
  case distinct =>
    have hne : x.toNat ≠ y.toNat := fun e => hxy (BitVec.eq_of_toNat_eq e)
    rw [exec_fset_eq_next] at ht hu ht' hu'
    subst ht hu ht' hu'
    rw [Memory.write_comm hs.freq_wf hne]
  case same =>
    rw [exec_fset_eq_next] at ht hu ht'
    subst ht hu ht'
    rw [Memory.write_write]

/-- Settles O23: FCLR makes FREQ the empty memory, which reads as 0 everywhere; its row uses no field. -/
theorem fclrEmptiesTheTable : Obligations.FclrEmptiesTheTable := by
  have hrow : opcodeMap[3] ∈ opcodeMap := List.getElem_mem _
  exact ⟨decode_encode (i := .fclr) rfl, fun s => ⟨_, rfl, rfl, fun x => Memory.read_empty x.toNat⟩,
    fun s a b d h => submit_of_reserved_set hrow (h.imp (.intro rfl) (.imp (.intro rfl) (.intro rfl))) s⟩

/-- Settles O25: FGET answers with the entry as FREQ holds it; its row uses field a alone. -/
theorem fgetReadsOneCount : Obligations.FgetReadsOneCount := by
  have hrow : opcodeMap[5] ∈ opcodeMap := List.getElem_mem _
  exact ⟨fun x => decode_encode (i := .fget x) rfl, fun s x => rfl,
    fun s a b d h => submit_of_reserved_set hrow (.inr (h.imp (.intro rfl) (.intro rfl))) s⟩

end Sys2Proof.Machine
end

section
/-! PROOFS. The tree builder commands (42_tree_builder.md): what BUILD leaves (`State.built`), read off the tree of the
frequency table; DERIVE on equal trees; NRD and the image of a record (10_state.md R32). -/

namespace Sys2Proof.Machine

/-! ### The state that BUILD leaves -/

/-- NNODES and ROOT of the tree of any table, the empty one among them (42_tree_builder.md R100, R105). -/
theorem buildTree_counts (freq : Memory Count) :
    (buildTree freq).1.length = 2 * (presentSymbols freq).length - 1 ∧
      (buildTree freq).2 = (buildTree freq).1.length - 1 := by
  by_cases he : presentSymbols freq = []
  · simp [buildTree_of_empty he, he]
  · exact buildTree_root freq he

/-- The state after BUILD (42_tree_builder.md R100). -/
def State.built (s : State) : State :=
  { s with
    node := s.node.writeBlock 0 (buildTree s.freq).1, nnodes := BitVec.ofNat 10 (buildTree s.freq).1.length,
    root := BitVec.ofNat 9 (buildTree s.freq).2, tv := true, cv := false,
    rsp := some ⟨.ok, (BitVec.ofNat 10 (buildTree s.freq).1.length).setWidth 64⟩ }

section
variable (s : State)

theorem exec_build : exec .build s = .next s.built := rfl

/-- The number of records fits NNODES. -/
theorem State.built_nnodes : s.built.nnodes.toNat = (buildTree s.freq).1.length :=
  Nat.mod_eq_of_lt ((length_buildTree_le s.freq).trans_lt (by decide))

/-- The index of the last record fits ROOT. -/
theorem State.built_root : s.built.root.toNat = (buildTree s.freq).2 :=
  Nat.mod_eq_of_lt ((buildTree_root_lt s.freq).trans (by decide))

/-- BUILD writes the records of the tree from index 0 on. -/
theorem State.read_built {k : Nat} (hk : k < s.built.nnodes.toNat) :
    s.built.node.read k = (recordsOf (buildTree s.freq).1).read k := by
  rw [s.built_nnodes] at hk
  simp [State.built, Memory.read_writeBlock, read_recordsOf, hk]

/-- BUILD keeps the records at and past NNODES (log 6). -/
theorem State.read_built_past {k : Nat} (hk : s.built.nnodes.toNat ≤ k) : s.built.node.read k = s.node.read k := by
  rw [s.built_nnodes] at hk
  simp [State.built, Memory.read_writeBlock, Nat.not_lt.2 hk]

theorem State.built_counts : s.built.nnodes.toNat = 2 * (presentSymbols s.freq).length - 1 ∧
    s.built.root.toNat = s.built.nnodes.toNat - 1 := by
  rw [s.built_root, s.built_nnodes]
  exact buildTree_counts s.freq

end

/-! ### BUILD -/

/-- Settles O28: the records of BUILD are the forest of `buildTree_isTree`, whose children were the least trees of the
working collection when they were merged; the collection of record k and its keys depend on the records up to k alone. -/
theorem buildMergesTheTwoLeastTrees : Obligations.BuildMergesTheTwoLeastTrees := by
  intro s hne
  obtain ⟨hn, hr⟩ := s.built_counts
  refine ⟨_, exec_build s, hn, hr, fun k hk hlt => ?_⟩
  obtain ⟨t, -, hF⟩ := buildTree_isTree hne
  obtain ⟨w, l, r, e⟩ := buildTree_internal hk (s.built_nnodes ▸ hlt)
  obtain ⟨hl, hr, hlr, hw⟩ := hF.child k w l r e
  obtain ⟨hliveL, hliveR, hleastL, hleastR⟩ := hF.least k w l r e
  have read {j : Nat} (hj : j ≤ k) : s.built.node.read j = (recordsOf (buildTree s.freq).1).read j :=
    s.read_built (by omega)
  have live (i : Nat) : LiveAt s.built.node k i ↔ LiveAt (recordsOf (buildTree s.freq).1) k i :=
    liveAt_congr fun j hj => read hj.le
  have key {c i : Nat} (hc : c < k) (hi : LiveAt s.built.node k i)
      (h : KeyLt (recordsOf (buildTree s.freq).1) c i) : KeyLt s.built.node c i :=
    (keyLt_congr (read hc.le) (read hi.1.le)).2 h
  refine ⟨w, l, r, (read le_rfl).trans e, by rw [read hl.le, read hr.le, hw], (live _).2 hliveL, fun i hi hil => ?_,
    (live _).2 hliveR, hlr.symm, fun i hi hil hir => ?_⟩
  · exact key hl hi (hleastL i ((live i).1 hi) hil)
  · exact key hr hi (hleastR i ((live i).1 hi) hil hir)

/-- Settles O26: the counts are those of the tree, and BUILD writes nothing past its records; its row uses no field. -/
theorem buildCompletesWithItsCounts : Obligations.BuildCompletesWithItsCounts := by
  have hrow : opcodeMap[6] ∈ opcodeMap := List.getElem_mem _
  refine ⟨decode_encode (i := .build) rfl, fun s => ?_, fun s a b d h =>
    submit_of_reserved_set hrow (h.imp (.intro rfl) (.imp (.intro rfl) (.intro rfl))) s⟩
  obtain ⟨hn, hr⟩ := s.built_counts
  exact ⟨_, exec_build s, rfl, hn, hr, fun k => s.read_built_past⟩

/-- Settles O27: the records below the number of keys are the leaves of the tree. -/
theorem buildSeedsLeavesInAscendingSymbolValue : Obligations.BuildSeedsLeavesInAscendingSymbolValue := by
  refine fun s => ⟨_, exec_build s, fun i sym h => ?_⟩
  obtain ⟨hi, rfl⟩ := List.getElem?_eq_some_iff.1 h
  have hn := s.built_counts.1
  exact (s.read_built (by omega)).trans (buildTree_leaf hi)

/-! ### Equal trees (47_properties.md R196) -/

theorem State.SameObservable.refl (s : State) : s.SameObservable s := by
  constructor <;> intros <;> rfl

/-- DERIVE with a tree whose walk ends. -/
theorem exec_derive_of_some {s : State} {code : Memory CodeEntry} (htv : s.tv = true)
    (h : deriveTable s.node s.nnodes.toNat s.root.toNat = some code) :
    exec .derive s =
      .next (State.responded { s with code := code, cv := true } (codesWritten s.node s.nnodes s.root.toNat)) := by
  simp only [exec, execDerive, htv, h, ok, Bool.not_true, Bool.false_eq_true, if_false]

/-- Settles O30: the tree of BUILD is a function of the counts (`buildTree_congr`), and DERIVE reads observable records
alone, so the other state's NODE can stand for the first one's. -/
theorem buildAndDeriveAreDeterministic : Obligations.BuildAndDeriveAreDeterministic := by
  refine ⟨fun s s' h => ?build, fun s s' t hs _ htv htv' hnnodes hroot hnode ht => ?derive⟩
  case build =>
    have htree : buildTree s.freq = buildTree s'.freq := buildTree_congr h
    have hnnodes : s.built.nnodes = s'.built.nnodes := by simp only [State.built, htree]
    refine ⟨_, _, exec_build s, exec_build s', hnnodes, by simp only [State.built, htree], fun k hk => ?_⟩
    rw [s.read_built hk, s'.read_built (hnnodes ▸ hk), htree]
  case derive =>
    have hsame : s.SameObservable { s with node := s'.node } :=
      { State.SameObservable.refl s with node := fun _ => hnode }
    have htable := hsame.deriveTable_eq hs htv
    have hcount := hsame.codesWritten_eq hs htv
    obtain ⟨hf, -⟩ | ⟨-, code, hcode, rfl⟩ := execDerive_cases ht
    · simp [htv] at hf
    · rw [htable, hnnodes, hroot] at hcode
      refine ⟨_, exec_derive_of_some htv' hcode, rfl, ?_⟩
      rw [State.responded_rsp, State.responded_rsp, hcount, hnnodes, hroot]

/-! ### NRD -/

/-- The number of a word made of two parts. -/
theorem toNat_append_eq_add {m n : Nat} (x : BitVec m) (y : BitVec n) :
    (x ++ y).toNat = x.toNat * 2 ^ n + y.toNat := by
  rw [BitVec.toNat_append, ← Nat.shiftLeft_add_eq_or_of_lt y.isLt, Nat.shiftLeft_eq]

/-- The image of a leaf (10_state.md R32): bit 63 set, the weight at bit 18, the symbol at bit 0. -/
theorem toNat_image_leaf (w : Weight) (sym : Byte) :
    (NodeRec.leaf w sym).image.toNat = 2 ^ 63 + w.toNat * 2 ^ 18 + sym.toNat := by
  simp only [NodeRec.image, toNat_append_eq_add, BitVec.toNat_ofNat]
  omega

/-- The image of an Internal record (10_state.md R32): the weight at bit 18, the children at bits 9 and 0. -/
theorem toNat_image_internal (w : Weight) (l r : NodeIndex) :
    (NodeRec.internal w l r).image.toNat = w.toNat * 2 ^ 18 + l.toNat * 2 ^ 9 + r.toNat := by
  simp only [NodeRec.image, toNat_append_eq_add, BitVec.toNat_ofNat]
  omega

/-- NRD with a record in range. -/
theorem exec_nrd_of_lt {s : State} {k : BitVec 16} (htv : s.tv = true) (hk : k.toNat < s.nnodes.toNat) :
    exec (.nrd k) s = .next { s with rsp := some ⟨.ok, (s.node.read k.toNat).image⟩ } := by
  show execNrd k s = _
  rw [execNrd, if_neg (by simp [htv]), if_neg (by omega)]
  rfl

/-- Settles O31: NRD's checks in their order, then the image of the record, variant by variant; its row uses field b
alone. -/
theorem nrdReturnsTheImageOfARecord : Obligations.NrdReturnsTheImageOfARecord := by
  have hrow : opcodeMap[7] ∈ opcodeMap := List.getElem_mem _
  refine ⟨fun k => decode_encode (i := .nrd k) rfl, fun s k => ⟨fun htv => ?notReady, fun htv hk => ?badIndex,
    fun htv hk => ⟨_, exec_nrd_of_lt htv hk, ?image⟩⟩, fun s a b d h =>
    submit_of_reserved_set hrow (h.imp (.intro rfl) fun hd => .inr ⟨rfl, hd⟩) s⟩
  case notReady =>
    show execNrd k s = _
    rw [execNrd, if_pos (by simp [htv])]
    rfl
  case badIndex =>
    show execNrd k s = _
    rw [execNrd, if_neg (by simp [htv]), if_pos hk]
    rfl
  case image =>
    cases s.node.read k.toNat with
    | leaf w sym => exact toNat_image_leaf w sym
    | internal w l r => exact toNat_image_internal w l r

end Sys2Proof.Machine
end

section
/-! PROOFS. The paths of a valid tree (10_state.md R39): one leads from the root to each record, so exactly the symbols
present have a path (`State.Inv.exists_isPathTo_iff`), and just one (`State.Inv.isPathTo_unique`). -/

namespace Sys2Proof.Machine

/-! ### Paths as sequences of record indices -/

section
variable {node : Memory NodeRec}

/-- The index of the record that a bit string leads to from record i: `follow` with the record's place (46_decoder.md
R175), which tells equal records apart. -/
def indexAt (node : Memory NodeRec) : Nat → List Bool → Option Nat
  | i, [] => some i
  | i, b :: bs =>
    match node.read i with
    | .leaf _ _ => none
    | .internal _ l r => indexAt node (if b then r else l).toNat bs

@[simp] theorem indexAt_nil (i : Nat) : indexAt node i [] = some i := rfl

theorem indexAt_cons_leaf {i : Nat} {w : Weight} {x : Byte} (h : node.read i = .leaf w x) (b : Bool) (bs : List Bool) :
    indexAt node i (b :: bs) = none := by simp [indexAt, h]

theorem indexAt_cons_internal {i : Nat} {w : Weight} {l r : NodeIndex} (h : node.read i = .internal w l r) (b : Bool)
    (bs : List Bool) : indexAt node i (b :: bs) = indexAt node (if b then r else l).toNat bs := by simp [indexAt, h]

theorem follow_eq_indexAt (i : Nat) (p : List Bool) : follow node i p = (indexAt node i p).map node.read := by
  induction p generalizing i with
  | nil => rfl
  | cons b p ih =>
    cases hi : node.read i with
    | leaf w x => rw [follow_cons_leaf hi, indexAt_cons_leaf hi]; rfl
    | internal w l r => rw [follow_cons_internal hi, indexAt_cons_internal hi, ih]

/-- The last edge of a path leads from an Internal record to one of its children. -/
theorem indexAt_concat {i k : Nat} {p : List Bool} {b : Bool} :
    indexAt node i (p ++ [b]) = some k ↔
      ∃ j w l r, indexAt node i p = some j ∧ node.read j = .internal w l r ∧ (if b then r else l).toNat = k := by
  induction p generalizing i with
  | nil =>
    cases hi : node.read i with
    | leaf w x => simp [indexAt_cons_leaf hi, hi]
    | internal w l r => simp [indexAt_cons_internal hi, hi]
  | cons c p ih =>
    cases hi : node.read i with
    | leaf w x => simp [indexAt_cons_leaf hi]
    | internal w l r => simp only [List.cons_append, indexAt_cons_internal hi, ih]

/-- A child hangs on its parent by an edge. -/
theorem isChildOf_iff_edge {k j : Nat} :
    IsChildOf node k j ↔ ∃ w l r, ∃ b : Bool, node.read j = .internal w l r ∧ (if b then r else l).toNat = k := by
  simp [IsChildOf]

end

/-! ### Paths to a leaf -/

section
variable {node : Memory NodeRec} {i : Nat} {w : Weight} {x : Byte} {p : List Bool}

theorem isPathTo_leaf {y : Byte} (hi : node.read i = .leaf w y) : IsPathTo node i x p ↔ x = y ∧ p = [] := by
  cases p with
  | nil => simp [IsPathTo, hi, eq_comm]
  | cons b p => simp [IsPathTo, follow_cons_leaf hi]

theorem not_isPathTo_nil_internal {l r : NodeIndex} (hi : node.read i = .internal w l r) : ¬ IsPathTo node i x [] := by
  simp [IsPathTo, hi]

theorem isPathTo_cons_internal {l r : NodeIndex} (hi : node.read i = .internal w l r) {b : Bool} :
    IsPathTo node i x (b :: p) ↔ IsPathTo node (if b then r else l).toNat x p := by
  simp only [IsPathTo, follow_cons_internal hi]

end

/-! ### The paths of a valid tree (10_state.md R39) -/

section
variable {s : State}

/-- The leaves of a valid tree are its first records, one for each symbol present, in their order. -/
theorem State.Inv.read_eq_leaf_iff (h : s.Inv) (htv : s.tv = true) {k : Nat} (hk : k < s.nnodes.toNat) {x : Byte} :
    (∃ w, s.node.read k = .leaf w x) ↔ (presentSymbols s.freq)[k]? = some x := by
  rw [h.read_node htv hk]
  by_cases hlt : k < (presentSymbols s.freq).length
  · simp [buildTree_leaf hlt, hlt]
  · obtain ⟨w, l, r, e⟩ := buildTree_internal (Nat.le_of_not_lt hlt) ((h.tree htv).1 ▸ hk)
    simp [e, hlt]

variable (h : s.Inv) (htv : s.tv = true) (hne : presentSymbols s.freq ≠ [])
include h htv hne

theorem State.Inv.nnodes_ne_zero : s.nnodes.toNat ≠ 0 := by
  have hn := (h.counts htv hne).1
  have hpos := List.length_pos_iff.2 hne
  omega

/-- A path from the root stays among the records of the tree. -/
theorem State.Inv.indexAt_lt {p : List Bool} {k : Nat} (hp : indexAt s.node s.root.toNat p = some k) :
    k < s.nnodes.toNat := by
  induction p using List.reverseRecOn generalizing k with
  | nil => cases hp; exact h.root_lt_nnodes htv (h.nnodes_ne_zero htv hne)
  | append_singleton p b ih =>
    obtain ⟨j, w, l, r, hj, e, rfl⟩ := indexAt_concat.1 hp
    obtain ⟨hl, hr⟩ := h.child_lt_nnodes htv j w l r (ih hj) e
    cases b
    · exact hl
    · exact hr

/-- A path leads from the root to every record: the empty one to the root, one edge more than to its parent to any
other. -/
theorem State.Inv.exists_indexAt {k : Nat} (hk : k < s.nnodes.toNat) :
    ∃ p, indexAt s.node s.root.toNat p = some k := by
  by_cases hr : k = s.root.toNat
  · exact ⟨[], congrArg some hr.symm⟩
  · obtain ⟨j, ⟨hj, hc⟩, -⟩ := h.existsUnique_parent htv hne hk hr
    obtain ⟨w, l, r, b, e, hb⟩ := isChildOf_iff_edge.1 hc
    have hkj : k < j := by
      obtain ⟨hl, hr, -⟩ := h.child htv hj e
      cases b
      · exact hb ▸ hl
      · exact hb ▸ hr
    obtain ⟨p, hp⟩ := State.Inv.exists_indexAt hj
    exact ⟨p ++ [b], indexAt_concat.2 ⟨j, w, l, r, hp, e, hb⟩⟩
termination_by s.nnodes.toNat - k

/-- A path with an edge leads to a record other than the root, from a record of the tree that is its parent. -/
theorem State.Inv.indexAt_concat_cases {p : List Bool} {b : Bool} {k : Nat}
    (hp : indexAt s.node s.root.toNat (p ++ [b]) = some k) : k ≠ s.root.toNat ∧
      ∃ j w l r, indexAt s.node s.root.toNat p = some j ∧ j < s.nnodes.toNat ∧ IsChildOf s.node k j ∧
        s.node.read j = .internal w l r ∧ (if b then r else l).toNat = k := by
  obtain ⟨j, w, l, r, hj, e, hb⟩ := indexAt_concat.1 hp
  have hlt := h.indexAt_lt htv hne hj
  have hc := isChildOf_iff_edge.2 ⟨w, l, r, b, e, hb⟩
  exact ⟨fun hk => h.root_not_child htv hne hlt (hk ▸ hc), j, w, l, r, hj, hlt, hc, e, hb⟩

/-- The path to a record is unique: its last edge comes from the only parent, whose children are distinct. -/
theorem State.Inv.indexAt_inj {p q : List Bool} {k : Nat} (hp : indexAt s.node s.root.toNat p = some k)
    (hq : indexAt s.node s.root.toNat q = some k) : p = q := by
  induction p using List.reverseRecOn generalizing q k with
  | nil =>
    cases hp
    obtain rfl | ⟨q, c, rfl⟩ := q.eq_nil_or_concat'
    · rfl
    · exact absurd rfl (h.indexAt_concat_cases htv hne hq).1
  | append_singleton p b ih =>
    have hk := h.indexAt_lt htv hne hp
    obtain ⟨hkr, j, w, l, r, hj, hlt, hc, e, hb⟩ := h.indexAt_concat_cases htv hne hp
    obtain rfl | ⟨q, c, rfl⟩ := q.eq_nil_or_concat'
    · cases hq
      exact absurd rfl hkr
    · obtain ⟨-, j', w', l', r', hj', hlt', hc', e', hb'⟩ := h.indexAt_concat_cases htv hne hq
      obtain rfl := (h.existsUnique_parent htv hne hk hkr).unique ⟨hlt, hc⟩ ⟨hlt', hc'⟩
      cases e.symm.trans e'
      obtain ⟨-, -, hlr, -⟩ := h.child htv hlt e
      have hbc : b = c := by
        have hchild := BitVec.eq_of_toNat_eq (hb.trans hb'.symm)
        cases b <;> cases c <;> simp_all
      rw [ih hj hj', hbc]

/-- The paths to a leaf of x are those to the record of x among the leaves. -/
theorem State.Inv.isPathTo_iff {x : Byte} {p : List Bool} : IsPathTo s.node s.root.toNat x p ↔
    ∃ k, indexAt s.node s.root.toNat p = some k ∧ (presentSymbols s.freq)[k]? = some x := by
  unfold IsPathTo
  rw [follow_eq_indexAt]
  constructor
  · rintro ⟨w, hw⟩
    obtain ⟨k, hk, e⟩ := Option.map_eq_some_iff.1 hw
    exact ⟨k, hk, (h.read_eq_leaf_iff htv (h.indexAt_lt htv hne hk)).1 ⟨w, e⟩⟩
  · rintro ⟨k, hk, hx⟩
    obtain ⟨w, e⟩ := (h.read_eq_leaf_iff htv (h.indexAt_lt htv hne hk)).2 hx
    exact ⟨w, by rw [hk, Option.map_some, e]⟩

/-- Exactly the symbols present have a leaf that a path leads to. -/
theorem State.Inv.exists_isPathTo_iff {x : Byte} :
    (∃ p, IsPathTo s.node s.root.toNat x p) ↔ x ∈ presentSymbols s.freq := by
  constructor
  · rintro ⟨p, hp⟩
    obtain ⟨k, -, hx⟩ := (h.isPathTo_iff htv hne).1 hp
    exact List.mem_of_getElem? hx
  · intro hx
    obtain ⟨k, hk, e⟩ := List.getElem_of_mem hx
    have hn := (h.counts htv hne).1
    obtain ⟨p, hp⟩ := h.exists_indexAt htv hne (k := k) (by omega)
    exact ⟨p, (h.isPathTo_iff htv hne).2 ⟨k, hp, List.getElem?_eq_some_iff.2 ⟨hk, e⟩⟩⟩

/-- A symbol has one path at most: it is present once, and its leaf has one path. -/
theorem State.Inv.isPathTo_unique {x : Byte} {p q : List Bool} (hp : IsPathTo s.node s.root.toNat x p)
    (hq : IsPathTo s.node s.root.toNat x q) : p = q := by
  obtain ⟨k, hk, hx⟩ := (h.isPathTo_iff htv hne).1 hp
  obtain ⟨k', hk', hx'⟩ := (h.isPathTo_iff htv hne).1 hq
  obtain ⟨hlt, -⟩ := List.getElem?_eq_some_iff.1 hx
  obtain rfl := (List.getElem?_inj hlt (presentSymbols_nodup s.freq)).1 (hx.trans hx'.symm)
  exact h.indexAt_inj htv hne hk hk'

end

end Sys2Proof.Machine
end

section
/-! PROOFS. The code-table derivator commands (43_code_table.md): the table that DERIVE makes of the three kinds of tree
(R121 to R123) and the number of its codes; the codes of two or more leaves are the paths, and their Kraft sum is 1
(R124); CLEN and CVAL. -/

namespace Sys2Proof.Machine

/-! ### The table of each kind of tree (R120 to R123) -/

section
variable {node : Memory NodeRec} {nnodes root : Nat}

/-- The empty tree gives no code (R123). -/
@[simp] theorem deriveTable_zero : deriveTable node 0 root = some Memory.empty := rfl

/-- A single leaf gets the code "0" (R122). -/
theorem deriveTable_leaf {w : Weight} {x : Byte} (hn : nnodes ≠ 0) (hr : node.read root = .leaf w x) :
    deriveTable node nnodes root = some (Memory.write Memory.empty x.toNat ⟨1, 0⟩) := by
  simp [deriveTable, hn, hr]

/-- Any other tree gets the codes of its walk (R121). -/
theorem deriveTable_internal {w : Weight} {l r : NodeIndex} (hn : nnodes ≠ 0) (hr : node.read root = .internal w l r) :
    deriveTable node nnodes root = walk node (depthMax + 1) root 0 0 Memory.empty := by
  simp [deriveTable, hn, hr]

end

/-- DERIVE reports one code for each symbol present. -/
theorem State.Inv.toNat_codesWritten {s : State} (h : s.Inv) (htv : s.tv = true) :
    (codesWritten s.node s.nnodes s.root.toNat).toNat = (presentSymbols s.freq).length := by
  by_cases hne : presentSymbols s.freq = []
  · have hn : s.nnodes = 0 := BitVec.eq_of_toNat_eq (h.counts_of_empty htv hne).1
    rw [codesWritten, if_pos hn, hne]
    rfl
  · obtain ⟨hn, hr⟩ := h.counts htv hne
    have hpos := List.length_pos_iff.2 hne
    have hn0 : s.nnodes ≠ 0 := fun e => h.nnodes_ne_zero htv hne (by rw [e]; rfl)
    rw [codesWritten, if_neg hn0]
    split
    · rename_i w x e
      obtain ⟨hlt, -⟩ := List.getElem?_eq_some_iff.1 ((h.read_eq_leaf_iff htv (by omega)).1 ⟨w, e⟩)
      have h1 : (presentSymbols s.freq).length = 1 := by omega
      rw [h1]
      rfl
    · rw [toNat_leafCount]
      omega

/-- Settles O32: the walk ends in every state with the invariant, and the two special trees have their own equation of
`deriveTable`; the row of DERIVE uses no field. -/
theorem deriveCompletesAndCountsTheCodes : Obligations.DeriveCompletesAndCountsTheCodes := by
  have hrow : opcodeMap[8] ∈ opcodeMap := List.getElem_mem _
  refine ⟨decode_encode (i := .derive) rfl, fun s htv => ?notReady, fun s h htv => ?completes, fun s a b d hd =>
    submit_of_reserved_set hrow (hd.imp (.intro rfl) (.imp (.intro rfl) (.intro rfl))) s⟩
  case notReady =>
    show execDerive s = _
    rw [execDerive, if_pos (by simp [htv])]
    rfl
  case completes =>
    obtain ⟨code, hc⟩ := h.deriveTable_completes htv
    refine ⟨_, _, exec_derive_of_some htv hc, rfl, h.toNat_codesWritten htv, fun hn x => ?_, fun w sym hn hr x => ?_⟩
    · have hn0 : s.nnodes.toNat = 0 := congrArg BitVec.toNat hn
      rw [hn0, deriveTable_zero] at hc
      cases hc
      exact Memory.read_empty _
    · rw [deriveTable_leaf (fun e => hn (BitVec.eq_of_toNat_eq e)) hr] at hc
      cases hc
      simp only [State.responded_code, Memory.read_write, BitVec.toNat_inj]
      rfl

/-! ### The codes of two or more leaves (R121, R124) -/

/-- One edge more in a path value: the edge is bit 0, the other bits move up. -/
theorem getLsbD_pathValue_singleton (v : CodeValue) (b : Bool) {k : Nat} (hk : k < 255) :
    (pathValue v [b]).getLsbD k = if k = 0 then b else v.getLsbD (k - 1) := by
  cases k with
  | zero => cases b <;> simp
  | succ k => cases b <;> simp [hk, BitVec.getLsbD_eq_getElem (Nat.lt_of_succ_lt hk)]

/-- Bits of a path value: the last edge is bit 0, the bits that were there before stand above the path (10_state.md
R33). -/
theorem getLsbD_pathValue (v : CodeValue) (p : List Bool) {k : Nat} (hk : k < 255) :
    (pathValue v p).getLsbD k = if k < p.length then p.getD (p.length - 1 - k) false else v.getLsbD (k - p.length) := by
  induction p generalizing v with
  | nil => simp
  | cons b p ih =>
    have hcons : pathValue v (b :: p) = pathValue (pathValue v [b]) p := rfl
    rw [hcons, ih, List.length_cons, Nat.add_sub_cancel]
    obtain hlt | hge := Nat.lt_or_ge k p.length
    · obtain ⟨d, hd⟩ : ∃ d, p.length - k = d + 1 := ⟨p.length - k - 1, by omega⟩
      rw [if_pos hlt, if_pos (by omega), hd, List.getD_cons_succ, show p.length - 1 - k = d by omega]
    · obtain ⟨d, rfl⟩ := Nat.exists_eq_add_of_le hge
      rw [if_neg (by omega), getLsbD_pathValue_singleton v b (by omega), Nat.add_sub_cancel_left]
      cases d with
      | zero => simp
      | succ d => rw [if_neg (by omega), if_neg (by omega)]; congr 1; omega

/-- A path value that starts from 0 holds the path alone. -/
theorem getLsbD_pathValue_zero {p : List Bool} (hp : p.length ≤ 255) (k : Nat) :
    (pathValue 0 p).getLsbD k = if k < p.length then p.getD (p.length - 1 - k) false else false := by
  obtain hk | hk := Nat.lt_or_ge k 255
  · simpa using getLsbD_pathValue 0 p hk
  · rw [BitVec.getLsbD_of_ge _ _ hk, if_neg (by omega)]

section
variable {s : State} {code : Memory CodeEntry} (h : s.Inv) (htv : s.tv = true)
  (h2 : 2 ≤ (presentSymbols s.freq).length)
include h htv h2

/-- The root of a tree with two or more leaves is Internal. -/
theorem State.Inv.root_internal : ∃ w l r, s.node.read s.root.toNat = .internal w l r := by
  obtain ⟨hn, hr⟩ := h.counts htv (List.ne_nil_of_length_pos (by omega))
  have hlt : s.root.toNat < s.nnodes.toNat := by omega
  rw [h.read_node htv hlt]
  exact buildTree_internal (by omega) ((h.tree htv).1 ▸ hlt)

variable (hc : deriveTable s.node s.nnodes.toNat s.root.toNat = some code)
include hc

/-- The table is that of the walk. -/
theorem State.Inv.walk_of_deriveTable :
    walk s.node (depthMax + 1) s.root.toNat 0 0 Memory.empty = some code := by
  obtain ⟨w, l, r, hr⟩ := h.root_internal htv h2
  rwa [deriveTable_internal (h.nnodes_ne_zero htv (List.ne_nil_of_length_pos (by omega))) hr] at hc

/-- The code of a symbol present is its path, which has 1 to 255 edges. -/
theorem State.Inv.code_of_present {x : Byte} (hx : x ∈ presentSymbols s.freq) :
    ∃ p, IsPathTo s.node s.root.toNat x p ∧ 1 ≤ p.length ∧ p.length ≤ 255 ∧
      (code.read x.toNat).len.toNat = p.length ∧ (code.read x.toNat).val = pathValue 0 p := by
  obtain ⟨p, hp, hlen, hread⟩ | ⟨hno, -⟩ := walk_read (h.walk_of_deriveTable htv h2 hc) x
  · obtain ⟨w, l, r, hr⟩ := h.root_internal htv h2
    have hpos : p ≠ [] := fun e => not_isPathTo_nil_internal hr (e ▸ hp)
    have hmod : p.length % 2 ^ 8 = p.length := Nat.mod_eq_of_lt hlen
    exact ⟨p, hp, List.length_pos_iff.2 hpos, Nat.le_of_lt_succ hlen, by simpa [hread] using hmod, by rw [hread]⟩
  · obtain ⟨p, hp⟩ := (h.exists_isPathTo_iff htv (List.ne_nil_of_mem hx)).2 hx
    exact absurd hp (hno p)

/-- A symbol that is not present has no code. -/
theorem State.Inv.code_of_absent {x : Byte} (hx : x ∉ presentSymbols s.freq) : code.read x.toNat = ⟨0, 0⟩ := by
  obtain ⟨p, hp, -⟩ | ⟨-, hread⟩ := walk_read (h.walk_of_deriveTable htv h2 hc) x
  · exact absurd ((h.exists_isPathTo_iff htv (List.ne_nil_of_length_pos (by omega))).1 ⟨p, hp⟩) hx
  · exact hread

end

/-- Settles O33: DERIVE leaves the table of the walk, whose codes are the paths, and the bits of a path value are its
edges. -/
theorem derivedCodesAreRootToLeafPaths : Obligations.DerivedCodesAreRootToLeafPaths := by
  intro s h htv h2
  obtain ⟨code, hc⟩ := h.deriveTable_completes htv
  refine ⟨_, exec_derive_of_some htv hc, fun x hx => ?_, fun x hx => h.code_of_absent htv h2 hc hx⟩
  obtain ⟨p, hp, h1, h255, hlen, hval⟩ := h.code_of_present htv h2 hc hx
  refine ⟨p, hp, h1, h255, hlen, fun k => ?_⟩
  rw [State.responded_code, hval, getLsbD_pathValue_zero h255]

/-! ### The Kraft sum (R124 (c)) -/

/-- The Kraft sum of the symbols below record i, times 2 ^ K, where S are these symbols and `path` their paths: half of
it stands on either side of an Internal record. -/
theorem kraft_sum_below {node : Memory NodeRec} {n size K i : Nat}
    (hchild : ∀ j w a b, j < size → node.read j = .internal w a b → n ≤ j ∧ a.toNat < j ∧ b.toNat < j)
    (hi : i < size) (hdepth : i + 1 ≤ K + n) {S : Finset Byte} {path : Byte → List Bool}
    (hS : ∀ x p, IsPathTo node i x p ↔ x ∈ S ∧ p = path x) : ∑ x ∈ S, 2 ^ (K - (path x).length) = 2 ^ K := by
  cases hr : node.read i with
  | leaf w y =>
    obtain ⟨hy, hp⟩ := (hS y []).1 ((isPathTo_leaf hr).2 ⟨rfl, rfl⟩)
    have hsingle : S = {y} :=
      Finset.eq_singleton_iff_unique_mem.2 ⟨hy, fun x hx => ((isPathTo_leaf hr).1 ((hS x _).2 ⟨hx, rfl⟩)).1⟩
    rw [hsingle, Finset.sum_singleton, ← hp, List.length_nil, Nat.sub_zero]
  | internal w l r =>
    obtain ⟨hn, hl, hright⟩ := hchild i w l r hi hr
    obtain ⟨K, rfl⟩ : ∃ K', K = K' + 1 := ⟨K - 1, by omega⟩
    have hside (b : Bool) :
        ∑ x ∈ S with (path x).head? = some b, 2 ^ (K + 1 - (path x).length) = 2 ^ K := by
      have hlt : (if b then r else l).toNat < i := by cases b <;> assumption
      rw [← kraft_sum_below hchild (hlt.trans hi) (K := K) (by omega) (path := fun x => (path x).tail)
        (S := {x ∈ S | (path x).head? = some b}) fun x p => ?_]
      · refine Finset.sum_congr rfl fun x hx => ?_
        obtain ⟨q, hq⟩ := List.head?_eq_some_iff.1 (Finset.mem_filter.1 hx).2
        simp [hq]
      · rw [← isPathTo_cons_internal hr, hS, Finset.mem_filter, and_assoc]
        cases path x <;> simp [eq_comm]
    have htrue : ∀ x ∈ S, ¬ (path x).head? = some false ↔ (path x).head? = some true := by
      intro x hx
      have hp := (hS x _).2 ⟨hx, rfl⟩
      cases hpx : path x with
      | nil => exact absurd (hpx ▸ hp) (not_isPathTo_nil_internal hr)
      | cons b q => simp
    rw [← Finset.sum_filter_add_sum_filter_not S (fun x => (path x).head? = some false), Finset.filter_congr htrue,
      hside, hside, pow_succ, mul_two]
termination_by i

/-- Settles O35: the codes are as long as the paths of the tree, each symbol present has one, and their Kraft sum is that
of all symbols below the root. -/
theorem kraftSumOfACodeTableIsOne : Obligations.KraftSumOfACodeTableIsOne := by
  intro s h hcv h2
  have htv := h.cv_tv hcv
  have hne : presentSymbols s.freq ≠ [] := List.ne_nil_of_length_pos (by omega)
  have hpath (x : Byte) (hx : x ∈ presentSymbols s.freq) : ∃ p, IsPathTo s.node s.root.toNat x p ∧
      (s.code.read x.toNat).len.toNat = p.length := by
    obtain ⟨p, hp, -, -, hlen, -⟩ := h.code_of_present htv h2 (h.codes hcv) hx
    exact ⟨p, hp, hlen⟩
  choose! path hpath hlen using hpath
  have hS (x : Byte) (p : List Bool) :
      IsPathTo s.node s.root.toNat x p ↔ x ∈ (presentSymbols s.freq).toFinset ∧ p = path x := by
    rw [List.mem_toFinset]
    constructor
    · intro hp
      have hx := (h.exists_isPathTo_iff htv hne).1 ⟨p, hp⟩
      exact ⟨hx, h.isPathTo_unique htv hne hp (hpath x hx)⟩
    · rintro ⟨hx, rfl⟩
      exact hpath x hx
  have hchild (j : Nat) (w : Weight) (l r : NodeIndex) (hj : j < s.nnodes.toNat)
      (e : s.node.read j = .internal w l r) : (presentSymbols s.freq).length ≤ j ∧ l.toNat < j ∧ r.toNat < j := by
    obtain ⟨hl, hr, -⟩ := h.child htv hj e
    exact ⟨h.leaves_le htv hj e, hl, hr⟩
  obtain ⟨hn, hr⟩ := h.counts htv hne
  have hle := length_presentSymbols_le s.freq
  rw [← List.sum_toFinset _ (presentSymbols_nodup s.freq),
    ← kraft_sum_below (K := 255) hchild (by omega) (by omega) hS]
  exact Finset.sum_congr rfl fun x hx => by rw [hlen x (List.mem_toFinset.1 hx)]

/-! ### CLEN and CVAL (R125, R126) -/

/-- A slice of a code value: 64 bits of it, zero above bit 254. -/
theorem getLsbD_slice (c : CodeEntry) {q k : Nat} (hq : q ≤ 3) (hk : k < 64) :
    (c.slice q).getLsbD k = c.val.getLsbD (64 * q + k) := by
  have h256 : 64 * q + k < 256 := by omega
  simp [CodeEntry.slice, hk, h256]

/-- Settles O36: the checks of CLEN and CVAL in their order, then the entry as CODE holds it; CLEN's row uses field a,
CVAL's row fields a and b, and b has its limit in the decoder. -/
theorem clenAndCvalReadTheCodeTable : Obligations.ClenAndCvalReadTheCodeTable := by
  have hclen : opcodeMap[9] ∈ opcodeMap := List.getElem_mem _
  have hcval : opcodeMap[10] ∈ opcodeMap := List.getElem_mem _
  refine ⟨fun x => decode_encode (i := .clen x) rfl,
    fun x q hq => decode_encode (i := .cval x q) (by simpa [Instr.wf] using hq),
    fun s x q => ⟨fun hcv => ?clenNotReady, fun hcv => ?clen, fun hq => ?limit, fun hq hcv => ?cvalNotReady,
      fun hq hcv => ⟨_, ?cval, fun k => getLsbD_slice _ hq⟩⟩,
    fun s a b d => ⟨fun hbd => submit_of_reserved_set hclen (.inr (hbd.imp (.intro rfl) (.intro rfl))) s, ?illegal⟩⟩
  case clenNotReady =>
    show execClen x s = _
    rw [execClen, if_pos (by simp [hcv])]
    rfl
  case clen =>
    show execClen x s = _
    rw [execClen, if_neg (by simp [hcv])]
    rfl
  case limit =>
    show execCval x q s = _
    rw [execCval, if_pos hq]
    rfl
  case cvalNotReady =>
    show execCval x q s = _
    rw [execCval, if_neg (by omega), if_pos (by simp [hcv])]
    rfl
  case cval =>
    show execCval x q s = _
    rw [execCval, if_neg (by omega), if_neg (by simp [hcv])]
    rfl
  case illegal =>
    rintro (hb | hd)
    · exact submit_of_not_decoded (decode_ne_ok_of_overLimit (.inr (.inr (by simpa using hb)))) s
    · exact submit_of_reserved_set hcval (.inr (.inr ⟨rfl, hd⟩)) s

end Sys2Proof.Machine
end

section
/-! PROOFS. The buffer commands (44_buffers.md): SPUT, SGET, DRD; BAPP as one append to the bit sequence
(`State.appended`); BRD and the packed bytes (20_memory.md R41), whose load restores the sequence (R152). -/

namespace Sys2Proof.Machine

/-! ### SPUT, SGET, DRD (R141, R142, R150) -/

section
variable {s : State}

theorem exec_sput_of_lt (x : Byte) (h : s.srclen.toNat < s.cfg.srccap.toNat) : exec (.sput x) s = .next
    (State.responded { s with src := s.src.write s.srclen.toNat x, srclen := s.srclen + 1 }
      ((s.srclen + 1).setWidth 64)) := by
  show execSput x s = _
  rw [execSput, if_neg fun e => h.ne (congrArg BitVec.toNat e)]
  rfl

theorem exec_sget_of_lt {k : Length} (h : k.toNat < s.srclen.toNat) :
    exec (.sget k) s = .next (s.responded ((s.src.read k.toNat).setWidth 64)) := by
  show execSget k s = _
  rw [execSget, if_neg (Nat.not_le.2 h)]
  rfl

theorem exec_drd_of_lt {k : Length} (h : k.toNat < s.dstlen.toNat) :
    exec (.drd k) s = .next (s.responded ((s.dst.read k.toNat).setWidth 64)) := by
  show execDrd k s = _
  rw [execDrd, if_neg (Nat.not_le.2 h)]
  rfl

end

/-- Settles O38: SPUT compares SRCLEN with SRCCAP, and below it SRCLEN + 1 does not wrap around; its row uses field a
alone. -/
theorem sputAppendsAByte : Obligations.SputAppendsAByte := by
  have hrow : opcodeMap[12] ∈ opcodeMap := List.getElem_mem _
  refine ⟨fun x => decode_encode (i := .sput x) rfl, fun s x hfull => ?full,
    fun s x hlt => ⟨_, exec_sput_of_lt x hlt, rfl, ?length, Memory.read_write s.src s.srclen.toNat x⟩,
    fun s a b d h => submit_of_reserved_set hrow (.inr (h.imp (.intro rfl) (.intro rfl))) s⟩
  case full =>
    show execSput x s = _
    rw [execSput, if_pos hfull]
    rfl
  case length => exact Nat.mod_eq_of_lt (Nat.lt_of_le_of_lt hlt s.cfg.srccap.isLt)

/-- Settles O39: each read compares its index with the length of its buffer; the rows use field d alone. -/
theorem sgetAndDrdReadOneByte : Obligations.SgetAndDrdReadOneByte := by
  have hsget : opcodeMap[13] ∈ opcodeMap := List.getElem_mem _
  have hdrd : opcodeMap[17] ∈ opcodeMap := List.getElem_mem _
  refine ⟨fun k => ⟨decode_encode (i := .sget k) rfl, decode_encode (i := .drd k) rfl⟩,
    fun s k => ⟨fun hge => ?sget, exec_sget_of_lt, fun hge => ?drd, exec_drd_of_lt⟩,
    fun s a b d h => ⟨submit_of_reserved_set hsget (h.imp (.intro rfl) (.inl ⟨rfl, ·⟩)) s,
      submit_of_reserved_set hdrd (h.imp (.intro rfl) (.inl ⟨rfl, ·⟩)) s⟩⟩
  case sget =>
    show execSget k s = _
    rw [execSget, if_pos hge]
    rfl
  case drd =>
    show execDrd k s = _
    rw [execDrd, if_pos hge]
    rfl

/-! ### BAPP (R146) -/

/-- The state after a BAPP that fits. -/
def State.appended (s : State) (n : BitVec 8) (v : BitVec 32) : State :=
  { s with
    bits := s.bits.writeBlock s.bitlen.toNat (bitGroup n.toNat v), bitlen := s.bitlen + n.setWidth 32,
    rsp := some ⟨.ok, (s.bitlen + n.setWidth 32).setWidth 64⟩ }

@[simp] theorem State.length_bitSequence (s : State) : s.bitSequence.length = s.bitlen.toNat :=
  Memory.length_readBlock _ _ _

/-- The bits at BITLEN and after are those of the group, in its order. -/
theorem State.read_appended_new (s : State) {n : BitVec 8} (v : BitVec 32) {k : Nat} (hk : k < n.toNat) :
    (s.appended n v).bits.read (s.bitlen.toNat + k) = v.getLsbD (n.toNat - 1 - k) := by
  have hk' : k < (bitGroup n.toNat v).length := by simpa using hk
  rw [State.appended, Memory.read_writeBlock, if_pos (by omega), Nat.add_sub_cancel_left,
    List.getD_eq_getElem _ _ hk', getElem_bitGroup]

/-- Every other bit is as before. -/
theorem State.read_appended_other (s : State) {n : BitVec 8} (v : BitVec 32) {p : Nat}
    (hp : p < s.bitlen.toNat ∨ s.bitlen.toNat + n.toNat ≤ p) : (s.appended n v).bits.read p = s.bits.read p := by
  rw [State.appended, Memory.read_writeBlock, if_neg (by rw [length_bitGroup]; omega)]

section
variable {s : State} {n : BitVec 8} (v : BitVec 32) (hfit : s.bitlen.toNat + n.toNat ≤ s.cfg.bitcap.toNat)
include hfit

theorem exec_bapp_of_fit (hn : n.toNat ≤ 32) : exec (.bapp n v) s = .next (s.appended n v) := by
  show execBapp n v s = _
  rw [execBapp, if_neg (by omega), if_neg (by omega)]
  rfl

/-- A BITLEN within BITCAP does not wrap around. -/
theorem State.appended_bitlen : (s.appended n v).bitlen.toNat = s.bitlen.toNat + n.toNat := by
  have hcap := s.cfg.bitcap.isLt
  rw [State.appended, BitVec.toNat_add, BitVec.toNat_setWidth_of_le (by decide), Nat.mod_eq_of_lt (by omega)]

theorem State.appended_bitSequence :
    (s.appended n v).bitSequence = s.bitSequence ++ bitGroup n.toNat v := by
  rw [State.bitSequence, State.appended_bitlen v hfit, Memory.readBlock_add, Nat.zero_add]
  congr 1
  · exact Memory.readBlock_congr fun k hk => s.read_appended_other v (.inl (by omega))
  · refine List.ext_getElem (by simp) fun k h1 h2 => ?_
    rw [Memory.getElem_readBlock, getElem_bitGroup, s.read_appended_new v (by simpa using h1)]

end

/-- Settles O40: the checks of BAPP in their order, then what `State.appended` reads as; its row uses fields a and d,
and a has its limit in the decoder. -/
theorem bappAppendsBitsMostSignificantFirst : Obligations.BappAppendsBitsMostSignificantFirst := by
  have hrow : opcodeMap[15] ∈ opcodeMap := List.getElem_mem _
  refine ⟨fun n v hn => decode_encode (i := .bapp n v) (by simpa [Instr.wf] using hn),
    fun s n v => ⟨fun hn => ?limit, fun hn hcap => ?capacity, fun hn hfit =>
      ⟨_, exec_bapp_of_fit v hfit hn, rfl, State.appended_bitlen v hfit, fun k => s.read_appended_new v,
        fun p => s.read_appended_other v⟩⟩,
    fun s a b d h => ?illegal⟩
  case limit =>
    show execBapp n v s = _
    rw [execBapp, if_pos hn]
    rfl
  case capacity =>
    show execBapp n v s = _
    rw [execBapp, if_neg (by omega), if_pos hcap]
    rfl
  case illegal =>
    obtain ha | hb := h
    · exact submit_of_not_decoded (decode_ne_ok_of_overLimit (.inr (.inl (by simpa using ha)))) s
    · exact submit_of_reserved_set hrow (.inr (.inl ⟨rfl, hb⟩)) s

/-! ### BRD and the packed bytes (R148) -/

theorem ceil8_eq (n : Nat) : ceil8 n = (n + 7) / 8 := Nat.shiftRight_eq_div_pow _ _

theorem exec_brd_of_lt {s : State} {j : Length} (h : j.toNat < ceil8 s.bitlen.toNat) :
    exec (.brd j) s = .next (s.responded ((s.packedByte j.toNat).setWidth 64)) := by
  show execBrd j s = _
  rw [execBrd, if_neg (Nat.not_le.2 h)]
  rfl

/-- Settles O41: BRD answers with the packed byte, whose bits `getLsbD_packedByte` gives; its row uses field d alone. -/
theorem brdReturnsThePackedByte : Obligations.BrdReturnsThePackedByte := by
  have hrow : opcodeMap[16] ∈ opcodeMap := List.getElem_mem _
  refine ⟨fun j => decode_encode (i := .brd j) rfl,
    fun s j => ⟨fun hge => ?out, fun hlt => ⟨_, exec_brd_of_lt (ceil8_eq _ ▸ hlt), getLsbD_packedByte s _⟩⟩,
    fun s a b d h => submit_of_reserved_set hrow (h.imp (.intro rfl) (.inl ⟨rfl, ·⟩)) s⟩
  case out =>
    show execBrd j s = _
    rw [execBrd, ceil8_eq, if_pos hge]
    rfl

/-- The bytes that BRD shows, in order. -/
def State.packedBytes (s : State) : List Byte := (List.range (ceil8 s.bitlen.toNat)).map s.packedByte

/-- The first r bits of a packed byte, as a group of r bits, are r bits of the sequence (20_memory.md R41, R42). -/
theorem bitGroup_packedByte (s : State) {j r : Nat} (hr : r ≤ 8) (hlen : 8 * j + r ≤ s.bitlen.toNat) :
    bitGroup r ((s.packedByte j >>> (8 - r)).setWidth 32) = s.bits.readBlock (8 * j) r := by
  refine List.ext_getElem (by simp) fun k h1 _ => ?_
  have hk : k < r := by simpa using h1
  have hbit : 8 - r + (r - 1 - k) = 7 - k := by omega
  have h32 : r - 1 - k < 32 := by omega
  rw [getElem_bitGroup, BitVec.getLsbD_setWidth, BitVec.getLsbD_ushiftRight, hbit, getLsbD_packedByte s j k (by omega),
    State.viewBit, if_pos (by omega), Memory.getElem_readBlock, decide_eq_true h32, Bool.true_and]

/-- A block of m bytes, read byte by byte. -/
theorem Memory.flatten_readBlock_eight {α : Type} [Inhabited α] (mem : Memory α) (m : Nat) :
    ((List.range m).map fun j => mem.readBlock (8 * j) 8).flatten = mem.readBlock 0 (8 * m) := by
  induction m with
  | zero => rfl
  | succ m ih => simp [List.range_succ, ih, Nat.mul_succ, Memory.readBlock_add]

/-! ### Sessions of BAPPs and of reads (R152) -/

/-- A session of one command more. -/
theorem session_wordsOf_cons {i : Instr} {is : List Instr} {s t u : State} {rs : List Response} (hwf : i.wf = true)
    (h : exec i s = .next t) (h' : session (wordsOf is) t = .next (u, rs)) :
    session (wordsOf (i :: is)) s = .next (u, t.rsp.toList ++ rs) :=
  session_cons ((submit_of_decode (decode_encode hwf) s).trans h) h'

/-- In state s the command answers OK with this data and changes nothing else. -/
structure State.Shows (s : State) (i : Instr) (d : Word64) : Prop where
  wf : i.wf = true
  exec_eq : exec i s = .next (s.responded d)

/-- Commands that only read, one after the other, answer what each of them answers in the first state. -/
theorem session_of_reads {s : State} {is : List Instr} {ds : List Word64} (h : List.Forall₂ s.Shows is ds)
    (r : Option Response) :
    ∃ r', session (wordsOf is) { s with rsp := r } = .next ({ s with rsp := r' }, ds.map (⟨.ok, ·⟩)) := by
  induction h generalizing r with
  | nil => exact ⟨r, rfl⟩
  | cons hd _ ih =>
    obtain ⟨hwf, hx⟩ := hd
    obtain ⟨r', h'⟩ := ih (some ⟨.ok, _⟩)
    exact ⟨r', session_wordsOf_cons hwf ((exec_rsp _ s r).trans hx) h'⟩

/-- Reading BITLEN and every packed byte shows them and changes nothing. -/
theorem session_unloadBits (s : State) :
    ∃ r, session (wordsOf (unloadBits s.bitlen.toNat)) s =
      .next ({ s with rsp := r }, ⟨.ok, s.bitlen.setWidth 64⟩ :: s.packedBytes.map fun x => ⟨.ok, x.setWidth 64⟩) := by
  have hreads : List.Forall₂ s.Shows (unloadBits s.bitlen.toNat)
      (s.bitlen.setWidth 64 :: s.packedBytes.map (·.setWidth 64)) := by
    refine .cons ⟨rfl, rfl⟩ ?_
    rw [State.packedBytes, List.map_map, List.forall₂_map_left_iff, List.forall₂_map_right_iff, List.forall₂_same]
    intro j hj
    have hlt := List.mem_range.1 hj
    have hmod : (BitVec.ofNat 32 j).toNat = j := by
      have hlen := s.bitlen.isLt
      rw [ceil8_eq] at hlt
      exact Nat.mod_eq_of_lt (by omega)
    have hx := exec_brd_of_lt (s := s) (j := BitVec.ofNat 32 j) (by rwa [hmod])
    exact ⟨rfl, by rwa [hmod] at hx⟩
  obtain ⟨r, hr⟩ := session_of_reads hreads s.rsp
  rw [List.map_cons, List.map_map] at hr
  exact ⟨r, hr⟩

/-- A session of BAPPs that fits appends the groups, in their order, and changes nothing but BITS, BITLEN and the
response. -/
theorem session_bapps {groups : List (BitVec 8 × BitVec 32)} {s : State} (hn : ∀ g ∈ groups, g.1.toNat ≤ 32)
    (hfit : s.bitlen.toNat + (groups.map fun g => g.1.toNat).sum ≤ s.cfg.bitcap.toNat) :
    ∃ t rs, session (wordsOf (groups.map fun g => .bapp g.1 g.2)) s = .next (t, rs) ∧ (∀ r ∈ rs, r.status = .ok) ∧
      t.bitSequence = s.bitSequence ++ (groups.map fun g => bitGroup g.1.toNat g.2).flatten ∧
      t = { s with bits := t.bits, bitlen := t.bitlen, rsp := t.rsp } := by
  induction groups generalizing s with
  | nil => exact ⟨s, [], rfl, nofun, by simp, rfl⟩
  | cons g groups ih =>
    obtain ⟨hg, hn⟩ := List.forall_mem_cons.1 hn
    rw [List.map_cons, List.sum_cons, ← Nat.add_assoc] at hfit
    have hfit1 : s.bitlen.toNat + g.1.toNat ≤ s.cfg.bitcap.toNat := by omega
    have hlen := State.appended_bitlen g.2 hfit1
    obtain ⟨t, rs, ht, hok, hseq, hframe⟩ := ih (s := s.appended g.1 g.2) hn (hlen ▸ hfit)
    refine ⟨t, _, session_wordsOf_cons (by simpa [Instr.wf] using hg) (exec_bapp_of_fit g.2 hfit1 hg) ht,
      List.forall_mem_cons.2 ⟨rfl, hok⟩, ?_, hframe⟩
    rw [hseq, State.appended_bitSequence g.2 hfit1, List.map_cons, List.flatten_cons, List.append_assoc]

/-- The groups of the load of L bits stored as packed bytes. -/
def loadGroups (len : Nat) (bytes : List Byte) : List (BitVec 8 × BitVec 32) :=
  (bytes.take (len / 8)).map (fun x => (8, x.setWidth 32)) ++
    if len % 8 = 0 then []
    else [(BitVec.ofNat 8 (len % 8), (bytes.getD (len / 8) 0 >>> (8 - len % 8)).setWidth 32)]

theorem loadBits_eq_map (len : Nat) (bytes : List Byte) :
    loadBits len bytes = (loadGroups len bytes).map fun g => .bapp g.1 g.2 := by
  rw [loadBits, loadGroups, List.map_append, List.map_map, apply_ite (List.map _)]
  rfl

theorem loadGroups_le (len : Nat) (bytes : List Byte) : ∀ g ∈ loadGroups len bytes, g.1.toNat ≤ 32 := by
  have h8 : (8 : BitVec 8).toNat ≤ 32 := by decide
  intro g hg
  rw [loadGroups, List.mem_append] at hg
  obtain hg | hg := hg
  · obtain ⟨x, -, rfl⟩ := List.mem_map.1 hg
    exact h8
  · split at hg
    · cases hg
    · rw [List.mem_singleton.1 hg, BitVec.toNat_ofNat]
      omega

/-- The bits of the groups: 8 of each full byte, then the first len mod 8 of the byte after them. -/
theorem flatten_loadGroups (len : Nat) (bytes : List Byte) :
    ((loadGroups len bytes).map fun g => bitGroup g.1.toNat g.2).flatten =
      ((bytes.take (len / 8)).map fun x => bitGroup 8 (x.setWidth 32)).flatten ++
        bitGroup (len % 8) ((bytes.getD (len / 8) 0 >>> (8 - len % 8)).setWidth 32) := by
  rw [loadGroups, List.map_append, List.flatten_append, List.map_map]
  congr 1
  split
  · rename_i h0
    rw [h0]
    rfl
  · have hmod : (BitVec.ofNat 8 (len % 8)).toNat = len % 8 := Nat.mod_eq_of_lt (by omega)
    rw [List.map_singleton, List.flatten_singleton, hmod]

/-- The groups of the full packed bytes are the sequence up to the last full byte. -/
theorem flatten_full_packedBytes (s : State) :
    ((s.packedBytes.take (s.bitlen.toNat / 8)).map fun x => bitGroup 8 (x.setWidth 32)).flatten =
      s.bits.readBlock 0 (8 * (s.bitlen.toNat / 8)) := by
  have hceil := ceil8_eq s.bitlen.toNat
  rw [← Memory.flatten_readBlock_eight, State.packedBytes, ← List.map_take, List.take_range,
    Nat.min_eq_left (by omega), List.map_map]
  congr 1
  refine List.map_congr_left fun j hj => ?_
  have hj := List.mem_range.1 hj
  simpa using bitGroup_packedByte s (j := j) le_rfl (by omega)

/-- The group of the last packed byte, where it is not full, is the rest of the sequence. -/
theorem bitGroup_last_packedByte (s : State) :
    bitGroup (s.bitlen.toNat % 8)
        ((s.packedBytes.getD (s.bitlen.toNat / 8) 0 >>> (8 - s.bitlen.toNat % 8)).setWidth 32) =
      s.bits.readBlock (8 * (s.bitlen.toNat / 8)) (s.bitlen.toNat % 8) := by
  by_cases h0 : s.bitlen.toNat % 8 = 0
  · rw [h0]
    rfl
  · have hceil := ceil8_eq s.bitlen.toNat
    have hget : s.packedBytes.getD (s.bitlen.toNat / 8) 0 = s.packedByte (s.bitlen.toNat / 8) := by
      rw [State.packedBytes, List.getD_eq_getElem _ _ (by simp; omega), List.getElem_map, List.getElem_range]
    rw [hget, bitGroup_packedByte s (by omega) (by omega)]

/-- The groups of all packed bytes are the sequence. -/
theorem flatten_loadGroups_packedBytes (s : State) :
    ((loadGroups s.bitlen.toNat s.packedBytes).map fun g => bitGroup g.1.toNat g.2).flatten = s.bitSequence := by
  have hseq := Memory.readBlock_add s.bits 0 (8 * (s.bitlen.toNat / 8)) (s.bitlen.toNat % 8)
  rw [Nat.div_add_mod, Nat.zero_add] at hseq
  rw [flatten_loadGroups, flatten_full_packedBytes, bitGroup_last_packedByte, State.bitSequence, hseq]

/-- The load of the packed bytes of one state into a state with no bits gives its sequence. -/
theorem session_loadBits (s : State) {t : State} (hempty : t.bitlen = 0)
    (hfit : s.bitlen.toNat ≤ t.cfg.bitcap.toNat) :
    ∃ u rs, session (wordsOf (loadBits s.bitlen.toNat s.packedBytes)) t = .next (u, rs) ∧
      (∀ r ∈ rs, r.status = .ok) ∧ u.bitSequence = s.bitSequence ∧
      u = { t with bits := u.bits, bitlen := u.bitlen, rsp := u.rsp } := by
  have hflat := flatten_loadGroups_packedBytes s
  have hsum : ((loadGroups s.bitlen.toNat s.packedBytes).map fun g => g.1.toNat).sum = s.bitlen.toNat := by
    simpa [List.length_flatten, Function.comp_def] using congrArg List.length hflat
  have hseq : t.bitSequence = [] := by simp [State.bitSequence, hempty, Memory.readBlock]
  have hload := session_bapps (s := t) (loadGroups_le s.bitlen.toNat s.packedBytes) (by simpa [hsum, hempty] using hfit)
  rwa [hflat, hseq, List.nil_append, ← loadBits_eq_map] at hload

/-- Settles O42: a session of BAPPs by induction on the groups; the groups of the load are the sequence byte by byte,
and so their sum is BITLEN, which fits. -/
theorem packedBytesReloadTheSequence : Obligations.PackedBytesReloadTheSequence := by
  refine ⟨fun s groups hn hfit => ?_, fun s h => ?_⟩
  · obtain ⟨t, rs, ht, hok, hseq, -⟩ := session_bapps hn hfit
    exact ⟨t, rs, ht, hok, hseq⟩
  · obtain ⟨r, hunload⟩ := session_unloadBits s
    obtain ⟨u, rs, hu, hok, hseq, -⟩ :=
      session_loadBits s (t := { s with bitlen := 0, rsp := some ⟨.ok, 0⟩ }) rfl h.bitlen_le
    refine ⟨_, _, hunload, rfl, ?_, u, ⟨.ok, 0⟩ :: rs, ?_, List.forall_mem_cons.2 ⟨rfl, hok⟩, ?_, hseq⟩
    · simp
    · have hbytes : (s.packedBytes.map fun x => (⟨.ok, x.setWidth 64⟩ : Response)).map (·.data.setWidth 8) =
          s.packedBytes := by
        simp [Function.comp_def]
      rw [List.tail_cons, hbytes]
      exact session_wordsOf_cons rfl rfl hu
    · exact BitVec.eq_of_toNat_eq (by simpa using congrArg List.length hseq)

end Sys2Proof.Machine
end

section
/-! PROOFS. The encoder command (45_encoder.md): what the checks find in SRC (`firstUnknown`), where the code of each
byte stands (`encodeBytes`), one equation per case of ENCODE, and the statements from them. -/

namespace Sys2Proof.Machine

/-! ### The bytes of SRC and their codes (R157, R158) -/

/-- Byte k of the source is element k of SRC. -/
theorem State.getElem?_sourceBytes {s : State} {k : Nat} (hk : k < s.srclen.toNat) :
    s.sourceBytes[k]? = some (s.src.read k) := by
  have hlen : k < s.sourceBytes.length := by simpa [State.sourceBytes] using hk
  rw [List.getElem?_eq_getElem hlen]
  simp [State.sourceBytes]

theorem State.forall_mem_sourceBytes {s : State} {p : Byte → Prop} :
    (∀ x ∈ s.sourceBytes, p x) ↔ ∀ k, k < s.srclen.toNat → p (s.src.read k) := by
  simp [State.sourceBytes, Memory.readBlock]

/-- The converse of `firstUnknown_eq_some`: a byte without a code, after bytes that have one, is the byte found. -/
theorem firstUnknown_of_first {code : Memory CodeEntry} {n : Nat} {x : Byte} {xs : List Byte} (hx : xs[n]? = some x)
    (hlen : (code.read x.toNat).len = 0)
    (hbefore : ∀ m y, m < n → xs[m]? = some y → (code.read y.toNat).len ≠ 0) :
    firstUnknown code 0 xs = some (n, x) := by
  cases hf : firstUnknown code 0 xs with
  | none => exact absurd hlen ((firstUnknown_eq_none code).1 hf x (List.mem_of_getElem? hx))
  | some found =>
    obtain ⟨m, hm, hy, hylen, hmbefore⟩ := firstUnknown_eq_some code hf
    have hle : m ≤ n := Nat.le_of_not_lt fun hlt => hmbefore n x hlt hx hlen
    have hge : n ≤ m := Nat.le_of_not_lt fun hlt => hbefore m _ hlt hy hylen
    obtain rfl := Nat.le_antisymm hle hge
    rw [hx] at hy
    rw [Option.some.inj hy, ← hm.trans (Nat.zero_add m)]

/-- In the concatenation of the codes, the code of byte k comes after those of the k bytes before it. -/
theorem encodeBytes_eq_code_between (code : Memory CodeEntry) {k : Nat} {x : Byte} {xs : List Byte}
    (hx : xs[k]? = some x) : encodeBytes code xs =
      encodeBytes code (xs.take k) ++ ((code.read x.toNat).bits ++ encodeBytes code (xs.drop (k + 1))) := by
  obtain ⟨hk, rfl⟩ := List.getElem?_eq_some_iff.1 hx
  calc encodeBytes code xs
      = encodeBytes code (xs.take k ++ xs.drop k) := by rw [List.take_append_drop]
    _ = _ := by rw [encodeBytes_append, List.drop_eq_getElem_cons hk, encodeBytes]

/-- Bit j of the code of byte k stands j places after the codes of the earlier bytes. -/
theorem getElem?_encodeBytes (code : Memory CodeEntry) {k j : Nat} {x : Byte} {xs : List Byte} (hx : xs[k]? = some x)
    (hj : j < (code.read x.toNat).len.toNat) :
    (encodeBytes code xs)[totalLength code (xs.take k) + j]? =
      some ((code.read x.toNat).val.getLsbD ((code.read x.toNat).len.toNat - 1 - j)) := by
  have hj' : j < (code.read x.toNat).bits.length := by simpa using hj
  rw [encodeBytes_eq_code_between code hx, ← length_encodeBytes, List.getElem?_append_right (Nat.le_add_right _ _),
    Nat.add_sub_cancel_left, List.getElem?_append_left hj', List.getElem?_eq_getElem hj']
  exact congrArg some (getElem_bitGroup ..)

/-- The data of UNKNOWN_SYMBOL as a number: the byte at bit 32, its index at bit 0. -/
theorem toNat_unknownSymbolInfo {k : Nat} (hk : k < 2 ^ 32) (x : Byte) :
    (unknownSymbolInfo k x).toNat = x.toNat * 2 ^ 32 + k := by
  have hmod : (BitVec.ofNat 32 k).toNat = k := Nat.mod_eq_of_lt hk
  rw [unknownSymbolInfo, toNat_append_eq_add, toNat_append_eq_add, hmod, BitVec.toNat_ofNat, Nat.zero_mod, Nat.zero_mul,
    Nat.zero_add]

/-! ### The sequence that ENCODE writes (R155) -/

/-- The bits written are those of the list, in its order. -/
theorem State.read_putBits_of_getElem? (s : State) {bs : List Bool} {p : Nat} {b : Bool} (hb : bs[p]? = some b) :
    (s.putBits bs).bits.read p = b := by
  obtain ⟨hp, rfl⟩ := List.getElem?_eq_some_iff.1 hb
  rw [State.putBits_bits, Memory.read_writeBlock, if_pos (by omega), Nat.sub_zero, List.getD_eq_getElem _ _ hp]

/-- Every bit at or past the new length is as before (log 6). -/
theorem State.read_putBits_of_le (s : State) {bs : List Bool} {p : Nat} (hp : bs.length ≤ p) :
    (s.putBits bs).bits.read p = s.bits.read p := by
  rw [State.putBits_bits, Memory.read_writeBlock, if_neg (by omega)]

/-- A sequence within BITCAP has a length that does not wrap around. -/
theorem State.toNat_putBits_bitlen (s : State) {bs : List Bool} (hfit : bs.length ≤ s.cfg.bitcap.toNat) :
    (s.putBits bs).bitlen.toNat = bs.length :=
  Nat.mod_eq_of_lt (Nat.lt_of_le_of_lt hfit s.cfg.bitcap.isLt)

/-! ### The cases of ENCODE (R156 to R161) -/

section
variable {s : State}

theorem exec_encode_of_empty (h0 : s.srclen = 0) : exec .encode s = .next ((s.putBits []).responded 0) := by
  show execEncode s = _
  rw [execEncode, if_pos h0]
  rfl

theorem exec_encode_of_one (h1 : s.srclen = 1) : exec .encode s = .next ((s.putBits [false]).responded 1) := by
  have h0 : s.srclen ≠ 0 := h1 ▸ by decide
  show execEncode s = _
  rw [execEncode, if_neg h0, if_pos h1]
  rfl

/-- The state after an ENCODE of the general case that fits. -/
def State.encoded (s : State) : State :=
  (s.putBits (encodeBytes s.code s.sourceBytes)).responded
    ((s.putBits (encodeBytes s.code s.sourceBytes)).bitlen.setWidth 64)

/-- With two bytes or more ENCODE comes to its checks. -/
theorem srclen_ne_of_two_le (h2 : 2 ≤ s.srclen.toNat) : s.srclen ≠ 0 ∧ s.srclen ≠ 1 := by
  constructor <;> intro h <;> rw [h] at h2 <;> exact absurd h2 (by decide)

variable (h2 : 2 ≤ s.srclen.toNat)
include h2

theorem exec_encode_of_not_cv (hcv : s.cv = false) : exec .encode s = .next (s.failed .notReady 0) := by
  obtain ⟨h0, h1⟩ := srclen_ne_of_two_le h2
  show execEncode s = _
  rw [execEncode, if_neg h0, if_neg h1, if_pos (by simp [hcv])]
  rfl

variable (hcv : s.cv = true)
include hcv

theorem exec_encode_of_unknown {k : Nat} {x : Byte} (hf : firstUnknown s.code 0 s.sourceBytes = some (k, x)) :
    exec .encode s = .next (s.failed .unknownSymbol (unknownSymbolInfo k x)) := by
  obtain ⟨h0, h1⟩ := srclen_ne_of_two_le h2
  rw [State.sourceBytes] at hf
  show execEncode s = _
  simp only [execEncode, if_neg h0, if_neg h1, hcv, hf]
  rfl

variable (hf : firstUnknown s.code 0 s.sourceBytes = none)
include hf

theorem exec_encode_of_too_long (hlt : s.cfg.bitcap.toNat < totalLength s.code s.sourceBytes) :
    exec .encode s = .next (s.failed .capacity 0) := by
  obtain ⟨h0, h1⟩ := srclen_ne_of_two_le h2
  rw [State.sourceBytes] at hf hlt
  show execEncode s = _
  simp only [execEncode, if_neg h0, if_neg h1, hcv, hf, if_pos hlt]
  rfl

theorem exec_encode_of_fit (hle : totalLength s.code s.sourceBytes ≤ s.cfg.bitcap.toNat) :
    exec .encode s = .next s.encoded := by
  obtain ⟨h0, h1⟩ := srclen_ne_of_two_le h2
  rw [State.sourceBytes] at hf hle
  show execEncode s = _
  simp only [execEncode, if_neg h0, if_neg h1, hcv, hf, if_neg (Nat.not_lt.2 hle)]
  rfl

end

/-! ### The statements -/

/-- Settles O44: BITLEN is the length of the concatenation, which fits, and `getElem?_encodeBytes` says where each code
stands in it. -/
theorem encodeConcatenatesTheCodes : Obligations.EncodeConcatenatesTheCodes := by
  intro s h2 hcv hknown hfit
  have hf : firstUnknown s.code 0 s.sourceBytes = none :=
    (firstUnknown_eq_none _).2 (State.forall_mem_sourceBytes.2 hknown)
  simp only [← totalLength_eq_sum] at hfit ⊢
  have hlen : s.encoded.bitlen.toNat = totalLength s.code s.sourceBytes :=
    (s.toNat_putBits_bitlen (by simpa using hfit)).trans (length_encodeBytes _ _)
  refine ⟨s.encoded, exec_encode_of_fit h2 hcv hf hfit, rfl, hlen, fun k j hk hj => ?_, fun p hp => ?_⟩
  · exact s.read_putBits_of_getElem? (getElem?_encodeBytes s.code (State.getElem?_sourceBytes hk) hj)
  · exact s.read_putBits_of_le (by simpa [← hlen] using hp)

/-- Settles O45: one equation of ENCODE per failure; UNKNOWN_SYMBOL reports the byte that `firstUnknown` finds. -/
theorem encodeFailsWholeAndInOrder : Obligations.EncodeFailsWholeAndInOrder := by
  refine fun s h2 => ⟨exec_encode_of_not_cv h2, fun k hcv hk hlen hbefore => ?unknown,
    fun hcv hknown hlt => ?capacity⟩
  case unknown =>
    have hf : firstUnknown s.code 0 s.sourceBytes = some (k, s.src.read k) := by
      refine firstUnknown_of_first (State.getElem?_sourceBytes hk) hlen fun j y hj hy => ?_
      rw [State.getElem?_sourceBytes (hj.trans hk)] at hy
      exact Option.some.inj hy ▸ hbefore j hj
    exact ⟨_, toNat_unknownSymbolInfo (hk.trans s.srclen.isLt) _, exec_encode_of_unknown h2 hcv hf⟩
  case capacity =>
    exact exec_encode_of_too_long h2 hcv ((firstUnknown_eq_none _).2 (State.forall_mem_sourceBytes.2 hknown))
      (by rwa [totalLength_eq_sum])

/-- Settles O43: ENCODE tests SRCLEN before CV; the empty write keeps a canonical BITS as it is; its row uses no
field. -/
theorem encodeOfShortBuffersNeedsNoTable : Obligations.EncodeOfShortBuffersNeedsNoTable := by
  have hrow : opcodeMap[18] ∈ opcodeMap := List.getElem_mem _
  refine ⟨decode_encode (i := .encode) rfl, fun s h h0 => ?empty,
    fun s h1 => ⟨_, exec_encode_of_one h1, rfl, fun k => ?one⟩,
    fun s a b d h => submit_of_reserved_set hrow (h.imp (.intro rfl) (.imp (.intro rfl) (.intro rfl))) s⟩
  case empty =>
    rw [exec_encode_of_empty h0, State.putBits, Memory.writeBlock_nil h.bits_wf]
    rfl
  case one =>
    split
    next hk => exact hk ▸ s.read_putBits_of_getElem? (bs := [false]) rfl
    next hk => exact s.read_putBits_of_le (bs := [false]) (Nat.one_le_iff_ne_zero.2 hk)

end Sys2Proof.Machine
end

section
/-! PROOFS. The decoder command (46_decoder.md): how a bit sequence splits into root-to-leaf paths and what the trial
pass answers for a split, the state after a commit, one equation per case of DECODE, and the statements from them. -/

namespace Sys2Proof.Machine

/-! ### Splits of a bit sequence (R175, R176) -/

section
variable {node : Memory NodeRec} {root : Nat} {w : Weight} {l r : NodeIndex}

/-- The paths of the symbols in ps, in their order, and then the bits q, which are none or an unfinished descent. -/
def SplitsInto (node : Memory NodeRec) (root : Nat) (bs : List Bool) (ps : List (Byte × List Bool)) (q : List Bool) :
    Prop :=
  bs = (ps.map (·.2)).flatten ++ q ∧ (∀ p ∈ ps, IsPathTo node root p.1 p.2) ∧
    (q = [] ∨ q ≠ [] ∧ ∃ w l r, follow node root q = some (.internal w l r))

theorem SplitsInto.cons {bs q : List Bool} {ps : List (Byte × List Bool)} (h : SplitsInto node root bs ps q)
    {p : Byte × List Bool} (hp : IsPathTo node root p.1 p.2) : SplitsInto node root (p.2 ++ bs) (p :: ps) q := by
  obtain ⟨rfl, hps, hq⟩ := h
  exact ⟨by simp, List.forall_mem_cons.2 ⟨hp, hps⟩, hq⟩

theorem Trial.foldr_cons_complete (ps : List (Byte × List Bool)) :
    ps.foldr (fun p t => Trial.cons p.1 t) (.complete []) = .complete (ps.map (·.1)) := by
  induction ps with
  | nil => rfl
  | cons p ps ih => rw [List.foldr_cons, ih, Trial.cons_complete, List.map_cons]

theorem Trial.foldr_cons_underflow (ps : List (Byte × List Bool)) :
    ps.foldr (fun p t => Trial.cons p.1 t) (.underflow 0) = .underflow ps.length := by
  induction ps with
  | nil => rfl
  | cons p ps ih => rw [List.foldr_cons, ih, Trial.cons_underflow, List.length_cons]

variable (hi : node.read root = .internal w l r)
include hi

/-- Below an Internal root the bits end on the way to a leaf, or they reach one after at least one bit, and fewer bits
remain. -/
theorem exists_splitsInto (bs : List Bool) : ∃ ps q, SplitsInto node root bs ps q := by
  rcases follow_or_leaf hi bs with hend | ⟨p, rest, w', x, rfl, hne, hp⟩
  · refine ⟨[], bs, rfl, by simp, ?_⟩
    by_cases hbs : bs = []
    · exact .inl hbs
    · exact .inr ⟨hbs, hend⟩
  · have hshorter : rest.length < (p ++ rest).length := by
      have := List.length_pos_iff.2 hne
      rw [List.length_append]
      omega
    obtain ⟨ps, q, hsplit⟩ := exists_splitsInto rest
    exact ⟨(x, p) :: ps, q, hsplit.cons (p := (x, p)) ⟨w', hp⟩⟩
termination_by bs.length

variable {ps : List (Byte × List Bool)} (hps : ∀ p ∈ ps, IsPathTo node root p.1 p.2)
include hps

/-- Whole paths and nothing after them: their symbols. -/
theorem trialPass_of_whole_paths :
    trialPass node (l, r) (ps.map (·.2)).flatten none = .complete (ps.map (·.1)) := by
  rw [← List.append_nil (ps.map (·.2)).flatten, trialPass_of_paths hi ps hps, trialPass,
    Trial.foldr_cons_complete]

/-- Whole paths and an unfinished descent after them: the number of the paths. -/
theorem trialPass_of_unfinished_descent {q : List Bool} (hq : q ≠ [])
    (hf : ∃ w l r, follow node root q = some (.internal w l r)) :
    trialPass node (l, r) ((ps.map (·.2)).flatten ++ q) none = .underflow ps.length := by
  obtain ⟨_, _, _, hf⟩ := hf
  rw [trialPass_of_paths hi ps hps, trialPass_of_internal hi rfl hq hf,
    Trial.foldr_cons_underflow]

end

/-! ### The commit (R178) -/

section
variable {s : State} {xs : List Byte}

/-- The state after a commit that fits: DST and DSTLEN replaced, the response their number. -/
def State.committed (s : State) (xs : List Byte) : State :=
  { s with
    dst := s.dst.writeBlock 0 xs, dstlen := BitVec.ofNat 32 xs.length
    rsp := some ⟨.ok, (BitVec.ofNat 32 xs.length).setWidth 64⟩ }

theorem commitSymbols_of_lt (h : s.cfg.dstcap.toNat < xs.length) :
    commitSymbols xs s = .next (s.failed .capacity 0) := by
  rw [commitSymbols, if_pos h]
  rfl

theorem commitSymbols_of_le (h : xs.length ≤ s.cfg.dstcap.toNat) : commitSymbols xs s = .next (s.committed xs) := by
  rw [commitSymbols, if_neg (Nat.not_lt.2 h)]
  rfl

/-- A number of symbols within DSTCAP does not wrap around. -/
theorem State.toNat_committed_dstlen (h : xs.length ≤ s.cfg.dstcap.toNat) :
    (s.committed xs).dstlen.toNat = xs.length :=
  Nat.mod_eq_of_lt (Nat.lt_of_le_of_lt h s.cfg.dstcap.isLt)

theorem State.destBytes_committed (h : xs.length ≤ s.cfg.dstcap.toNat) : (s.committed xs).destBytes = xs := by
  rw [State.destBytes, State.toNat_committed_dstlen h]
  exact Memory.readBlock_writeBlock s.dst 0 xs

/-- The bytes at and past the number of symbols are as before (log 6). -/
theorem State.read_committed_of_le {k : Nat} (hk : xs.length ≤ k) :
    (s.committed xs).dst.read k = s.dst.read k := by
  rw [State.committed, Memory.read_writeBlock, if_neg (by omega)]

/-- A commit of one symbol, repeated. -/
theorem State.read_committed_replicate (n : Nat) (x : Byte) (k : Nat) :
    (s.committed (List.replicate n x)).dst.read k = if k < n then x else s.dst.read k := by
  split
  next hk =>
    rw [State.committed, Memory.read_writeBlock, if_pos (by simpa using hk), Nat.sub_zero,
      List.getD_eq_getElem _ _ (by simpa using hk), List.getElem_replicate]
  next hk => exact State.read_committed_of_le (by simpa using hk)

end

/-! ### The cases of DECODE (R171 to R176) -/

section
variable {s : State}

theorem exec_decode_of_not_tv (htv : s.tv = false) : exec .decode s = .next (s.failed .notReady 0) := by
  show execDecode s = _
  rw [execDecode, if_pos (by simp [htv])]
  rfl

variable (htv : s.tv = true)
include htv

theorem exec_decode_of_mismatch (h : ¬(s.nnodes = 0 ↔ s.bitlen = 0)) :
    exec .decode s = .next (s.failed .malformedContainer 0) := by
  have hne : ((s.nnodes == 0) != (s.bitlen == 0)) = true :=
    bne_iff_ne.2 fun e => h (by rw [← beq_iff_eq, e, beq_iff_eq])
  show execDecode s = _
  rw [execDecode, if_neg (by simp [htv]), if_pos hne]
  rfl

theorem exec_decode_of_empty (hn : s.nnodes = 0) (hb : s.bitlen = 0) :
    exec .decode s = .next { s with dstlen := 0, rsp := some ⟨.ok, 0⟩ } := by
  show execDecode s = _
  rw [execDecode, if_neg (by simp [htv]), if_neg (by simp [hn, hb]), if_pos hb]
  rfl

/-- The trial pass ends in the middle of a descent (R176); `execDecode_of_leaf` and `execDecode_of_complete` are the
other ends. -/
theorem exec_decode_of_underflow (hn : s.nnodes ≠ 0) (hb : s.bitlen ≠ 0) {w : Weight} {l r : NodeIndex}
    (hr : s.node.read s.root.toNat = .internal w l r) {n : Nat}
    (hx : trialPass s.node (l, r) s.bitSequence none = .underflow n) :
    exec .decode s = .next (s.failed .decodeUnderflow (BitVec.ofNat 64 n)) := by
  rw [State.bitSequence] at hx
  show execDecode s = _
  rw [execDecode, if_neg (by simp [htv]), if_neg (by rw [beq_false_of_ne hn, beq_false_of_ne hb]; decide),
    if_neg hb, hr]
  simp only [hx]
  rfl

end

/-! ### The statements -/

/-- Settles O47: `exists_splitsInto` gives a split; for any split the trial pass answers the symbols of its paths, which
DECODE commits, or their number. -/
theorem decodeFollowsTheTreeBitByBit : Obligations.DecodeFollowsTheTreeBitByBit := by
  refine fun s w l r htv hn hb hr => ⟨exists_splitsInto hr s.bitSequence, fun ps q hsplit hps => ?_⟩
  have hlen : (ps.map (·.1)).length = ps.length := List.length_map _
  have hcommit (hq : q = []) : exec .decode s = commitSymbols (ps.map (·.1)) s := by
    rw [hq, List.append_nil] at hsplit
    exact execDecode_of_complete htv hn hb hr (hsplit ▸ trialPass_of_whole_paths hr hps)
  refine ⟨fun hq hlt => ?capacity, fun hq hle => ?fit, fun hq hf => ?underflow⟩
  case capacity =>
    rw [← hlen] at hlt
    exact (hcommit hq).trans (commitSymbols_of_lt hlt)
  case fit =>
    rw [← hlen] at hle ⊢
    exact ⟨s.committed _, (hcommit hq).trans (commitSymbols_of_le hle), rfl, State.toNat_committed_dstlen hle,
      State.destBytes_committed hle, fun k => State.read_committed_of_le⟩
  case underflow =>
    exact exec_decode_of_underflow htv hn hb hr (hsplit ▸ trialPass_of_unfinished_descent hr hps hq hf)

/-- Settles O46: one equation of DECODE per check; a single leaf commits its symbol once for each bit; the row of DECODE
uses no field. -/
theorem decodeChecksTheContainerFirst : Obligations.DecodeChecksTheContainerFirst := by
  have hrow : opcodeMap[19] ∈ opcodeMap := List.getElem_mem _
  refine ⟨decode_encode (i := .decode) rfl, fun s => exec_decode_of_not_tv, fun s => exec_decode_of_mismatch,
    fun s => exec_decode_of_empty, fun s w sym htv hn hb hr => ?leaf,
    fun s a b d h => submit_of_reserved_set hrow (h.imp (.intro rfl) (.imp (.intro rfl) (.intro rfl))) s⟩
  case leaf =>
    have hcommit : exec .decode s = commitSymbols (List.replicate s.bitlen.toNat sym) s :=
      execDecode_of_leaf htv hn hb hr
    refine ⟨fun hlt => hcommit.trans (commitSymbols_of_lt (by simpa using hlt)), fun hle =>
      ⟨_, hcommit.trans (commitSymbols_of_le (by simpa using hle)), ?_, State.read_committed_replicate _ sym⟩⟩
    simp [State.committed]

end Sys2Proof.Machine
end

section
/-! PROOFS. The codes of a valid table (43_code_table.md R120 to R123) as bit strings: exactly the keys have one, and
with two or more keys it is the key's path, so no code begins with another (47_properties.md R194). -/

namespace Sys2Proof.Machine

/-! ### Codes as bit strings (10_state.md R33) -/

/-- The bits of a code whose value is a path are the path. -/
theorem CodeEntry.bits_of_pathValue {c : CodeEntry} {p : List Bool} (hlen : c.len.toNat = p.length)
    (hval : c.val = pathValue 0 p) : c.bits = p := by
  have hp : p.length ≤ 255 := by have := c.len.isLt; omega
  refine List.ext_getElem (by simpa using hlen) fun k hk hk' => ?_
  have hidx : p.length - 1 - (p.length - 1 - k) = k := by omega
  simp only [CodeEntry.bits, getElem_bitGroup]
  rw [hlen, hval, getLsbD_pathValue_zero hp, if_pos (by omega), hidx, List.getD_eq_getElem _ _ hk']

/-- A code that, cut to a shorter length, is another code has the bits of that other code at its front. -/
theorem CodeEntry.bits_isPrefix_of_shift {c d : CodeEntry} (hlen : c.len.toNat ≤ d.len.toNat)
    (hval : d.val >>> (d.len.toNat - c.len.toNat) = c.val) : c.bits <+: d.bits := by
  refine List.prefix_iff_getElem.2 ⟨by simpa using hlen, fun k hk => ?_⟩
  have hk' : k < c.len.toNat := by simpa using hk
  have hidx : d.len.toNat - c.len.toNat + (c.len.toNat - 1 - k) = d.len.toNat - 1 - k := by omega
  simp only [CodeEntry.bits, getElem_bitGroup]
  rw [← hval, BitVec.getLsbD_ushiftRight, hidx]

/-- No path to a leaf goes on past another leaf. -/
theorem isPathTo_append {node : Memory NodeRec} {i : Nat} {x y : Byte} {p q : List Bool} (hp : IsPathTo node i x p)
    (hq : IsPathTo node i y (p ++ q)) : x = y := by
  induction p generalizing i with
  | nil =>
    obtain ⟨w, hw⟩ := hp
    exact ((isPathTo_leaf (Option.some.inj hw)).1 hq).1.symm
  | cons b p ih =>
    cases hi : node.read i with
    | leaf w z => cases ((isPathTo_leaf hi).1 hp).2
    | internal w l r => exact ih ((isPathTo_cons_internal hi).1 hp) ((isPathTo_cons_internal hi).1 hq)

/-! ### The codes of a valid table (R120 to R123) -/

section
variable {s : State} {code : Memory CodeEntry} (h : s.Inv) (htv : s.tv = true)
include h htv

/-- The root of the tree of one key is the leaf of that key. -/
theorem State.Inv.root_leaf {x : Byte} (hx : presentSymbols s.freq = [x]) :
    ∃ w, s.node.read s.root.toNat = .leaf w x := by
  obtain ⟨hn, hr⟩ := h.counts htv (by simp [hx])
  simp only [hx, List.length_singleton] at hn
  have hroot : s.root.toNat = 0 := by omega
  rw [hroot]
  exact (h.read_eq_leaf_iff htv (by omega)).2 (by rw [hx]; rfl)

/-- There is a tree exactly when there is a key. -/
theorem State.Inv.nnodes_eq_zero_iff : s.nnodes = 0 ↔ presentSymbols s.freq = [] := by
  constructor
  · intro hn
    by_contra hne
    exact h.nnodes_ne_zero htv hne (congrArg BitVec.toNat hn)
  · intro he
    exact BitVec.eq_of_toNat_eq (h.counts_of_empty htv he).1

variable (hc : deriveTable s.node s.nnodes.toNat s.root.toNat = some code)
include hc

/-- The one key of a table has the code "0", no other symbol has one (R122). -/
theorem State.Inv.code_of_single {x : Byte} (hx : presentSymbols s.freq = [x]) (y : Byte) :
    code.read y.toNat = if y = x then ⟨1, 0⟩ else ⟨0, 0⟩ := by
  obtain ⟨w, hr⟩ := h.root_leaf htv hx
  rw [deriveTable_leaf (h.nnodes_ne_zero htv (by simp [hx])) hr] at hc
  cases hc
  simp only [Memory.read_write, BitVec.toNat_inj]
  rfl

/-- With two or more keys the code of a key is the path to its leaf (R121). -/
theorem State.Inv.isPathTo_code (h2 : 2 ≤ (presentSymbols s.freq).length) {x : Byte}
    (hx : x ∈ presentSymbols s.freq) : IsPathTo s.node s.root.toNat x (code.read x.toNat).bits := by
  obtain ⟨p, hp, -, -, hlen, hval⟩ := h.code_of_present htv h2 hc hx
  rwa [CodeEntry.bits_of_pathValue hlen hval]

/-- Exactly the keys have a code (R120 to R123). -/
theorem State.Inv.code_len_ne_zero_iff {x : Byte} : (code.read x.toNat).len ≠ 0 ↔ x ∈ presentSymbols s.freq := by
  match hk : presentSymbols s.freq with
  | [] =>
    rw [(h.counts_of_empty htv hk).1, deriveTable_zero] at hc
    cases hc
    have hempty : (Memory.unlisted : CodeEntry).len = 0 := rfl
    simp [hempty]
  | [y] =>
    rw [h.code_of_single htv hc hk, List.mem_singleton]
    split <;> simp_all
  | y :: z :: ys =>
    have h2 : 2 ≤ (presentSymbols s.freq).length := by simp [hk]
    rw [← hk]
    constructor
    · intro hlen
      by_contra hx
      exact hlen (congrArg CodeEntry.len (h.code_of_absent htv h2 hc hx))
    · intro hx hlen
      obtain ⟨p, -, hpos, -, hp, -⟩ := h.code_of_present htv h2 hc hx
      rw [hlen] at hp
      exact Nat.ne_of_gt hpos hp.symm

end

/-- Settles O34: with two or more keys the codes are paths to distinct leaves, and a code that begins with another would
be a path that goes on past a leaf. -/
theorem codeTablesArePrefixFree : Obligations.CodeTablesArePrefixFree := by
  intro s h hcv
  have htv := h.cv_tv hcv
  have hc := h.codes hcv
  have hlen (x : Byte) : (s.code.read x.toNat).len ≠ 0 ↔ s.freq.read x.toNat ≠ 0 :=
    (h.code_len_ne_zero_iff htv hc).trans (mem_presentSymbols s.freq)
  refine ⟨fun x hx => ?present, fun x hx => not_not.1 fun hl => (hlen x).1 hl hx,
    fun x y hxy hx hy hle hval => ?twoKeys, fun x hx => by rw [h.code_of_single htv hc hx, if_pos rfl]⟩
  case present =>
    exact Nat.one_le_iff_ne_zero.2 fun e => (hlen x).2 hx (BitVec.eq_of_toNat_eq e)
  case twoKeys =>
    rw [← mem_presentSymbols] at hx hy
    have h2 : 2 ≤ (presentSymbols s.freq).length :=
      (List.subperm_of_subset (l₁ := [x, y]) (by simp [hxy]) (by simp [hx, hy])).length_le
    obtain ⟨q, hq⟩ := CodeEntry.bits_isPrefix_of_shift hle hval
    exact hxy (isPathTo_append (h.isPathTo_code htv hc h2 hx) (hq ▸ h.isPathTo_code htv hc h2 hy))

end Sys2Proof.Machine
end

section
/-! PROOFS. ENCODE and DECODE with one table: DECODE turns the codes of a list of keys back into the list
(`State.Inv.exec_decode_of_codes`), and what both do when the table is not that of the buffer (47_properties.md
R198). -/

namespace Sys2Proof.Machine

@[simp] theorem State.length_sourceBytes (s : State) : s.sourceBytes.length = s.srclen.toNat :=
  Memory.length_readBlock _ _ _

/-! ### The sequence that ENCODE leaves (R155) -/

theorem State.bitSequence_putBits (s : State) {bs : List Bool} (hfit : bs.length ≤ s.cfg.bitcap.toNat) :
    (s.putBits bs).bitSequence = bs := by
  rw [State.bitSequence, State.toNat_putBits_bitlen s hfit]
  exact Memory.readBlock_writeBlock s.bits 0 bs

/-- The codes of a byte list are those of its bytes, joined. -/
theorem encodeBytes_eq_flatten (code : Memory CodeEntry) (xs : List Byte) :
    encodeBytes code xs = (xs.map fun x => (code.read x.toNat).bits).flatten := by
  induction xs with
  | nil => rfl
  | cons x xs ih => rw [encodeBytes, ih, List.map_cons, List.flatten_cons]

/-- When every byte has a code, there are at least as many bits as bytes. -/
theorem length_le_totalLength {code : Memory CodeEntry} {xs : List Byte}
    (hxs : ∀ x ∈ xs, (code.read x.toNat).len ≠ 0) : xs.length ≤ totalLength code xs := by
  induction xs with
  | nil => exact le_rfl
  | cons x xs ih =>
    obtain ⟨hx, hxs⟩ := List.forall_mem_cons.1 hxs
    have hpos : (code.read x.toNat).len.toNat ≠ 0 := fun e => hx (BitVec.eq_of_toNat_eq e)
    have hle := ih hxs
    rw [List.length_cons, totalLength]
    omega

/-! ### DECODE of a sequence of codes (R170 to R178) -/

section
variable {s : State} {code : Memory CodeEntry} (h : s.Inv) (htv : s.tv = true)
  (hc : deriveTable s.node s.nnodes.toNat s.root.toNat = some code)
include h htv hc

/-- The one key of a table is encoded as the bit 0 (R122). -/
theorem State.Inv.encodeBytes_singleton {x : Byte} (hx : presentSymbols s.freq = [x]) :
    encodeBytes code [x] = [false] := by
  rw [encodeBytes, encodeBytes, List.append_nil, h.code_of_single htv hc hx, if_pos rfl]
  rfl

variable {xs : List Byte} (hxs : ∀ x ∈ xs, x ∈ presentSymbols s.freq) (hbits : s.bitSequence = encodeBytes code xs)
include hxs hbits

/-- BITLEN is the sum of the lengths of the codes, none of which is empty. -/
theorem State.Inv.bitlen_of_codes : s.bitlen.toNat = totalLength code xs ∧ (s.bitlen = 0 ↔ xs = []) := by
  have hlen : s.bitlen.toNat = totalLength code xs := by
    rw [← State.length_bitSequence, hbits, length_encodeBytes]
  have hle := length_le_totalLength fun x hx => (h.code_len_ne_zero_iff htv hc).2 (hxs x hx)
  refine ⟨hlen, fun e => ?_, fun e => BitVec.eq_of_toNat_eq (by rw [hlen, e]; rfl)⟩
  have hb : s.bitlen.toNat = 0 := congrArg BitVec.toNat e
  exact List.eq_nil_of_length_eq_zero (by omega)

/-- With one key its code is one bit, and DECODE writes the key once for each bit (R174). -/
theorem State.Inv.execDecode_of_one_key {y : Byte} (hy : presentSymbols s.freq = [y]) (hne : xs ≠ []) :
    execDecode s = commitSymbols xs s := by
  obtain ⟨w, hr⟩ := h.root_leaf htv hy
  obtain ⟨hlen, hb⟩ := h.bitlen_of_codes htv hc hxs hbits
  have hn : s.nnodes ≠ 0 := mt (h.nnodes_eq_zero_iff htv).1 (by simp [hy])
  obtain ⟨n, rfl⟩ : ∃ n, xs = List.replicate n y :=
    ⟨_, List.eq_replicate_iff.2 ⟨rfl, fun x hx => by simpa [hy] using hxs x hx⟩⟩
  have hn' : s.bitlen.toNat = n := by
    rw [hlen, totalLength_eq_sum]
    simp [h.code_of_single htv hc hy]
  rw [execDecode_of_leaf htv hn (mt hb.1 hne) hr, hn']

/-- With two or more keys the codes are paths, and DECODE writes their keys (R175). -/
theorem State.Inv.execDecode_of_more_keys (h2 : 2 ≤ (presentSymbols s.freq).length) (hne : xs ≠ []) :
    execDecode s = commitSymbols xs s := by
  obtain ⟨w, l, r, hr⟩ := h.root_internal htv h2
  obtain ⟨-, hb⟩ := h.bitlen_of_codes htv hc hxs hbits
  have hn : s.nnodes ≠ 0 := mt (h.nnodes_eq_zero_iff htv).1 (List.ne_nil_of_length_pos (by omega))
  have hpaths := trialPass_of_whole_paths hr (ps := xs.map fun x => (x, (code.read x.toNat).bits)) (by
    rintro p hp
    obtain ⟨x, hx, rfl⟩ := List.mem_map.1 hp
    exact h.isPathTo_code htv hc h2 (hxs x hx))
  refine execDecode_of_complete htv hn (mt hb.1 hne) hr ?_
  rw [hbits, encodeBytes_eq_flatten]
  simpa [Function.comp_def] using hpaths

/-- DECODE turns the codes of a list of keys back into the list; the empty list needs the empty table (R172). -/
theorem State.Inv.exec_decode_of_codes (hnil : xs = [] → presentSymbols s.freq = [])
    (hfit : xs.length ≤ s.cfg.dstcap.toNat) : exec .decode s = .next (s.committed xs) := by
  rw [← commitSymbols_of_le hfit]
  by_cases hne : xs = []
  · subst hne
    rw [exec_decode_of_empty htv ((h.nnodes_eq_zero_iff htv).2 (hnil rfl))
      ((h.bitlen_of_codes htv hc hxs hbits).2.2 rfl), commitSymbols_of_le hfit, State.committed,
      Memory.writeBlock_nil h.dst_wf]
    rfl
  · match hk : presentSymbols s.freq with
    | [] =>
      obtain ⟨x, hx⟩ := List.exists_mem_of_ne_nil xs hne
      exact absurd hk (List.ne_nil_of_mem (hxs x hx))
    | [y] => exact h.execDecode_of_one_key htv hc hxs hbits hk hne
    | y :: z :: ys => exact h.execDecode_of_more_keys htv hc hxs hbits (by simp [hk]) hne

end

/-! ### The buffer and the table (R198) -/

section
variable {s : State} (h : s.Inv) (hcv : s.cv = true)
include h hcv

/-- ENCODE and then DECODE of a buffer of two or more bytes, all of them keys. -/
theorem State.Inv.encode_decode_of_keys (h2 : 2 ≤ s.srclen.toNat)
    (hkeys : ∀ x ∈ s.sourceBytes, x ∈ presentSymbols s.freq)
    (hbits : totalLength s.code s.sourceBytes ≤ s.cfg.bitcap.toNat) (hdst : s.srclen.toNat ≤ s.cfg.dstcap.toNat) :
    exec .encode s = .next s.encoded ∧ exec .decode s.encoded = .next (s.encoded.committed s.sourceBytes) := by
  have htv := h.cv_tv hcv
  have hc := h.codes hcv
  have hlen := s.length_sourceBytes
  have hx : exec .encode s = .next s.encoded :=
    exec_encode_of_fit h2 hcv
      ((firstUnknown_eq_none _).2 fun x hx => (h.code_len_ne_zero_iff htv hc).2 (hkeys x hx)) hbits
  have hseq : s.encoded.bitSequence = encodeBytes s.code s.sourceBytes :=
    s.bitSequence_putBits (by simpa using hbits)
  refine ⟨hx, (exec_inv h hx).exec_decode_of_codes htv hc hkeys hseq (fun e => ?_) (hlen.trans_le hdst)⟩
  rw [e, List.length_nil] at hlen
  omega

/-- A byte that is no key makes ENCODE of two or more bytes fail (R158). -/
theorem State.Inv.encode_of_absent (h2 : 2 ≤ s.srclen.toNat) {k : Nat} (hk : k < s.srclen.toNat)
    (habs : s.src.read k ∉ presentSymbols s.freq) :
    ∃ info, exec .encode s = .next (s.failed .unknownSymbol info) := by
  cases hf : firstUnknown s.code 0 s.sourceBytes with
  | some found => exact ⟨_, exec_encode_of_unknown h2 hcv hf⟩
  | none =>
    have hlen := State.forall_mem_sourceBytes.1 ((firstUnknown_eq_none _).1 hf) k hk
    exact absurd ((h.code_len_ne_zero_iff (h.cv_tv hcv) (h.codes hcv)).1 hlen) habs

end

/-- ENCODE of one byte leaves the bit 0, whatever the table (R156). -/
theorem State.Inv.bitSequence_one {s : State} (h : s.Inv) (d : Word64) :
    ((s.putBits [false]).responded d).bitSequence = [false] := by
  obtain ⟨-, hbitcap, -⟩ := h.cfg_wf
  exact s.bitSequence_putBits hbitcap

/-- ENCODE of one byte leaves a state with the invariant. -/
theorem State.Inv.encoded_one {s : State} (h : s.Inv) (h1 : s.srclen = 1) :
    ((s.putBits [false]).responded 1).Inv :=
  exec_inv h (exec_encode_of_one h1)

/-- Settles O55: one lemma or one equation of ENCODE and of DECODE for each row; an empty sequence against a tree, and
a bit against no tree, are the two mismatches of DECODE's container check. -/
theorem outsideTheContractBehaviourIsDefined : Obligations.OutsideTheContractBehaviourIsDefined := by
  intro s h hcv
  have htv := h.cv_tv hcv
  have hc := h.codes hcv
  have hn := h.nnodes_eq_zero_iff htv
  have hn0 (hk : 1 ≤ (presentSymbols s.freq).length) : s.nnodes ≠ 0 := mt hn.1 (List.ne_nil_of_length_pos hk)
  have hb1 : BitVec.ofNat 32 1 ≠ 0#32 := by decide
  obtain ⟨-, -, hdstcap⟩ := h.cfg_wf
  simp only [← mem_presentSymbols, ← totalLength_eq_sum]
  refine ⟨fun h2 hkeys hbits hdst => ?keys, fun k h2 hk habs => ?absent, fun sym h1 hk => ?oneKey,
    fun w l r h1 h2 hr => ⟨_, exec_encode_of_one h1, rfl, h.bitSequence_one 1, fun w' sym hl => ?leaf,
      fun w' l' r' hl => ?internal⟩,
    fun h0 hk => ?emptyBuffer, fun he => ⟨fun h1 => ?emptyTableOne, fun h2 => ?emptyTableMore⟩⟩
  case keys =>
    obtain ⟨hx, hd⟩ := h.encode_decode_of_keys hcv h2 (State.forall_mem_sourceBytes.2 hkeys) hbits hdst
    have hlen : s.sourceBytes.length ≤ s.encoded.cfg.dstcap.toNat := s.length_sourceBytes.trans_le hdst
    exact ⟨_, _, _, _, hx, rfl, hd, rfl, State.destBytes_committed hlen⟩
  case absent =>
    exact h.encode_of_absent hcv h2 hk (by simp [mem_presentSymbols, habs])
  case oneKey =>
    have hbit : ((s.putBits [false]).responded 1).bitSequence = encodeBytes s.code [sym] := by
      rw [h.bitSequence_one, h.encodeBytes_singleton htv hc hk]
    have hd := (h.encoded_one h1).exec_decode_of_codes htv hc (by simp [hk]) hbit nofun hdstcap
    exact ⟨_, _, exec_encode_of_one h1, rfl, h.bitSequence_one 1, hd, rfl, State.destBytes_committed hdstcap⟩
  case leaf =>
    have hx := trialPass_of_whole_paths hr (ps := [(sym, [false])])
      (List.forall_mem_singleton.2 ((isPathTo_cons_internal hr).2 ((isPathTo_leaf hl).2 ⟨rfl, rfl⟩)))
    have hd := execDecode_of_complete (s := (s.putBits [false]).responded 1) htv (hn0 (by omega)) hb1 hr
      (by rw [h.bitSequence_one]; exact hx)
    exact ⟨_, hd.trans (commitSymbols_of_le hdstcap), rfl, State.destBytes_committed hdstcap⟩
  case internal =>
    have hx := trialPass_of_unfinished_descent hr (ps := []) nofun (List.cons_ne_nil false [])
      ⟨w', l', r', by rw [follow_cons_internal hr, ← hl]; rfl⟩
    exact exec_decode_of_underflow (s := (s.putBits [false]).responded 1) htv (hn0 (by omega)) hb1 hr
      (by rw [h.bitSequence_one]; exact hx)
  case emptyBuffer =>
    exact ⟨_, exec_encode_of_empty h0, rfl, rfl, exec_decode_of_mismatch htv fun hi => hn0 hk (hi.2 rfl)⟩
  case emptyTableOne =>
    exact ⟨_, exec_encode_of_one h1, rfl, h.bitSequence_one 1,
      exec_decode_of_mismatch htv fun hi => hb1 (hi.1 (hn.2 he))⟩
  case emptyTableMore =>
    exact h.encode_of_absent hcv h2 (k := 0) (by omega) (by simp [he])

end Sys2Proof.Machine
end

section
/-! PROOFS. The sessions of 47_properties.md R191 and R192: loading a table, filling SRC, compressing, and what the
state holds then (`State.HoldsContainer`); DECODE in such a state restores the bytes (R193), also on another block to
which only the table, the bit count and the packed bytes were carried (R197). -/

namespace Sys2Proof.Machine

/-! ### Sessions that complete (30_encoding.md R60) -/

/-- The commands, one after the other, lead from s to t, and each answers OK. -/
def Completes (is : List Instr) (s t : State) : Prop :=
  ∃ rs, session (wordsOf is) s = .next (t, rs) ∧ ∀ r ∈ rs, r.status = .ok

/-- Sessions keep the invariant. -/
theorem session_inv {ws : List Word64} {s t : State} {rs : List Response} (h : s.Inv)
    (hs : session ws s = .next (t, rs)) : t.Inv := by
  induction ws generalizing s rs with
  | nil => cases hs; exact h
  | cons w ws ih =>
    obtain ⟨u, rs', hu, hws, -⟩ := session_cons_cases hs
    exact ih (submit_inv h hu) hws

section
variable {is js : List Instr} {s t u : State}

theorem Completes.inv (h : Completes is s t) (hs : s.Inv) : t.Inv := by
  obtain ⟨rs, hrs, -⟩ := h
  exact session_inv hs hrs

theorem Completes.nil (s : State) : Completes [] s s := ⟨[], rfl, nofun⟩

theorem Completes.cons {i : Instr} {d : Word64} (hwf : i.wf = true) (hx : exec i s = .next t)
    (hok : t.rsp = some ⟨.ok, d⟩) (h : Completes is t u) : Completes (i :: is) s u := by
  obtain ⟨rs, hrs, hall⟩ := h
  refine ⟨_, session_wordsOf_cons hwf hx hrs, ?_⟩
  rw [hok]
  exact List.forall_mem_cons.2 ⟨rfl, hall⟩

theorem Completes.single {i : Instr} {d : Word64} (hwf : i.wf = true) (hx : exec i s = .next t)
    (hok : t.rsp = some ⟨.ok, d⟩) : Completes [i] s t :=
  .cons hwf hx hok (.nil t)

theorem Completes.append (h : Completes is s t) (h' : Completes js t u) : Completes (is ++ js) s u := by
  obtain ⟨rs, hrs, hall⟩ := h
  obtain ⟨rs', hrs', hall'⟩ := h'
  refine ⟨rs ++ rs', ?_, List.forall_mem_append.2 ⟨hall, hall'⟩⟩
  rw [wordsOf, List.map_append]
  exact session_append hrs hrs'

end

/-! ### The table of a byte list (R190, R191) -/

section
variable {bytes : List Byte}

theorem read_frequencyTableOf (bytes : List Byte) (x : Byte) :
    (frequencyTableOf bytes).read x.toNat = BitVec.ofNat 32 (bytes.count x) := by
  have hx := x.isLt
  have hlt : x.toNat < (allSymbols.map fun s => BitVec.ofNat 32 (bytes.count s)).length := by simpa using hx
  rw [frequencyTableOf, Memory.read_writeBlock, if_pos ⟨Nat.zero_le _, by omega⟩, Nat.sub_zero,
    List.getD_eq_getElem _ _ hlt]
  simp [allSymbols]

variable (hlen : bytes.length < 2 ^ 32)
include hlen

theorem toNat_read_frequencyTableOf (x : Byte) : ((frequencyTableOf bytes).read x.toNat).toNat = bytes.count x := by
  rw [read_frequencyTableOf]
  exact Nat.mod_eq_of_lt (List.count_le_length.trans_lt hlen)

/-- The keys of the table of a byte list are its bytes. -/
theorem mem_presentSymbols_frequencyTableOf {x : Byte} :
    x ∈ presentSymbols (frequencyTableOf bytes) ↔ x ∈ bytes := by
  rw [mem_presentSymbols, ← List.count_pos_iff, ← toNat_read_frequencyTableOf hlen, Nat.pos_iff_ne_zero, not_iff_not,
    ← BitVec.toNat_inj]
  rfl

/-- The counts of a byte list add up to its length. -/
theorem sum_frequencyTableOf :
    (allSymbols.map fun x => ((frequencyTableOf bytes).read x.toNat).toNat).sum = bytes.length := by
  have hnodup : allSymbols.Nodup := allSymbols_sorted.imp fun hlt e => by subst e; omega
  simp only [toNat_read_frequencyTableOf hlen]
  rw [← List.sum_toFinset _ hnodup, ← Multiset.coe_card, ← Multiset.sum_count_eq_card (s := allSymbols.toFinset)]
  · simp
  · simp [mem_allSymbols]

end

/-- FSET of each key: the keys have their counts, every other entry is as before. -/
theorem completes_loadTable (keys bytes : List Byte) {s : State} (htv : s.tv = false) (hcv : s.cv = false) :
    ∃ t, Completes (loadTable keys bytes) s t ∧ t = { s with freq := t.freq, rsp := t.rsp } ∧
      ∀ x : Byte, t.freq.read x.toNat = if x ∈ keys then BitVec.ofNat 32 (bytes.count x) else s.freq.read x.toNat := by
  induction keys generalizing s with
  | nil => exact ⟨s, .nil s, rfl, fun x => by simp⟩
  | cons k keys ih =>
    have hx : exec (.fset k (BitVec.ofNat 32 (bytes.count k))) s = .next (State.responded
        { s with freq := s.freq.write k.toNat (BitVec.ofNat 32 (bytes.count k)) } 0) :=
      exec_fset_eq_next.2 (by simp [State.responded, htv, hcv])
    obtain ⟨t, h, hframe, hread⟩ := ih (s := State.responded
      { s with freq := s.freq.write k.toNat (BitVec.ofNat 32 (bytes.count k)) } 0) htv hcv
    refine ⟨t, .cons rfl hx rfl h, hframe, fun x => ?_⟩
    rw [hread, State.responded_freq, Memory.read_write]
    by_cases hk : x = k <;> simp [hk, BitVec.toNat_inj]

/-- RESET and FSET of each key leave the table of the bytes and keep the memories (R191). -/
theorem completes_reset_loadTable {keys bytes : List Byte} {s : State} (h : s.Inv)
    (hkeys : ∀ x, x ∈ keys ↔ x ∈ bytes) : ∃ t, Completes ([.reset] ++ loadTable keys bytes) s t ∧
    t = { s.cleared with freq := frequencyTableOf bytes, rsp := t.rsp } := by
  obtain ⟨t, hload, hframe, hread⟩ := completes_loadTable keys bytes (s := s.cleared.responded 0) rfl rfl
  have hall := Completes.append (.single (i := .reset) (s := s) rfl rfl rfl) hload
  have hinv := hall.inv h
  have hfreq : t.freq = frequencyTableOf bytes := by
    refine Memory.ext_of_below hinv.freq_wf (Memory.wf_writeBlock Memory.wf_empty 0 _) hinv.freq_below
      (Memory.below_writeBlock (Memory.below_empty _) (by simp)) fun k hk => ?_
    obtain ⟨x, rfl⟩ : ∃ x : Byte, x.toNat = k := ⟨BitVec.ofNat 8 k, Nat.mod_eq_of_lt hk⟩
    rw [hread, read_frequencyTableOf]
    split
    next => rfl
    next hx => rw [List.count_eq_zero.2 (mt (hkeys x).2 hx)]; rfl
  exact ⟨t, hall, hfreq ▸ hframe⟩

/-! ### The source bytes (R141) -/

/-- The state after an SPUT that fits. -/
def State.put (s : State) (x : Byte) : State :=
  State.responded { s with src := s.src.write s.srclen.toNat x, srclen := s.srclen + 1 } ((s.srclen + 1).setWidth 64)

theorem State.toNat_put_srclen {s : State} (x : Byte) (h : s.srclen.toNat < s.cfg.srccap.toNat) :
    (s.put x).srclen.toNat = s.srclen.toNat + 1 :=
  Nat.mod_eq_of_lt (Nat.lt_of_le_of_lt h s.cfg.srccap.isLt)

theorem State.sourceBytes_put {s : State} (x : Byte) (h : s.srclen.toNat < s.cfg.srccap.toNat) :
    (s.put x).sourceBytes = s.sourceBytes ++ [x] := by
  have hlast : (s.put x).src.readBlock (0 + s.srclen.toNat) 1 = [x] := by
    simp [State.put, Memory.readBlock]
  rw [State.sourceBytes, State.toNat_put_srclen x h, Memory.readBlock_add, hlast]
  congr 1
  exact Memory.readBlock_congr fun k hk => Memory.read_write_other _ _ (by omega)

/-- SPUT of each byte appends the bytes and changes nothing but SRC, SRCLEN and the response. -/
theorem completes_sputs {bytes : List Byte} {s : State} (hfit : s.srclen.toNat + bytes.length ≤ s.cfg.srccap.toNat) :
    ∃ t, Completes (bytes.map .sput) s t ∧ t = { s with src := t.src, srclen := t.srclen, rsp := t.rsp } ∧
      t.sourceBytes = s.sourceBytes ++ bytes := by
  induction bytes generalizing s with
  | nil => exact ⟨s, .nil s, rfl, by simp⟩
  | cons x bytes ih =>
    rw [List.length_cons] at hfit
    have hlt : s.srclen.toNat < s.cfg.srccap.toNat := by omega
    have hlen := State.toNat_put_srclen x hlt
    have hcap : (s.put x).cfg = s.cfg := rfl
    obtain ⟨t, h, hframe, hseq⟩ := ih (s := s.put x) (by rw [hlen, hcap]; omega)
    refine ⟨t, .cons rfl (exec_sput_of_lt x hlt) rfl h, hframe, ?_⟩
    rw [hseq, State.sourceBytes_put x hlt, List.append_assoc, List.singleton_append]

/-! ### The container (R190, R191) -/

/-- The table of a valid tree is that of its counts. -/
theorem State.Inv.deriveTable_eq_codeTableOf {s : State} (h : s.Inv) (htv : s.tv = true) :
    deriveTable s.node s.nnodes.toNat s.root.toNat = codeTableOf s.freq := by
  obtain ⟨hn, hr, -⟩ := h.tree htv
  have hnode (k : Nat) (hk : k < s.nnodes.toNat) :
      s.node.read k = (Memory.empty.writeBlock 0 (buildTree s.freq).1).read k := by
    rw [h.read_node htv hk, read_recordsOf, Memory.read_writeBlock, if_pos (by omega), Nat.sub_zero]
  have hsame : s.SameObservable { s with node := Memory.empty.writeBlock 0 (buildTree s.freq).1 } :=
    { State.SameObservable.refl s with node := fun _ => hnode }
  rw [hsame.deriveTable_eq h htv, hn, hr, codeTableOf]

/-- The bit sequence of a byte list under its own table. -/
def encodedBits (bytes : List Byte) : List Bool :=
  match codeTableOf (frequencyTableOf bytes) with
  | none => []
  | some code => encodeBytes code bytes

@[simp] theorem length_encodedBits (bytes : List Byte) : (encodedBits bytes).length = encodedLength bytes := by
  rw [encodedBits, encodedLength]
  cases codeTableOf (frequencyTableOf bytes) with
  | none => rfl
  | some code => exact length_encodeBytes code bytes

/-- The state holds the container of a byte list: the tree of its table and its bit sequence. -/
structure State.HoldsContainer (s : State) (bytes : List Byte) : Prop where
  inv : s.Inv
  tv : s.tv = true
  freq : s.freq = frequencyTableOf bytes
  bits : s.bitSequence = encodedBits bytes

section
variable {s : State} {bytes : List Byte}

theorem State.HoldsContainer.bitlen (h : s.HoldsContainer bytes) : s.bitlen.toNat = encodedLength bytes := by
  rw [← State.length_bitSequence, h.bits, length_encodedBits]

variable (hlen : bytes.length < 2 ^ 32)
include hlen

/-- DECODE restores the bytes (R193). -/
theorem State.HoldsContainer.exec_decode (h : s.HoldsContainer bytes) (hfit : bytes.length ≤ s.cfg.dstcap.toNat) :
    exec .decode s = .next (s.committed bytes) := by
  obtain ⟨hinv, htv, hfreq, hbits⟩ := h
  obtain ⟨code, hc⟩ := hinv.deriveTable_completes htv
  have hcode : codeTableOf (frequencyTableOf bytes) = some code := by
    rw [← hfreq, ← hinv.deriveTable_eq_codeTableOf htv, hc]
  have hmem (x : Byte) : x ∈ presentSymbols s.freq ↔ x ∈ bytes := hfreq ▸ mem_presentSymbols_frequencyTableOf hlen
  refine hinv.exec_decode_of_codes htv hc (fun x => (hmem x).2) (by rw [hbits, encodedBits, hcode]) (fun e => ?_) hfit
  exact List.eq_nil_iff_forall_not_mem.2 fun x hx => by simpa [e] using (hmem x).1 hx

/-- The weight of the root is the number of bytes (R193). -/
theorem State.HoldsContainer.root_weight (h : s.HoldsContainer bytes) (hne : 1 ≤ bytes.length) :
    (s.node.read s.root.toNat).weight.toNat = bytes.length := by
  obtain ⟨hinv, htv, hfreq, -⟩ := h
  obtain ⟨x, hx⟩ := List.exists_mem_of_length_pos hne
  have hkeys : presentSymbols s.freq ≠ [] :=
    List.ne_nil_of_mem (a := x) (hfreq ▸ (mem_presentSymbols_frequencyTableOf hlen).2 hx)
  rw [hinv.root_weight htv hkeys, hfreq, sum_frequencyTableOf hlen]

end

/-! ### Compression (R191) -/

/-- The bit sequence of a byte list in a state with its table: the codes of its bytes. -/
theorem State.Inv.encodedBits_eq {s : State} (h : s.Inv) (hcv : s.cv = true) {bytes : List Byte}
    (hfreq : s.freq = frequencyTableOf bytes) : encodedBits bytes = encodeBytes s.code bytes := by
  rw [encodedBits, ← hfreq, ← h.deriveTable_eq_codeTableOf (h.cv_tv hcv), h.codes hcv]

/-- ENCODE with the table of the buffer concatenates the codes, for a buffer of no byte or of one too (R156). -/
theorem State.Inv.exec_encode_of_own_table {s : State} (h : s.Inv) (hcv : s.cv = true)
    (hmem : ∀ x, x ∈ presentSymbols s.freq ↔ x ∈ s.sourceBytes)
    (hfit : totalLength s.code s.sourceBytes ≤ s.cfg.bitcap.toNat) : exec .encode s = .next s.encoded := by
  have hlen := s.length_sourceBytes.symm
  have htv := h.cv_tv hcv
  match hb : s.sourceBytes with
  | [] =>
    rw [hb] at hlen
    rw [exec_encode_of_empty (BitVec.eq_of_toNat_eq hlen), State.encoded, hb]
    rfl
  | [x] =>
    rw [hb] at hlen hmem
    have hx : presentSymbols s.freq = [x] :=
      List.perm_singleton.1 ((List.perm_ext_iff_of_nodup (presentSymbols_nodup _) (List.nodup_singleton x)).2 hmem)
    rw [exec_encode_of_one (BitVec.eq_of_toNat_eq hlen), State.encoded, hb,
      h.encodeBytes_singleton htv (h.codes hcv) hx]
    rfl
  | x :: y :: xs =>
    have h2 : 2 ≤ s.srclen.toNat := by simp [hlen, hb]
    exact exec_encode_of_fit h2 hcv ((firstUnknown_eq_none _).2 fun z hz =>
      (h.code_len_ne_zero_iff htv (h.codes hcv)).2 ((hmem z).2 hz)) hfit

/-- BUILD and DERIVE leave the tree and the code table of the counts and keep everything else. -/
theorem completes_build_derive {s : State} (h : s.Inv) :
    ∃ t, Completes [.build, .derive] s t ∧ t = { s with
      node := t.node, nnodes := t.nnodes, root := t.root, code := t.code, tv := true, cv := true, rsp := t.rsp } := by
  have hbuilt : s.built.Inv := exec_inv h (exec_build s)
  obtain ⟨code, hc⟩ := hbuilt.deriveTable_completes rfl
  exact ⟨_, .cons rfl (exec_build s) rfl (.single rfl (exec_derive_of_some rfl hc) rfl), rfl⟩

/-- The commands before ENCODE leave the code table of the bytes and the bytes in SRC. -/
theorem completes_prepare {keys bytes : List Byte} {s : State} (h : s.Inv) (hkeys : ∀ x, x ∈ keys ↔ x ∈ bytes)
    (hsrc : bytes.length ≤ s.cfg.srccap.toNat) :
    ∃ t, Completes ([.reset] ++ loadTable keys bytes ++ [.build, .derive] ++ bytes.map .sput) s t ∧ t.cv = true ∧
      t.freq = frequencyTableOf bytes ∧ t.sourceBytes = bytes ∧ t.cfg = s.cfg := by
  obtain ⟨a, hload, ha⟩ := completes_reset_loadTable h hkeys
  obtain ⟨b, hderive, hb⟩ := completes_build_derive (hload.inv h)
  have hfreq : b.freq = frequencyTableOf bytes := by rw [hb, ha]
  have hcfg : b.cfg = s.cfg := by rw [hb, ha]; rfl
  have hlen : b.srclen.toNat = 0 := by rw [hb, ha]; rfl
  have hempty : b.sourceBytes = [] := List.eq_nil_of_length_eq_zero (b.length_sourceBytes.trans hlen)
  obtain ⟨t, hput, ht, hseq⟩ := completes_sputs (bytes := bytes) (s := b) (by rwa [hlen, hcfg, Nat.zero_add])
  refine ⟨t, (hload.append hderive).append hput, ?_, ?_, by rw [hseq, hempty, List.nil_append], ?_⟩
  · rw [ht, hb]
  · rw [ht, hfreq]
  · rw [ht, hcfg]

/-- The commands of R191 lead to a state that holds the container. -/
theorem completes_compress {keys bytes : List Byte} {s : State} (h : s.Inv) (hkeys : ∀ x, x ∈ keys ↔ x ∈ bytes)
    (hsrc : bytes.length ≤ s.cfg.srccap.toNat) (hbits : encodedLength bytes ≤ s.cfg.bitcap.toNat) :
    ∃ t, Completes (compressCommands keys bytes) s t ∧ t.HoldsContainer bytes ∧ t.cfg = s.cfg := by
  obtain ⟨t, hprep, hcv, hfreq, hseq, hcfg⟩ := completes_prepare h hkeys hsrc
  have hinv := hprep.inv h
  have henc := hinv.encodedBits_eq hcv hfreq
  have hlen : bytes.length < 2 ^ 32 := hsrc.trans_lt s.cfg.srccap.isLt
  have hmem (x : Byte) : x ∈ presentSymbols t.freq ↔ x ∈ t.sourceBytes := by
    rw [hfreq, hseq, mem_presentSymbols_frequencyTableOf hlen]
  have hfit : (encodeBytes t.code t.sourceBytes).length ≤ t.cfg.bitcap.toNat := by
    rwa [hseq, ← henc, length_encodedBits, hcfg]
  have hx := hinv.exec_encode_of_own_table hcv hmem (length_encodeBytes _ _ ▸ hfit)
  refine ⟨t.encoded, hprep.append (.single rfl hx rfl), ⟨exec_inv hinv hx, hinv.cv_tv hcv, hfreq, ?_⟩, hcfg⟩
  rw [henc, ← hseq]
  exact t.bitSequence_putBits hfit

/-- Settles O53: the commands before DECODE leave the container of the bytes, which DECODE restores. -/
theorem compressThenDecodeRestoresTheInput : Obligations.CompressThenDecodeRestoresTheInput := by
  intro s bytes keys h _ hkeys hsrc hdst hbits
  obtain ⟨t, hcompress, ht, hcfg⟩ := completes_compress h hkeys hsrc hbits
  have hlen : bytes.length < 2 ^ 32 := hsrc.trans_lt s.cfg.srccap.isLt
  rw [← hcfg] at hdst
  obtain ⟨rs, hrs, hok⟩ := hcompress.append (.single rfl (ht.exec_decode hlen hdst) rfl)
  exact ⟨_, rs, hrs, hok, State.toNat_committed_dstlen hdst, State.destBytes_committed hdst, (ht.root_weight hlen :)⟩

/-! ### Another block (R192, R197) -/

/-- The commands of R192, with the packed bytes of a state that holds the container, restore the bytes on any block that
fits. -/
theorem completes_decompress {keys bytes : List Byte} {s t : State} (h : s.Inv) (ht : t.HoldsContainer bytes)
    (hkeys : ∀ x, x ∈ keys ↔ x ∈ bytes) (hbits : encodedLength bytes ≤ s.cfg.bitcap.toNat)
    (hdst : bytes.length ≤ s.cfg.dstcap.toNat) :
    ∃ u : State, Completes (decompressCommands keys bytes t.bitlen.toNat t.packedBytes) s (u.committed bytes) ∧
      u.cfg = s.cfg := by
  obtain ⟨a, hload, ha⟩ := completes_reset_loadTable h hkeys
  have hcfg : a.cfg = s.cfg := by rw [ha]; rfl
  have hempty : a.bitlen = 0 := by rw [ha]; rfl
  obtain ⟨b, rs, hrs, hok, hseq, hb⟩ := session_loadBits t hempty (by rwa [ht.bitlen, hcfg])
  have hloaded := hload.append ⟨rs, hrs, hok⟩
  have hcfg' : b.cfg = s.cfg := by rw [hb, hcfg]
  have hfreq : b.built.freq = frequencyTableOf bytes := by rw [State.built, hb, ha]
  have hbuilt : b.built.HoldsContainer bytes :=
    ⟨exec_inv (hloaded.inv h) (exec_build b), rfl, hfreq, hseq.trans ht.bits⟩
  have hlen : bytes.length < 2 ^ 32 := hdst.trans_lt s.cfg.dstcap.isLt
  have hx := hbuilt.exec_decode hlen (by rwa [← hcfg'] at hdst)
  exact ⟨b.built, hloaded.append (.cons rfl (exec_build b) rfl (.single rfl hx rfl)), hcfg'⟩

/-- Reading DSTLEN and every byte of DST shows them and changes nothing. -/
theorem session_unloadBytes (s : State) :
    ∃ r, session (wordsOf (unloadBytes s.dstlen.toNat)) s =
      .next ({ s with rsp := r }, ⟨.ok, s.dstlen.setWidth 64⟩ :: s.destBytes.map fun x => ⟨.ok, x.setWidth 64⟩) := by
  have hreads : List.Forall₂ s.Shows (unloadBytes s.dstlen.toNat)
      (s.dstlen.setWidth 64 :: s.destBytes.map (·.setWidth 64)) := by
    refine .cons ⟨rfl, rfl⟩ ?_
    rw [State.destBytes, Memory.readBlock, List.map_map, List.forall₂_map_left_iff, List.forall₂_map_right_iff,
      List.forall₂_same]
    intro k hk
    have hlt := List.mem_range.1 hk
    have hmod : (BitVec.ofNat 32 k).toNat = k := Nat.mod_eq_of_lt (hlt.trans s.dstlen.isLt)
    have hx := exec_drd_of_lt (s := s) (k := BitVec.ofNat 32 k) (by rwa [hmod])
    exact ⟨rfl, by simpa [hmod] using hx⟩
  obtain ⟨r, hr⟩ := session_of_reads hreads s.rsp
  rw [List.map_cons, List.map_map] at hr
  exact ⟨r, hr⟩

/-- Settles O54: the reads show BITLEN and the packed bytes, whose load on the other block gives the same sequence;
BUILD there makes the same tree, and DECODE restores the bytes, which the last reads show. -/
theorem containersDecodeOnAnotherBlock : Obligations.ContainersDecodeOnAnotherBlock := by
  intro s s' bytes keys keys' h h' _ hkeys _ hkeys' hsrc hbits hbits' hdst
  obtain ⟨t, ⟨rs, hrs, hok⟩, ht, -⟩ := completes_compress h hkeys hsrc hbits
  obtain ⟨r, hunload⟩ := session_unloadBits t
  obtain ⟨u, ⟨vs, hvs, hvok⟩, hcfg⟩ := completes_decompress h' ht hkeys' hbits' hdst
  rw [← hcfg] at hdst
  obtain ⟨r', hread⟩ := session_unloadBytes (u.committed bytes)
  rw [State.toNat_committed_dstlen hdst, State.destBytes_committed hdst] at hread
  refine ⟨t, rs, hrs, hok, _, _, hunload, ?unloadOk, ?unloadLength, u.committed bytes, vs, ?reload, hvok,
    State.toNat_committed_dstlen hdst, State.destBytes_committed hdst, _, _, hread, ?readOk, rfl, ?readData⟩
  case unloadOk => simp
  case unloadLength => simp [State.packedBytes, Nat.add_comm]
  case reload =>
    have hbytes : (t.packedBytes.map fun x => (⟨.ok, x.setWidth 64⟩ : Response)).map (·.data.setWidth 8) =
        t.packedBytes := by
      simp [Function.comp_def]
    rwa [List.tail_cons, hbytes]
  case readOk => simp
  case readData =>
    have hnum : (u.committed bytes).dstlen.setWidth 64 = BitVec.ofNat 64 bytes.length := by
      rw [← State.toNat_committed_dstlen hdst, BitVec.ofNat_toNat]
    rw [List.map_cons, List.map_map, hnum]
    rfl

end Sys2Proof.Machine
end

section
/-! PROOFS. Command words once more: encoder and decoder are inverse to each other, a row's printed match and mask
select its words (30_encoding.md R62), and the words that the spec writes out. -/

namespace Sys2Proof

/-- The printed mask of a row compares the opcode and every field that the row does not use. -/
theorem Row.mask_eq : ∀ r ∈ opcodeMap, r.mask = commandWord 0xFF (if r.usesA then 0 else 0xFF)
    (if r.usesB then 0 else 0xFFFF) (if r.usesD then 0 else 0xFFFFFFFF) := by decide

/-- The printed match of a row has its opcode and 0 everywhere else. -/
theorem Row.pattern_eq : ∀ r ∈ opcodeMap, r.pattern = commandWord r.op 0 0 0 := by decide

/-- Under its part of the mask a field is 0 when the field is in use or is 0. -/
theorem and_fieldMask_eq_zero {n : Nat} (x : BitVec n) (used : Bool) :
    x &&& (if used then 0 else BitVec.allOnes n) = 0 ↔ (used = false → x = 0) := by
  cases used <;> simp

/-- A row's match under its mask: the row's opcode, and 0 in each field that is reserved for it (30_encoding.md R62,
R64). -/
theorem Row.matches_iff {r : Row} (hr : r ∈ opcodeMap) {w : Word64} :
    w &&& r.mask = r.pattern ↔ opField w = r.op ∧ r.reservedSet w = false := by
  calc w &&& r.mask = r.pattern
      ↔ commandWord (opField w) (aField w) (bField w) (dField w) &&& commandWord (BitVec.allOnes 8)
          (if r.usesA then 0 else BitVec.allOnes 8) (if r.usesB then 0 else BitVec.allOnes 16)
          (if r.usesD then 0 else BitVec.allOnes 32) = commandWord r.op 0 0 0 := by
        rw [commandWord_fields, r.mask_eq hr, r.pattern_eq hr]; rfl
    _ ↔ _ := by
        rw [commandWord_and, commandWord_inj, BitVec.and_allOnes, and_fieldMask_eq_zero, and_fieldMask_eq_zero,
          and_fieldMask_eq_zero, Row.reservedSet_eq_false]

/-- Settles O1, by the row of each command (`decode_encode`). -/
theorem decodeInvertsEncode : Obligations.DecodeInvertsEncode := fun _ => decode_encode

/-- Settles O2: a decoded word is made of its row's opcode and the operands (`encode_of_decode`). -/
theorem encodeInvertsDecode : Obligations.EncodeInvertsDecode := fun _ _ => encode_of_decode

/-- Settles O3: the match under the mask is what the decoder tests, the opcode and the reserved fields. -/
theorem commandsAreSelectedByMatchAndMask : Obligations.CommandsAreSelectedByMatchAndMask := by
  refine ⟨fun w r hr hm hwf => ?selected, fun w i hi => ?selects⟩
  case selected =>
    obtain ⟨hop, hres⟩ := (Row.matches_iff hr).1 hm
    exact decode_of_row (hop ▸ rowOf_of_mem hr) hres hwf
  case selects =>
    obtain ⟨r, hrow, hres, hi, hwf⟩ := decode_ok_cases hi
    obtain ⟨hr, hop⟩ := rowOf_some hrow
    exact ⟨r, hr, (Row.matches_iff hr).2 ⟨hop.symm, hres⟩, hi, hwf⟩

/-- Settles O6: six words are the words of commands; of the other three the row is there but a reserved field is set, an
operand is over its limit, or there is no row. -/
theorem wordsWrittenOutInTheSpecDecode : Obligations.WordsWrittenOutInTheSpecDecode := by
  have hbuild : opcodeMap[6] ∈ opcodeMap := List.getElem_mem _
  have hrdreg : opcodeMap[2] ∈ opcodeMap := List.getElem_mem _
  refine ⟨decode_encode (i := .fset 0x41 3) rfl, decode_encode (i := .nrd 3) rfl, decode_encode (i := .bapp 5 0x1A) rfl,
    decode_encode (i := .cval 0x01 1) rfl, decode_encode (i := .rdreg 11) rfl, decode_encode (i := .decode) rfl,
    decode_of_reservedField (rowOf_of_mem hbuild) rfl, decode_of_operandLimit (rowOf_of_mem hrdreg) rfl rfl,
    decode_of_unknownOpcode rfl⟩

end Sys2Proof
end

section
/-! PROOFS. The step and the whole machine: what a step does with each input (30_encoding.md R60), that it keeps the
invariant and always answers, sessions (70_reset_and_hazards.md R253), the reset states and the resetting commands. -/

namespace Sys2Proof.Machine

/-! ### The step (30_encoding.md R60) -/

/-- A step on a command word submits it to the state without that input. -/
theorem step_of_command {s : State} {w : Word64} {rest : List HostInput} (h : s.inputs = .command w :: rest) :
    step s = submit w { s with inputs := rest } := by
  have hs : s = State.present { s with inputs := rest } (.command w) := by simp [State.present, ← h]
  exact congrArg step hs

/-- With nothing presented a step leaves the state as it is. -/
theorem step_of_no_input {s : State} (h : s.inputs = []) : step s = .next s := by
  simp [step, s.takeInput_nil h]

/-- Settles O7: the step submits the word (`step_of_command`), which executes what it decodes to. -/
theorem stepRunsTheDecodedCommand : Obligations.StepRunsTheDecodedCommand :=
  fun _ _ _ _ hin hi => (step_of_command hin).trans (submit_of_decode hi _)

/-- Settles O8, by `step_of_no_input`. -/
theorem stepIdlesWithoutInput : Obligations.StepIdlesWithoutInput := fun _ => step_of_no_input

/-! ### The invariant along steps and sessions -/

/-- The invariant does not speak of the inputs that are still to come. -/
theorem State.Inv.withInputs {s : State} (h : s.Inv) (inputs : List HostInput) :
    State.Inv { s with inputs := inputs } :=
  { h with }

theorem State.Inv.hardReset {s : State} (h : s.Inv) : s.hardReset.Inv := { h.cleared with }

/-- Settles O49: an idle step keeps the state, hardware reset clears it, and an accepted word keeps the invariant. -/
theorem everyStepKeepsTheInvariant : Obligations.EveryStepKeepsTheInvariant := by
  intro s t h ht
  obtain ⟨-, rfl⟩ | ⟨rest, -, rfl⟩ | ⟨w, rest, -, hw⟩ := step_cases ht
  · exact h
  · exact (h.withInputs rest).hardReset
  · exact submit_inv (h.withInputs rest) hw

theorem step_next {s : State} (h : s.Inv) : ∃ t, step s = .next t := by
  cases hin : s.inputs with
  | nil => exact ⟨s, step_of_no_input hin⟩
  | cons x rest =>
    cases x with
    | hardReset => exact ⟨_, step_of_hardReset hin⟩
    | command w => exact step_of_command hin ▸ submit_next (h.withInputs rest) w

/-- An accepted word leaves one response, and keeps the configuration and the inputs. -/
theorem submit_responds {w : Word64} {s t : State} (h : submit w s = .next t) :
    (∃ r, t.rsp = some r) ∧ t.cfg = s.cfg ∧ t.inputs = s.inputs := by
  obtain ⟨e, -, rfl⟩ | ⟨i, -, hi⟩ := submit_cases h
  · exact ⟨⟨_, rfl⟩, rfl, rfl⟩
  · obtain ⟨f, info, rfl⟩ | ⟨u, d, rfl, -, hcfg, hinputs⟩ := exec_failed_or_ok hi
    · exact ⟨⟨_, rfl⟩, rfl, rfl⟩
    · exact ⟨⟨_, rfl⟩, hcfg, hinputs⟩

/-- A session answers one response for each word, by induction on the words. -/
theorem session_next {s : State} (h : s.Inv) (ws : List Word64) :
    ∃ t rs, session ws s = .next (t, rs) ∧ rs.length = ws.length ∧ t.cfg = s.cfg ∧ t.inputs = s.inputs := by
  induction ws generalizing s with
  | nil => exact ⟨s, [], rfl, rfl, rfl, rfl⟩
  | cons w ws ih =>
    obtain ⟨t, ht⟩ := submit_next h w
    obtain ⟨⟨r, hr⟩, hcfg, hinputs⟩ := submit_responds ht
    obtain ⟨u, rs, hu, hlen, hcfg', hinputs'⟩ := ih (submit_inv h ht)
    refine ⟨u, t.rsp.toList ++ rs, session_cons ht hu, ?_, hcfg'.trans hcfg, hinputs'.trans hinputs⟩
    simp [hr, hlen, Nat.add_comm]

/-- Settles O50: a step answers whatever is presented, a session answers word by word and keeps the invariant. -/
theorem everyCommandIsAnswered : Obligations.EveryCommandIsAnswered := by
  refine ⟨fun s => step_next, fun s ws h => ?_⟩
  obtain ⟨t, rs, hs, hlen, hcfg, hinputs⟩ := session_next h ws
  exact ⟨t, rs, hs, hlen, session_inv h hs, hcfg, hinputs⟩

/-! ### Reset states (10_state.md R38) -/

/-- Every register is 0, every memory is empty and no tree is valid. -/
theorem State.resetWith_inv {c : Config} (hc : c.wf) : (State.resetWith c).Inv where
  cfg_wf := hc
  srclen_le := Nat.zero_le _
  bitlen_le := Nat.zero_le _
  dstlen_le := Nat.zero_le _
  nnodes_le := Nat.zero_le _
  root_lt := Nat.zero_lt_succ _
  freq_wf := Memory.wf_empty
  freq_below := Memory.below_empty _
  node_wf := Memory.wf_empty
  node_below := Memory.below_empty _
  code_wf := Memory.wf_empty
  code_below := Memory.below_empty _
  src_wf := Memory.wf_empty
  src_below := Memory.below_empty _
  bits_wf := Memory.wf_empty
  bits_below := Memory.below_empty _
  dst_wf := Memory.wf_empty
  dst_below := Memory.below_empty _
  errflags_zero := by simp
  cv_tv := nofun
  tree := nofun
  codes := nofun

theorem Config.default_wf : Config.default.wf := by decide

/-- Settles O48: State.reset is the reset state of the default configuration. -/
theorem resetStatesHaveTheInvariant : Obligations.ResetStatesHaveTheInvariant :=
  ⟨State.resetWith_inv Config.default_wf, fun _ => State.resetWith_inv⟩

/-! ### RESET, SCLR, BCLR -/

/-- Settles O21: RESET makes FREQ the empty memory, which reads as 0 everywhere; its row uses no field. -/
theorem resetCommandClearsRegistersFlagsAndTable : Obligations.ResetCommandClearsRegistersFlagsAndTable := by
  have hrow : opcodeMap[1] ∈ opcodeMap := List.getElem_mem _
  exact ⟨decode_encode (i := .reset) rfl, fun s => ⟨_, rfl, rfl, fun x => Memory.read_empty x.toNat⟩,
    fun s a b d h => submit_of_reserved_set hrow (h.imp (.intro rfl) (.imp (.intro rfl) (.intro rfl))) s⟩

/-- Settles O37: each writes its length and the response; their rows use no field. -/
theorem sclrAndBclrEmptyTheirBuffers : Obligations.SclrAndBclrEmptyTheirBuffers := by
  have hsclr : opcodeMap[11] ∈ opcodeMap := List.getElem_mem _
  have hbclr : opcodeMap[14] ∈ opcodeMap := List.getElem_mem _
  refine ⟨decode_encode (i := .sclr) rfl, decode_encode (i := .bclr) rfl, fun s => ⟨rfl, rfl⟩, fun s a b d h => ?_⟩
  exact ⟨submit_of_reserved_set hsclr (h.imp (.intro rfl) (.imp (.intro rfl) (.intro rfl))) s,
    submit_of_reserved_set hbclr (h.imp (.intro rfl) (.imp (.intro rfl) (.intro rfl))) s⟩

end Sys2Proof.Machine
end

section
/-! PROOFS. What each command can do to the state, said once as a relation: the causes of failure (`State.Fails`), and
what a command that completes may write (`State.Effect`). From them: which failures exactly occur (60_exceptions.md
R212, R213, R216), what a failure leaves (R219, R220), and the columns "written by" of 10_state.md. -/

namespace Sys2Proof.Machine

/-! ### The causes of failure (60_exceptions.md R211 to R214, R217) -/

/-- The symbols that DECODE finds, past its checks and before the comparison with DSTCAP: those of a single leaf
(46_decoder.md R174) or of a trial pass that ends at a restart (R175). -/
inductive State.Decodes (s : State) : List Byte → Prop
  | leaf (htv : s.tv = true) (hn : s.nnodes ≠ 0) (hb : s.bitlen ≠ 0) {w : Weight} {x : Byte}
      (hr : s.node.read s.root.toNat = .leaf w x) : Decodes s (List.replicate s.bitlen.toNat x)
  | paths (htv : s.tv = true) (hn : s.nnodes ≠ 0) (hb : s.bitlen ≠ 0) {w : Weight} {l r : NodeIndex}
      (hr : s.node.read s.root.toNat = .internal w l r) {xs : List Byte}
      (hx : trialPass s.node (l, r) s.bitSequence none = .complete xs) : Decodes s xs

theorem State.Decodes.exec_decode {s : State} {xs : List Byte} (h : s.Decodes xs) :
    exec .decode s = commitSymbols xs s := by
  cases h with
  | leaf htv hn hb hr => exact execDecode_of_leaf htv hn hb hr
  | paths htv hn hb hr hx => exact execDecode_of_complete htv hn hb hr hx

/-- In state s the command fails with this status and data; one constructor for each `raise` of the spec. -/
inductive State.Fails (s : State) : Instr → Failure → Word64 → Prop
  | rdregLimit {r : BitVec 8} (h : 11 < r.toNat) : Fails s (.rdreg r) .illegalCmd 0
  | nrdNotReady {k : BitVec 16} (htv : s.tv = false) : Fails s (.nrd k) .notReady 0
  | nrdBadIndex {k : BitVec 16} (htv : s.tv = true) (h : s.nnodes.toNat ≤ k.toNat) : Fails s (.nrd k) .badIndex 0
  | deriveNotReady (htv : s.tv = false) : Fails s .derive .notReady 0
  | clenNotReady {x : Byte} (hcv : s.cv = false) : Fails s (.clen x) .notReady 0
  | cvalLimit {x : Byte} {q : BitVec 16} (h : 3 < q.toNat) : Fails s (.cval x q) .illegalCmd 0
  | cvalNotReady {x : Byte} {q : BitVec 16} (h : q.toNat ≤ 3) (hcv : s.cv = false) : Fails s (.cval x q) .notReady 0
  | sputCapacity {x : Byte} (h : s.srclen = s.cfg.srccap) : Fails s (.sput x) .capacity 0
  | sgetBadIndex {k : Length} (h : s.srclen.toNat ≤ k.toNat) : Fails s (.sget k) .badIndex 0
  | bappLimit {n : BitVec 8} {v : BitVec 32} (h : 32 < n.toNat) : Fails s (.bapp n v) .illegalCmd 0
  | bappCapacity {n : BitVec 8} {v : BitVec 32} (hn : n.toNat ≤ 32)
      (h : s.cfg.bitcap.toNat < s.bitlen.toNat + n.toNat) : Fails s (.bapp n v) .capacity 0
  | brdBadIndex {j : Length} (h : ceil8 s.bitlen.toNat ≤ j.toNat) : Fails s (.brd j) .badIndex 0
  | drdBadIndex {k : Length} (h : s.dstlen.toNat ≤ k.toNat) : Fails s (.drd k) .badIndex 0
  | encodeNotReady (h2 : 2 ≤ s.srclen.toNat) (hcv : s.cv = false) : Fails s .encode .notReady 0
  | encodeUnknown (h2 : 2 ≤ s.srclen.toNat) (hcv : s.cv = true) {k : Nat} {x : Byte}
      (h : firstUnknown s.code 0 s.sourceBytes = some (k, x)) : Fails s .encode .unknownSymbol (unknownSymbolInfo k x)
  | encodeCapacity (h2 : 2 ≤ s.srclen.toNat) (hcv : s.cv = true) (hf : firstUnknown s.code 0 s.sourceBytes = none)
      (h : s.cfg.bitcap.toNat < totalLength s.code s.sourceBytes) : Fails s .encode .capacity 0
  | decodeNotReady (htv : s.tv = false) : Fails s .decode .notReady 0
  | decodeMalformed (htv : s.tv = true) (h : ¬(s.nnodes = 0 ↔ s.bitlen = 0)) : Fails s .decode .malformedContainer 0
  | decodeUnderflow (htv : s.tv = true) (hn : s.nnodes ≠ 0) (hb : s.bitlen ≠ 0) {w : Weight} {l r : NodeIndex}
      (hr : s.node.read s.root.toNat = .internal w l r) {n : Nat}
      (h : trialPass s.node (l, r) s.bitSequence none = .underflow n) :
      Fails s .decode .decodeUnderflow (BitVec.ofNat 64 n)
  | decodeCapacity {xs : List Byte} (hx : s.Decodes xs) (h : s.cfg.dstcap.toNat < xs.length) :
      Fails s .decode .capacity 0

theorem exec_of_fails {s : State} {i : Instr} {f : Failure} {info : Word64} (h : s.Fails i f info) :
    exec i s = .next (s.failed f info) := by
  cases h with
  | rdregLimit h => exact exec_rdreg_of_none (statusRegister_eq_none.2 h)
  | nrdNotReady h | deriveNotReady h | clenNotReady h => exact if_pos (by simp [h])
  | cvalLimit h | bappLimit h | sgetBadIndex h | brdBadIndex h | drdBadIndex h | sputCapacity h => exact if_pos h
  | nrdBadIndex htv h => exact (if_neg (by simp [htv])).trans (if_pos h)
  | cvalNotReady h hcv => exact (if_neg (Nat.not_lt.2 h)).trans (if_pos (by simp [hcv]))
  | bappCapacity hn h => exact (if_neg (Nat.not_lt.2 hn)).trans (if_pos h)
  | encodeNotReady h2 hcv => exact exec_encode_of_not_cv h2 hcv
  | encodeUnknown h2 hcv h => exact exec_encode_of_unknown h2 hcv h
  | encodeCapacity h2 hcv hf h => exact exec_encode_of_too_long h2 hcv hf h
  | decodeNotReady htv => exact exec_decode_of_not_tv htv
  | decodeMalformed htv h => exact exec_decode_of_mismatch htv h
  | decodeUnderflow htv hn hb hr h => exact exec_decode_of_underflow htv hn hb hr h
  | decodeCapacity hx h => exact hx.exec_decode.trans (commitSymbols_of_lt h)

/-! ### What a command may write (10_state.md R16 to R20, R30) -/

/-- The commands that write nothing but their response when they complete. -/
def OnlyReads : Instr → Prop
  | .nop | .rdreg _ | .fget _ | .nrd _ | .clen _ | .cval _ _ | .sget _ | .brd _ | .drd _ => True
  | _ => False

/-- What the command may lead to from state s: a failure with its cause, or the completion with the pieces of state that
it writes. -/
inductive State.Effect (s : State) : Instr → State → Prop
  | failed {i : Instr} {f : Failure} {info : Word64} (h : s.Fails i f info) : Effect s i (s.failed f info)
  | read {i : Instr} (d : Word64) (hi : OnlyReads i) : Effect s i (s.responded d)
  | reset : Effect s .reset (s.cleared.responded 0)
  | fclr : Effect s .fclr (State.responded { s.invalidateTree with freq := Memory.empty } 0)
  | fset (x : Byte) (c : Count) :
      Effect s (.fset x c) (State.responded { s.invalidateTree with freq := s.freq.write x.toNat c } 0)
  | build : Effect s .build s.built
  | derive (htv : s.tv = true) (code : Memory CodeEntry) (d : Word64) :
      Effect s .derive (State.responded { s with code := code, cv := true } d)
  | sclr : Effect s .sclr (State.responded { s with srclen := 0 } 0)
  | sput (x : Byte) (src : Memory Byte) (n : Length) (d : Word64) :
      Effect s (.sput x) (State.responded { s with src := src, srclen := n } d)
  | bclr : Effect s .bclr (State.responded { s with bitlen := 0 } 0)
  | bapp (n : BitVec 8) (v : BitVec 32) : Effect s (.bapp n v) (s.appended n v)
  | encode (bs : List Bool) (d : Word64) : Effect s .encode ((s.putBits bs).responded d)
  | decode (dst : Memory Byte) (n : Length) (d : Word64) :
      Effect s .decode (State.responded { s with dst := dst, dstlen := n } d)

section
variable {s t : State} {i : Instr}

theorem execEncode_effect (h : execEncode s = .next t) : s.Effect .encode t := by
  obtain ⟨-, rfl⟩ | ⟨-, rfl⟩ | ⟨h2, hcv, rfl⟩ | ⟨h2, hcv, k, x, hf, rfl⟩ | ⟨h2, hcv, hf, hl, rfl⟩ |
    ⟨-, -, -, -, rfl⟩ := execEncode_cases h
  · exact .encode _ _
  · exact .encode _ _
  · exact .failed (.encodeNotReady h2 hcv)
  · exact .failed (.encodeUnknown h2 hcv hf)
  · exact .failed (.encodeCapacity h2 hcv hf hl)
  · exact .encode _ _

theorem State.Decodes.effect {xs : List Byte} (hx : s.Decodes xs) (h : commitSymbols xs s = .next t) :
    s.Effect .decode t := by
  obtain ⟨hlt, rfl⟩ | ⟨-, rfl⟩ := commitSymbols_cases h
  · exact .failed (.decodeCapacity hx hlt)
  · exact .decode _ _ _

theorem execDecode_effect (h : execDecode s = .next t) : s.Effect .decode t := by
  obtain ⟨htv, rfl⟩ | ⟨htv, hm, rfl⟩ | ⟨-, -, -, rfl⟩ | ⟨htv, hn, hb, w, x, hr, hc⟩ |
    ⟨htv, hn, hb, w, l, r, hr, ⟨n, hx, rfl⟩ | ⟨xs, hx, hc⟩⟩ := execDecode_cases h
  · exact .failed (.decodeNotReady htv)
  · exact .failed (.decodeMalformed htv hm)
  · exact .decode _ _ _
  · exact State.Decodes.effect (.leaf htv hn hb hr) hc
  · exact .failed (.decodeUnderflow htv hn hb hr hx)
  · exact State.Decodes.effect (.paths htv hn hb hr hx) hc

/-- Every next state of a command is one of its effects. -/
theorem exec_effect (h : exec i s = .next t) : s.Effect i t := by
  cases i with
  | nop | fget => exact ok_eq_next.1 h ▸ .read _ (by trivial)
  | reset => exact ok_eq_next.1 h ▸ .reset
  | fclr => exact ok_eq_next.1 h ▸ .fclr
  | fset x c => exact ok_eq_next.1 h ▸ .fset x c
  | build => exact ok_eq_next.1 h ▸ .build
  | sclr => exact ok_eq_next.1 h ▸ .sclr
  | bclr => exact ok_eq_next.1 h ▸ .bclr
  | rdreg =>
    obtain ⟨hr, rfl⟩ | ⟨v, -, rfl⟩ := execRdreg_cases h
    exacts [.failed (.rdregLimit (statusRegister_eq_none.1 hr)), .read v (by trivial)]
  | nrd =>
    obtain ⟨htv, rfl⟩ | ⟨htv, hk, rfl⟩ | ⟨-, -, rfl⟩ := execNrd_cases h
    exacts [.failed (.nrdNotReady htv), .failed (.nrdBadIndex htv hk), .read _ (by trivial)]
  | derive =>
    obtain ⟨htv, rfl⟩ | ⟨htv, code, -, rfl⟩ := execDerive_cases h
    exacts [.failed (.deriveNotReady htv), .derive htv code _]
  | clen =>
    obtain ⟨hcv, rfl⟩ | ⟨-, rfl⟩ := execClen_cases h
    exacts [.failed (.clenNotReady hcv), .read _ (by trivial)]
  | cval =>
    obtain ⟨hq, rfl⟩ | ⟨hq, hcv, rfl⟩ | ⟨-, -, rfl⟩ := execCval_cases h
    exacts [.failed (.cvalLimit hq), .failed (.cvalNotReady hq hcv), .read _ (by trivial)]
  | sput x =>
    obtain ⟨hfull, rfl⟩ | ⟨-, rfl⟩ := execSput_cases h
    exacts [.failed (.sputCapacity hfull), .sput x _ _ _]
  | sget =>
    obtain ⟨hk, rfl⟩ | ⟨-, rfl⟩ := execSget_cases h
    exacts [.failed (.sgetBadIndex hk), .read _ (by trivial)]
  | bapp n v =>
    obtain ⟨hn, rfl⟩ | ⟨hn, hlt, rfl⟩ | ⟨-, -, rfl⟩ := execBapp_cases h
    exacts [.failed (.bappLimit hn), .failed (.bappCapacity hn hlt), .bapp n v]
  | brd =>
    obtain ⟨hj, rfl⟩ | ⟨-, rfl⟩ := execBrd_cases h
    exacts [.failed (.brdBadIndex hj), .read _ (by trivial)]
  | drd =>
    obtain ⟨hk, rfl⟩ | ⟨-, rfl⟩ := execDrd_cases h
    exacts [.failed (.drdBadIndex hk), .read _ (by trivial)]
  | encode => exact execEncode_effect h
  | decode => exact execDecode_effect h

/-- A failure response comes from a cause of failure, and the state is that of the failure. -/
theorem fails_of_exec {f : Failure} {info : Word64} (h : exec i s = .next t)
    (hrsp : t.rsp = some ⟨.failed f, info⟩) : s.Fails i f info ∧ t = s.failed f info := by
  cases exec_effect h with
  | failed hf =>
    obtain ⟨rfl, rfl⟩ : _ = f ∧ _ = info := by simpa using hrsp
    exact ⟨hf, rfl⟩
  | build | bapp => simp [State.built, State.appended] at hrsp
  | _ => simp at hrsp

/-- The causes of failure are exactly those of `State.Fails`. -/
theorem exec_failed_iff {f : Failure} {info : Word64} : exec i s = .next (s.failed f info) ↔ s.Fails i f info :=
  ⟨fun h => (fails_of_exec h rfl).1, exec_of_fails⟩

end

/-- Settles O14: a failure response comes from a failure, which `exec_failed_again` repeats. -/
theorem retryingAFailedCommandFailsAgain : Obligations.RetryingAFailedCommandFailsAgain := by
  intro s t i f info h hrsp
  obtain ⟨-, rfl⟩ := fails_of_exec h hrsp
  exact exec_failed_again h

/-- Settles O16: a failure and a command that only reads write no memory, length or count; each other effect names what
it writes. -/
theorem stateIsWrittenOnlyByTheStatedCommands : Obligations.StateIsWrittenOnlyByTheStatedCommands := by
  intro s t i h
  cases exec_effect h with
  | build => simp [State.built]
  | bapp => simp [State.appended]
  | _ => simp

/-- Settles O17: no failing command writes TV or CV, DERIVE fails when TV = 0, and the commands that write them always
complete. -/
theorem validityFlagsAreWrittenOnlyAsStated : Obligations.ValidityFlagsAreWrittenOnlyAsStated := by
  intro s t i h
  cases exec_effect h with
  | failed hf => cases hf <;> simp [*]
  | read d hi => cases i <;> simp_all [OnlyReads]
  | derive htv => simp [htv]
  | build | bapp => simp [State.built, State.appended]
  | _ => simp

/-! ### NOT_READY and BAD_INDEX (60_exceptions.md R212, R213) -/

/-- Settles O18: the causes of NOT_READY in `State.Fails`; CVAL's operand limit comes first. -/
theorem notReadyExactlyWithoutTreeOrCodes : Obligations.NotReadyExactlyWithoutTreeOrCodes := by
  intro s i hwf
  rw [exec_failed_iff]
  constructor
  · intro h
    cases h with
    | nrdNotReady htv | deriveNotReady htv | decodeNotReady htv => simp [htv]
    | clenNotReady hcv | cvalNotReady _ hcv => simp [hcv]
    | encodeNotReady h2 hcv => simp [h2, hcv]
  · rintro (⟨htv, rfl | ⟨k, rfl⟩ | rfl⟩ | ⟨hcv, ⟨x, rfl⟩ | ⟨x, q, rfl⟩ | ⟨rfl, h2⟩⟩)
    · exact .deriveNotReady htv
    · exact .nrdNotReady htv
    · exact .decodeNotReady htv
    · exact .clenNotReady hcv
    · exact .cvalNotReady (of_decide_eq_true hwf) hcv
    · exact .encodeNotReady h2 hcv

/-- Settles O19: the causes of BAD_INDEX in `State.Fails`. -/
theorem badIndexExactlyOutOfRange : Obligations.BadIndexExactlyOutOfRange := by
  intro s i _
  rw [exec_failed_iff]
  constructor
  · intro h
    cases h with
    | nrdBadIndex htv hk => exact .inl ⟨_, rfl, htv, hk⟩
    | sgetBadIndex hk => exact .inr (.inl ⟨_, rfl, hk⟩)
    | brdBadIndex hj => exact .inr (.inr (.inl ⟨_, rfl, ceil8_eq _ ▸ hj⟩))
    | drdBadIndex hk => exact .inr (.inr (.inr ⟨_, rfl, hk⟩))
  · rintro (⟨k, rfl, htv, hk⟩ | ⟨k, rfl, hk⟩ | ⟨j, rfl, hj⟩ | ⟨k, rfl, hk⟩)
    · exact .nrdBadIndex htv hk
    · exact .sgetBadIndex hk
    · exact .brdBadIndex ((ceil8_eq _).symm ▸ hj)
    · exact .drdBadIndex hk

end Sys2Proof.Machine
end

section
/-! PROOFS. The failures word by word: what a failing word leaves and reports (60_exceptions.md R210, R219), the status
table (R216), the status codes, and the data-path commands in the reset state (70_reset_and_hazards.md R242). -/

namespace Sys2Proof.Machine

/-! ### The data of a failure (60_exceptions.md R210) -/

section
variable {s t : State} {f : Failure} {info : Word64}

/-- A word ends with a failure when it is no command, or when its command fails. -/
theorem fails_of_submit {w : Word64} (h : submit w s = .next t) (hrsp : t.rsp = some ⟨.failed f, info⟩) :
    t = s.failed f info ∧ (f = .illegalCmd ∧ info = 0 ∨ ∃ i, decode w = .ok i ∧ s.Fails i f info) := by
  obtain ⟨e, -, rfl⟩ | ⟨i, hi, he⟩ := submit_cases h
  · obtain ⟨rfl, rfl⟩ : _ = f ∧ _ = info := by simpa using hrsp
    exact ⟨rfl, .inl ⟨rfl, rfl⟩⟩
  · obtain ⟨hf, ht⟩ := fails_of_exec he hrsp
    exact ⟨ht, .inr ⟨i, hi, hf⟩⟩

/-- Two failures alone carry data. -/
theorem State.Fails.info_eq_zero {i : Instr} (h : s.Fails i f info) (hd : f ≠ .decodeUnderflow)
    (hu : f ≠ .unknownSymbol) : info = 0 := by
  cases h with
  | encodeUnknown => exact absurd rfl hu
  | decodeUnderflow => exact absurd rfl hd
  | _ => rfl

/-- UNKNOWN_SYMBOL reports the first source byte without a code, and its index (45_encoder.md R158). -/
theorem State.Fails.unknownSymbol_info {i : Instr} (h : s.Fails i .unknownSymbol info) :
    ∃ k, k < s.srclen.toNat ∧ (s.code.read (s.src.read k).toNat).len = 0 ∧
      (∀ j, j < k → (s.code.read (s.src.read j).toNat).len ≠ 0) ∧
      info.toNat = (s.src.read k).toNat * 2 ^ 32 + k := by
  cases h with
  | encodeUnknown _ _ hf =>
    obtain ⟨k, hk, hx, hlen, hbefore⟩ := firstUnknown_eq_some s.code hf
    obtain rfl := (hk.trans (Nat.zero_add k)).symm
    have hlt : k < s.srclen.toNat := by
      simpa [State.sourceBytes] using (List.getElem?_eq_some_iff.1 hx).1
    obtain rfl := Option.some.inj ((State.getElem?_sourceBytes hlt).symm.trans hx)
    exact ⟨k, hlt, hlen, fun j hj => hbefore j _ hj (State.getElem?_sourceBytes (hj.trans hlt)),
      toNat_unknownSymbolInfo (hlt.trans s.srclen.isLt) _⟩

/-- Below an Internal root every path has a bit, so there are no more paths than bits. -/
theorem length_le_length_paths {node : Memory NodeRec} {root : Nat} {w : Weight} {l r : NodeIndex}
    (hr : node.read root = .internal w l r) {ps : List (Byte × List Bool)}
    (hps : ∀ p ∈ ps, IsPathTo node root p.1 p.2) : ps.length ≤ (ps.map (·.2)).flatten.length := by
  have hone : ∀ n ∈ (ps.map (·.2)).map List.length, 1 ≤ n := by
    simp only [List.mem_map, forall_exists_index, and_imp, forall_apply_eq_imp_iff₂]
    intro p hp
    refine List.length_pos_iff.2 fun e => ?_
    exact not_isPathTo_nil_internal hr (e ▸ hps p hp)
  rw [List.length_flatten]
  simpa using List.length_le_sum_of_one_le _ hone

/-- DECODE_UNDERFLOW reports the number of whole paths before the unfinished descent (46_decoder.md R176). -/
theorem State.Fails.decodeUnderflow_info {i : Instr} (h : s.Fails i .decodeUnderflow info) :
    ∃ (ps : List (Byte × List Bool)) (q : List Bool),
      s.bitSequence = (ps.map (·.2)).flatten ++ q ∧ (∀ p ∈ ps, IsPathTo s.node s.root.toNat p.1 p.2) ∧
      q ≠ [] ∧ (∃ w l r, follow s.node s.root.toNat q = some (.internal w l r)) ∧ info.toNat = ps.length := by
  cases h with
  | decodeUnderflow _ _ _ hr hx =>
    obtain ⟨ps, q, hsplit, hps, rfl | ⟨hq, hend⟩⟩ := exists_splitsInto hr s.bitSequence
    · rw [hsplit, List.append_nil, trialPass_of_whole_paths hr hps] at hx
      cases hx
    · rw [hsplit, trialPass_of_unfinished_descent hr hps hq hend] at hx
      cases hx
      have hle : ps.length ≤ s.bitSequence.length := by
        rw [hsplit, List.length_append]
        exact (length_le_length_paths hr hps).trans (Nat.le_add_right _ _)
      have hlt := s.bitlen.isLt
      rw [State.length_bitSequence] at hle
      exact ⟨ps, q, hsplit, hps, hq, hend, Nat.mod_eq_of_lt (by omega)⟩

end

/-- Settles O10: `fails_of_submit` gives the state; the data is that of the cause of failure. -/
theorem failureEntryChangesOneErrorFlag : Obligations.FailureEntryChangesOneErrorFlag := by
  intro s t w f info h hrsp
  obtain ⟨ht, ⟨rfl, rfl⟩ | ⟨i, -, hf⟩⟩ := fails_of_submit h hrsp
  · exact ⟨ht, fun _ _ => rfl, nofun, nofun⟩
  · refine ⟨ht, hf.info_eq_zero, ?_, ?_⟩
    · rintro rfl
      exact hf.unknownSymbol_info
    · rintro rfl
      exact hf.decodeUnderflow_info

/-- Settles O11, status by status. -/
theorem statusCodesAreThoseOfTheTable : Obligations.StatusCodesAreThoseOfTheTable := by
  refine ⟨rfl, rfl, rfl, rfl, rfl, rfl, rfl, rfl, fun st => ?_⟩
  cases st with
  | ok => decide
  | failed f => cases f <;> decide

/-! ### The status table (60_exceptions.md R216) -/

theorem illegalCmd_mem_mayEndWith (op : BitVec 8) : Failure.illegalCmd ∈ mayEndWith op := by
  unfold mayEndWith
  split <;> simp

/-- Each cause of failure is marked in the table for the command's opcode. -/
theorem State.Fails.mem_mayEndWith {s : State} {i : Instr} {f : Failure} {info : Word64} (h : s.Fails i f info) :
    f ∈ mayEndWith (opField (encode i)) := by
  cases h <;> simp [encode, mayEndWith]

/-- Some word with this opcode ends with this failure, in a state with the invariant. -/
def Occurs (op : BitVec 8) (f : Failure) : Prop :=
  ∃ (s t : State) (w : Word64) (info : Word64),
    s.Inv ∧ opField w = op ∧ submit w s = .next t ∧ t.rsp = some ⟨.failed f, info⟩

/-- Every row has a field that is reserved for its command. -/
theorem opcodeMap_reserved : ∀ r ∈ opcodeMap, r.usesA = false ∨ r.usesB = false ∨ r.usesD = false := by decide

/-- With every other field set, no opcode makes a command. -/
theorem decode_all_fields_set (op : BitVec 8) : ∃ e, decode (commandWord op 1 1 1) = .error e := by
  cases hr : rowOf op with
  | none => exact ⟨_, decode_of_unknownOpcode (by simpa using hr)⟩
  | some r =>
    refine ⟨_, decode_of_reservedField (r := r) (by simpa using hr) (Row.reservedSet_iff.2 ?_)⟩
    simpa using opcodeMap_reserved r (rowOf_some hr).1

theorem reset_inv : State.reset.Inv := State.resetWith_inv Config.default_wf

theorem occurs_illegalCmd (op : BitVec 8) : Occurs op .illegalCmd := by
  obtain ⟨e, he⟩ := decode_all_fields_set op
  exact ⟨State.reset, _, _, 0, reset_inv, opField_commandWord .., submit_of_error he _, rfl⟩

theorem State.Fails.occurs {s : State} {i : Instr} {f : Failure} {info : Word64} {op : BitVec 8} (h : s.Fails i f info)
    (hs : s.Inv) (hop : op.toNat = (opField (encode i)).toNat) (hwf : i.wf = true := by decide) : Occurs op f :=
  ⟨s, _, _, info, hs, (BitVec.eq_of_toNat_eq hop).symm,
    (submit_of_decode (decode_encode hwf) s).trans (exec_of_fails h), rfl⟩

/-- A block at its limits: the table {0 ↦ 2, 1 ↦ 2, 2 ↦ 1} of 42_tree_builder.md R108 with its tree and its codes, SRC
full with the bytes 0 1 0 1 2, BITS full with their codes, room for 4 bytes in DST. -/
def limitState : State :=
  { State.resetWith ⟨5, 8, 4⟩ with
    tv := true, cv := true, nnodes := 5, root := 4, freq := [(0, 2), (1, 2), (2, 1)]
    node := [(0, .leaf 2 0), (1, .leaf 2 1), (2, .leaf 1 2), (3, .internal 3 2 0), (4, .internal 5 1 3)]
    code := [(0, ⟨2, 3⟩), (1, ⟨1, 0⟩), (2, ⟨2, 2⟩)]
    srclen := 5, src := [(1, 1), (3, 1), (4, 2)]
    bitlen := 8, bits := [(0, true), (1, true), (3, true), (4, true), (6, true)] }

theorem limitState_inv : limitState.Inv := by constructor <;> decide

/-- The same block with its last bit taken off, in the middle of a code. -/
def cutState : State := { limitState with bitlen := 7 }

theorem cutState_inv : cutState.Inv := by constructor <;> decide

/-- The same block with an empty bit sequence and room for one bit less than the codes need. -/
def shortState : State := { limitState with cfg := ⟨5, 7, 4⟩, bitlen := 0 }

theorem shortState_inv : shortState.Inv := by constructor <;> decide

/-- The same block with a byte in SRC that the table does not have. -/
def strangerState : State := { limitState with src := [(1, 3)] }

theorem strangerState_inv : strangerState.Inv := by constructor <;> decide

/-- The same block before DERIVE. -/
def underivedState : State := { limitState with cv := false }

theorem underivedState_inv : underivedState.Inv := by constructor <;> decide

/-- Every marked cell occurs; the cases are the rows of the table, and ILLEGAL_CMD is in all of them. -/
theorem occurs_of_mem_mayEndWith {op : BitVec 8} {f : Failure} (h : f ∈ mayEndWith op) : Occurs op f := by
  by_cases hf : f = .illegalCmd
  · exact hf ▸ occurs_illegalCmd op
  · unfold mayEndWith at h
    split at h <;> rename_i hop <;> simp only [List.mem_cons, List.not_mem_nil, hf, false_or, or_false] at h
    case h_1 =>
      obtain rfl | rfl := h
      · exact (State.Fails.nrdBadIndex (k := 5) rfl (by decide)).occurs limitState_inv hop
      · exact (State.Fails.nrdNotReady (k := 0) rfl).occurs reset_inv hop
    case h_2 => exact h ▸ (State.Fails.deriveNotReady rfl).occurs reset_inv hop
    case h_3 => exact h ▸ (State.Fails.clenNotReady (x := 0) rfl).occurs reset_inv hop
    case h_4 => exact h ▸ (State.Fails.cvalNotReady (x := 0) (q := 0) (by decide) rfl).occurs reset_inv hop
    case h_5 => exact h ▸ (State.Fails.sputCapacity (x := 0) rfl).occurs limitState_inv hop
    case h_6 => exact h ▸ (State.Fails.bappCapacity (n := 1) (v := 0) (by decide) (by decide)).occurs limitState_inv hop
    case h_7 => exact h ▸ (State.Fails.sgetBadIndex (k := 0) (by decide)).occurs reset_inv hop
    case h_8 => exact h ▸ (State.Fails.brdBadIndex (j := 0) (by decide)).occurs reset_inv hop
    case h_9 => exact h ▸ (State.Fails.drdBadIndex (k := 0) (by decide)).occurs reset_inv hop
    case h_10 =>
      obtain rfl | rfl | rfl := h
      · exact (State.Fails.encodeNotReady (by decide) rfl).occurs underivedState_inv hop
      · exact (State.Fails.encodeCapacity (by decide) rfl (by decide) (by decide)).occurs shortState_inv hop
      · exact (State.Fails.encodeUnknown (by decide) rfl (k := 1) (x := 3) (by decide)).occurs strangerState_inv hop
    case h_11 =>
      obtain rfl | rfl | rfl | rfl := h
      · exact (State.Fails.decodeNotReady rfl).occurs reset_inv hop
      · exact (State.Fails.decodeCapacity (.paths rfl (by decide) (by decide) (w := 5) (l := 1) (r := 3) (by decide)
          (xs := [0, 1, 0, 1, 2]) (by decide)) (by decide)).occurs limitState_inv hop
      · exact (State.Fails.decodeMalformed rfl (by decide)).occurs shortState_inv hop
      · exact (State.Fails.decodeUnderflow rfl (by decide) (by decide) (w := 5) (l := 1) (r := 3) (by decide)
          (n := 4) (by decide)).occurs cutState_inv hop

/-- Settles O12: each cause of failure is marked for its command (`State.Fails.mem_mayEndWith`), and a state with the
invariant shows each marked cell (`occurs_of_mem_mayEndWith`). -/
theorem statusTableIsExact : Obligations.StatusTableIsExact := by
  refine ⟨fun s t w f info h hrsp => ?_, fun op f => occurs_of_mem_mayEndWith⟩
  obtain ⟨-, ⟨rfl, -⟩ | ⟨i, hi, hf⟩⟩ := fails_of_submit h hrsp
  · exact illegalCmd_mem_mayEndWith _
  · obtain ⟨-, rfl⟩ := encode_of_decode hi
    exact hf.mem_mayEndWith

/-! ### The data path after reset (70_reset_and_hazards.md R242) -/

/-- Settles O52: with TV = CV = 0 and every length 0 the causes of failure hold, and the empty table gives the empty
tree. -/
theorem dataPathCommandsInTheResetState : Obligations.DataPathCommandsInTheResetState := by
  intro s h
  obtain ⟨htv, hcv, -, -, -, hsrclen, hbitlen, hdstlen, -, -, -, hfreq, -⟩ := h
  have hnnodes : s.built.nnodes = 0 := by
    have hempty : presentSymbols s.freq = [] := (presentSymbols_eq_nil _).2 fun x => hfreq x.toNat
    exact BitVec.eq_of_toNat_eq (by simpa [hempty] using s.built_counts.1)
  refine ⟨⟨_, exec_build s, hnnodes, ?built⟩, exec_of_fails (.deriveNotReady htv), exec_of_fails (.decodeNotReady htv),
    fun k => exec_of_fails (.nrdNotReady htv), fun x => exec_of_fails (.clenNotReady hcv),
    fun x q hq => exec_of_fails (.cvalNotReady hq hcv), ⟨_, exec_encode_of_empty hsrclen, rfl, rfl⟩,
    fun k => exec_of_fails (.sgetBadIndex ?sget), fun j => exec_of_fails (.brdBadIndex ?brd),
    fun k => exec_of_fails (.drdBadIndex ?drd), fun x => ?fget⟩
  case built =>
    show some (⟨.ok, s.built.nnodes.setWidth 64⟩ : Response) = _
    rw [hnnodes]
    rfl
  case fget =>
    show Machine.ok ((s.freq.read x.toNat).setWidth 64) s = _
    rw [hfreq]
    rfl
  case sget => simp [hsrclen]
  case brd => simp [hbitlen, ceil8]
  case drd => simp [hdstlen]

end Sys2Proof.Machine
end
